-- ==== Sys2Proof/Word.lean ====
section
/-! DEFINITION. The word types of the machine (spec rules R9, R10, R42, R120). -/

namespace Sys2Proof

/-- A host-visible register, a command word, a bus data word: 32 bits (R9, R91, R121). -/
abbrev Word := BitVec 32

/-- A byte of the counter RAM or of a key: 8 bits (R42, R13). -/
abbrev Byte := BitVec 8

/-- A counter: 4 bits (R8, R181). -/
abbrev Nibble := BitVec 4

/-- The IEEE 754 binary64 pattern of p: 64 bits (R66, R151). -/
abbrev Pattern := BitVec 64

/-- A byte offset in the 2 KiB register window: 11 bits (R9, R61). -/
abbrev Offset := BitVec 11

end Sys2Proof
end

