-- ==== Sys2Proof/Syntax.lean ====
section
/-! DEFINITION. The eleven commands of the command set CBF-CMD, version 1 (spec rules R2, R94). -/

namespace Sys2Proof

/-- The command a `CMD` word encodes, one constructor per row of the opcode map (R94).
A command carries no operand: every operand is read from a register the rule names (R90, R92). -/
inductive Instr where
  /-- NOP, OP 0x00 (R133). -/
  | nop
  /-- CONFIGURE, OP 0x01 (R156). -/
  | configure
  /-- READ_SLOT, OP 0x02 (R186). -/
  | readSlot
  /-- INC_SLOT, OP 0x03 (R187). -/
  | incSlot
  /-- DEC_SLOT, OP 0x04 (R188). -/
  | decSlot
  /-- READ_BYTE, OP 0x05 (R189). -/
  | readByte
  /-- HASH_SLOT, OP 0x06 (R225). -/
  | hashSlot
  /-- MAP, OP 0x07 (R226). -/
  | map
  /-- INSERT, OP 0x08 (R251). -/
  | insert
  /-- DELETE, OP 0x09 (R252). -/
  | delete
  /-- LOOKUP, OP 0x0A (R253). -/
  | lookup
  deriving DecidableEq, Repr

end Sys2Proof
end

