-- ==== Sys2Proof/WellFormed.lean ====
section
/-! DEFINITION. The well-formed command words of the format CMDW (spec rules R90, R95).
The commands themselves carry no operand, so no `Instr` is ill-formed; what can be ill-formed is the word. -/

namespace Sys2Proof

/-- The reserved field RSV, bits [31:8], is 0 (R90). -/
def reservedClear (w : Word) : Bool :=
  w.extractLsb' 8 24 == 0#24

/-- The opcode field OP, bits [7:0], is one of 0x00 to 0x0A (R94, R95). -/
def opcodeDefined (w : Word) : Bool :=
  (w.extractLsb' 0 8).toNat ≤ 0x0A

/-- A command word that some row of R94 matches: every other word is illegal (R95). -/
def wordWellFormed (w : Word) : Bool :=
  reservedClear w && opcodeDefined w

end Sys2Proof
end

