-- ==== Sys2Proof/Decode.lean ====
section
/-! DEFINITION. Decoding a command word (spec rule R96), total on all words, and the encoder (R94). -/

namespace Sys2Proof

/-- Why a command word is ILLEGAL (R95): both reasons give the same error code, ILLEGAL_COMMAND. -/
inductive DecodeError where
  /-- `w[31:8] != 0`. -/
  | reservedBitsSet
  /-- `w[31:8] = 0` and OP is in 0x0B to 0xFF. -/
  | undefinedOpcode
  deriving DecidableEq, Repr

/-- The opcode map of R94, read by the OP field. -/
def commandOfOpcode : BitVec 8 → Option Instr
  | 0x00#8 => some .nop
  | 0x01#8 => some .configure
  | 0x02#8 => some .readSlot
  | 0x03#8 => some .incSlot
  | 0x04#8 => some .decSlot
  | 0x05#8 => some .readByte
  | 0x06#8 => some .hashSlot
  | 0x07#8 => some .map
  | 0x08#8 => some .insert
  | 0x09#8 => some .delete
  | 0x0A#8 => some .lookup
  | _ => none

/-- `decode` of R96: a command, or ILLEGAL with its reason. -/
def decode (w : Word) : Except DecodeError Instr :=
  if w.extractLsb' 8 24 ≠ 0#24 then .error .reservedBitsSet
  else
    match commandOfOpcode (w.extractLsb' 0 8) with
    | some i => .ok i
    | none => .error .undefinedOpcode

/-- The column "word w" of R94: the word the host writes to `CMD` to run the command. -/
def encode : Instr → Word
  | .nop => 0x00000000#32
  | .configure => 0x00000001#32
  | .readSlot => 0x00000002#32
  | .incSlot => 0x00000003#32
  | .decSlot => 0x00000004#32
  | .readByte => 0x00000005#32
  | .hashSlot => 0x00000006#32
  | .map => 0x00000007#32
  | .insert => 0x00000008#32
  | .delete => 0x00000009#32
  | .lookup => 0x0000000A#32

/-- The 32-bit `CMD` data word whose low `nbits` bits are those of `w` and whose other bits are 0.
A command is one bus word, so there is no byte order to choose (R63, R91). -/
def wordOfTableBits (nbits w : Nat) : Word :=
  BitVec.ofNat 32 (w % 2 ^ nbits)

/-- The command the decoder reads from a word given as the opcode table numbers its bits. -/
def decodeTableWord (nbits w : Nat) : Option Instr :=
  match decode (wordOfTableBits nbits w) with
  | .ok i => some i
  | .error _ => none

end Sys2Proof
end

