-- ==== Sys2Proof/Config.lean ====
section
/-! DEFINITION. The configuration: what an implementation fixes (spec rules R7, R17, R220, R221).
It is an argument of every definition that uses it, never state. `Config.impl` is the unknown
configuration of the hardware at hand: a constant without a body, so a claim about it holds for every one. -/

namespace Sys2Proof

/-- The implementation parameters of R7. Each size is held so that only the values R7 allows exist:
the accessors below give the parameters under the spec's names. -/
structure Config where
  /-- `M_MAX - 1`; R7 asks 1 <= M_MAX <= 2^32 - 1. -/
  mMaxPred : Fin 4294967295
  /-- `K_MAX - 1`; R7 asks 1 <= K_MAX <= 65535. -/
  kMaxPred : Fin 65535
  /-- `KEY_MAX / 4 - 1`; R7 asks a multiple of 4 with 4 <= KEY_MAX <= 1024. -/
  keyWordsPred : Fin 256
  /-- `DW / 32 - 4`; R7 asks a multiple of 32 with 128 <= DW <= 1024. -/
  digestWordsExtra : Fin 29
  /-- `DIGEST_FN` before its range is imposed (see `Config.digestFn`). -/
  digestRaw : List Byte → Nat
  /-- `SEED_ENC`, from a seed to a byte string (R221); only seeds 1 to K_MAX are ever encoded. -/
  seedEnc : Nat → List Byte
  deriving Inhabited

/-- `M_MAX`: most counter slots an instance may have (R7). -/
def Config.mMax (c : Config) : Nat := c.mMaxPred.val + 1

/-- `K_MAX`: most hash functions an instance may have (R7). -/
def Config.kMax (c : Config) : Nat := c.kMaxPred.val + 1

/-- `KEY_MAX / 4`: the number of KEY words inside capacity (R40). -/
def Config.keyWords (c : Config) : Nat := c.keyWordsPred.val + 1

/-- `KEY_MAX`: capacity of the key buffer in bytes (R7). -/
def Config.keyMax (c : Config) : Nat := 4 * c.keyWords

/-- `DW / 32`: the number of DIGEST words inside capacity (R39). -/
def Config.digestWords (c : Config) : Nat := c.digestWordsExtra.val + 4

/-- `DW`: digest width in bits (R7). -/
def Config.dw (c : Config) : Nat := 32 * c.digestWords

/-- `DIGEST_FN`: a total deterministic function to natural numbers below 2^DW (R220). -/
def Config.digestFn (c : Config) (x : List Byte) : Nat := c.digestRaw x % 2 ^ c.dw

/-- The configuration of the hardware at hand: any that R7 allows (log entry 1). -/
opaque Config.impl : Config

end Sys2Proof
end

