-- ==== Sys2Proof/Machine/State.lean ====
section
/-! DEFINITION. The state of the machine as plain data, the host's transactions, the reasons to stop,
and the state after reset (spec rules R21 to R48, R121, R280, R289, R320, R321). -/

namespace Sys2Proof.Machine

/-- The fields of `CTRL` (R26). The reserved bits are dropped by a write and read 0. -/
structure Ctrl where
  /-- `DIAG_EN`, bit 0: enables INC_SLOT and DEC_SLOT. -/
  diagEn : Bool
  /-- `DEC_FLOOR0`, bit 1: the decrement policy, false is the floor at 1. -/
  decFloor0 : Bool
  deriving DecidableEq, Repr

/-- The error codes of R280. The codes 0x8 to 0xF are reserved and never produced. -/
inductive ErrCode where
  /-- NONE, 0x0. -/
  | noError
  /-- ILLEGAL_COMMAND, 0x1. -/
  | illegalCommand
  /-- NOT_CONFIGURED, 0x2. -/
  | notConfigured
  /-- INVALID_PARAMETER, 0x3. -/
  | invalidParameter
  /-- CAPACITY, 0x4. -/
  | capacity
  /-- KEY_LENGTH, 0x5. -/
  | keyLength
  /-- INDEX_RANGE, 0x6. -/
  | indexRange
  /-- DIAG_DISABLED, 0x7. -/
  | diagDisabled
  deriving DecidableEq, Repr

/-- The fields of `STATUS` (R27). The reserved bits read 0 and nothing writes them. -/
structure Status where
  /-- `CONFIGURED`, bit 0. -/
  configured : Bool
  /-- `ERR`, bits [7:4]. -/
  err : ErrCode
  /-- `SAT`, bit 8. -/
  sat : Bool
  /-- `FLOOR`, bit 9. -/
  floor : Bool
  deriving DecidableEq, Repr

/-- What stands at an offset of the register window (R21). -/
inductive Reg where
  | id | capM | capK | capD | ctrl | status | cmd | arg0 | result | n | pLo | pHi
  | m | k | cfgN | cfgPLo | cfgPHi | keyLen | satCnt | floorCnt
  /-- `DIGEST[w]`; a word from DW/32 on is RAZ/WI (R39). -/
  | digest (w : Nat)
  /-- `KEY[w]`; a word from KEY_MAX/4 on is RAZ/WI (R40). -/
  | key (w : Nat)
  /-- A reserved offset, RAZ/WI (R41). -/
  | reserved
  deriving DecidableEq, Repr

/-- The direction of a transaction (R121). -/
inductive Direction where
  | read
  | write
  deriving DecidableEq, Repr

/-- The size of a transaction: 1, 2, 4 or 8 bytes, `req_size` 0 to 3 (R120, R121). -/
inductive AccessSize where
  | byte
  | half
  | word
  | double
  deriving DecidableEq, Repr

/-- A transaction `(dir, a, size, wdata)` (R121). -/
structure Transaction where
  dir : Direction
  addr : Offset
  size : AccessSize
  /-- Ignored for reads. -/
  wdata : Word
  deriving DecidableEq, Repr

/-- The response `(error, rdata)` to a transaction (R121). -/
structure Response where
  error : Bool
  rdata : Word
  deriving DecidableEq, Repr

/-- What the host can do to the core: a transaction, or reset (R16, R320). -/
inductive PortEvent where
  /-- A transaction that runs to its response. -/
  | request (t : Transaction)
  /-- `rst_n` held at 0; with the transaction in progress that it abandons, if there is one (R320). -/
  | reset (abandoned : Option Transaction)
  deriving DecidableEq, Repr

/-- The machine's state (R48), with the host's script and the responses given so far. -/
structure State where
  /-- `CTRL` (R26). -/
  ctrl : Ctrl
  /-- `STATUS` (R27). -/
  status : Status
  /-- `ARG0` (R29). -/
  arg0 : Word
  /-- `RESULT` (R30). -/
  result : Word
  /-- `N`, the staged element count (R31). -/
  n : Word
  /-- `P_LO`, bits [31:0] of the staged p (R32). -/
  pLo : Word
  /-- `P_HI`, bits [63:32] of the staged p (R32). -/
  pHi : Word
  /-- `M`, the slot count of the instance (R33). -/
  m : Word
  /-- `K`, the hash count of the instance (R34). -/
  k : Word
  /-- `CFG_N`, the n of the instance (R35). -/
  cfgN : Word
  /-- `CFG_P_LO`, the low word of the p of the instance (R35). -/
  cfgPLo : Word
  /-- `CFG_P_HI`, the high word of the p of the instance (R35). -/
  cfgPHi : Word
  /-- `KEYLEN` (R36). -/
  keyLen : Word
  /-- `SATCNT`, saturation events (R37). -/
  satCnt : Word
  /-- `FLOORCNT`, floor events (R38). -/
  floorCnt : Word
  /-- The words of `DIGEST`: those whose `written` bit is 1, by rising index (R39, R45). A word that is not listed has the
  `written` bit 0 and holds `unwrittenWord` (log entry 9). -/
  digest : List (Nat × Word)
  /-- The words of `KEY`: those whose `written` bit is 1, by rising index (R40, R45). A word that is not listed has the
  `written` bit 0 and holds `unwrittenWord` (log entry 9). -/
  key : List (Nat × Word)
  /-- The counter RAM `CRAM`: its bytes that are not 0, by rising address (R42). -/
  cram : List Host.Cell
  /-- The MODEL's own: the events of the host still to come, oldest first (R343). -/
  script : List PortEvent
  /-- The MODEL's own: the responses given so far, oldest first (R343). -/
  responses : List Response
  deriving DecidableEq, Repr

/-- Why the run of the model stops. None of these is an error of the hardware (R289). -/
inductive Fault where
  /-- A host read of `KEY[w]` whose `written` bit is 0: the spec itself calls it a fault of the run (R45, R289 (a)).
  Raised by the read of a register. Safe. -/
  | readUnwrittenKey (w : Nat)
  /-- A host read of `DIGEST[w]` whose `written` bit is 0: the spec itself calls it a fault of the run (R45, R289 (a)).
  Raised by the read of a register. Safe. -/
  | readUnwrittenDigest (w : Nat)
  /-- HASH_SLOT, INSERT, DELETE or LOOKUP passed every check and consumes `KEY[w]` whose `written` bit is 0:
  the spec itself calls it a fault of the run (R45, R289 (b), R222). Raised by the key operand. Safe. -/
  | consumedUnwrittenKey (w : Nat)
  /-- MAP passed every check and consumes `DIGEST[w]` whose `written` bit is 0: the spec itself calls it a fault of
  the run (R45, R289 (b), R226). Raised by MAP. Safe. -/
  | consumedUnwrittenDigest (w : Nat)
  /-- CONFIGURED = 1 with M outside the range R33 and R49 state, or K outside the one of R34 and R49. Raised by the
  commands that have M, or K, as an operand (R92), in states no run from reset reaches. Safe. -/
  | impossibleInstance
  deriving DecidableEq, Repr

/-- What the model refuses. -/
inductive Refusal where
  /-- An instruction without a meaning. Raised by `exec`'s arms alone; no arm does so now. Safe. -/
  | notModelled (mnemonic : String)
  deriving DecidableEq, Repr

/-- The outcome of a command or a step. -/
abbrev Result := Host.Outcome State Fault Refusal

/-- The machine right after reset (R47, R321). CRAM is unspecified there: the list is empty, so that every byte
reads 0x00, DESIGN CHOICE, unsafe (log entry 3). Every KEY and DIGEST word is not written and holds 0x00000000, DESIGN
CHOICE, unsafe (log entry 9). The script and the responses are the model's own (log entry 6). -/
def State.reset : State where
  ctrl := { diagEn := false, decFloor0 := false }
  status := { configured := false, err := .noError, sat := false, floor := false }
  arg0 := 0
  result := 0
  n := 0
  pLo := 0
  pHi := 0
  m := 0
  k := 0
  cfgN := 0
  cfgPLo := 0
  cfgPHi := 0
  keyLen := 0
  satCnt := 0
  floorCnt := 0
  digest := []
  key := []
  cram := []
  script := []
  responses := []

end Sys2Proof.Machine
end

