-- ==== Sys2Proof/Machine/Flags.lean ====
section
/-! DEFINITION. The status and control words as the host reads them, and every status computation: the
completion of a command (spec rules R26, R27, R37, R38, R131, R280). -/

namespace Sys2Proof.Machine

/-- The 4-bit code of an error (R280). -/
def errBits : ErrCode → BitVec 4
  | .noError => 0x0#4
  | .illegalCommand => 0x1#4
  | .notConfigured => 0x2#4
  | .invalidParameter => 0x3#4
  | .capacity => 0x4#4
  | .keyLength => 0x5#4
  | .indexRange => 0x6#4
  | .diagDisabled => 0x7#4

/-- `STATUS` as a word: CONFIGURED in bit 0, ERR in [7:4], SAT in bit 8, FLOOR in bit 9, the rest 0 (R27). -/
def statusWord (st : Status) : Word :=
  0#22 ++ BitVec.ofBool st.floor ++ BitVec.ofBool st.sat ++ errBits st.err ++ 0#3 ++ BitVec.ofBool st.configured

/-- `CTRL` as a word: DIAG_EN in bit 0, DEC_FLOOR0 in bit 1, the rest 0 (R26). -/
def ctrlWord (ct : Ctrl) : Word :=
  0#30 ++ BitVec.ofBool ct.decFloor0 ++ BitVec.ofBool ct.diagEn

/-- What a write of `v` to `CTRL` leaves there: `v & 0x00000003` (R125). -/
def ctrlOfWord (v : Word) : Ctrl :=
  { diagEn := v.getLsbD 0, decFloor0 := v.getLsbD 1 }

/-- A debug counter's new value: it saturates at 0xFFFFFFFF and does not wrap (R37, R38, R131). -/
def countEvents (cnt : Word) (events : Nat) : Word :=
  BitVec.ofNat 32 (min (cnt.toNat + events) 0xFFFFFFFF)

/-- `complete(result, sat, floor)`: the successful end of a command (R131). CONFIGURED is not changed. -/
def complete (s : State) (result sat floor : Nat) : State :=
  { s with
    status := { s.status with err := .noError, sat := decide (0 < sat), floor := decide (0 < floor) }
    satCnt := countEvents s.satCnt sat
    floorCnt := countEvents s.floorCnt floor
    result := BitVec.ofNat 32 result }

end Sys2Proof.Machine
end

