-- ==== Sys2Proof/Machine/Ops.lean ====
section
/-! DEFINITION. The named operations over memory and registers: tables of written words, the counter RAM, the
failure of a command, and the host's reads and writes of registers (spec rules R21 to R45, R60, R123 to R125, R282, R283). -/

namespace Sys2Proof.Machine

/-! ### Tables: lists of (index, value) pairs with rising indexes -/

/-- The value listed at `a`, if there is one. -/
def lookupAt {α : Type} : List (Nat × α) → Nat → Option α
  | [], _ => none
  | (b, v) :: t, a => if a = b then some v else lookupAt t a

/-- List `v` at `a`, in place of what was listed there. -/
def putAt {α : Type} : List (Nat × α) → Nat → α → List (Nat × α)
  | [], a, v => [(a, v)]
  | (b, w) :: t, a, v =>
    if a < b then (a, v) :: (b, w) :: t
    else if a = b then (a, v) :: t
    else (b, w) :: putAt t a v

/-- List nothing at `a`. -/
def dropAt {α : Type} (t : List (Nat × α)) (a : Nat) : List (Nat × α) :=
  t.filter fun p => p.1 ≠ a

/-- The indexes rise strictly, so no index is listed twice. -/
def tableRises {α : Type} : List (Nat × α) → Bool
  | [] => true
  | [_] => true
  | p :: q :: t => decide (p.1 < q.1) && tableRises (q :: t)

/-! ### The words of KEY and DIGEST -/

/-- The value a word of KEY or DIGEST holds while its `written` bit is 0. The spec gives none (R45, R47): 0, DESIGN
CHOICE, unsafe (log entry 9). No response and no command uses it: R45 and R289 make that a fault of the run. -/
def unwrittenWord : Word := 0x00000000#32

/-- The value the word `w` holds (R39, R40). -/
def wordAt (t : List (Nat × Word)) (w : Nat) : Word :=
  (lookupAt t w).getD unwrittenWord

/-- The hidden `written` bit of the word `w` (R45). -/
def isWritten (t : List (Nat × Word)) (w : Nat) : Bool :=
  (lookupAt t w).isSome

/-! ### The counter RAM -/

/-- `ceil(a / b)` for natural numbers, b > 0 (R11). -/
def ceilDiv (a b : Nat) : Nat :=
  (a + b - 1) / b

/-- What a byte of CRAM that is not listed reads as. After CONFIGURE's clear it is 0 (R156). Before the first
CONFIGURE the spec gives no value and nothing reads it (R47): 0, DESIGN CHOICE, unsafe (log entry 3). -/
def unlistedByte : Byte := 0x00#8

/-- `MemRead(j, 1)` (R60). CRAM has ceil(M_MAX/2) bytes (R42), and every command checks its index first, so that
no access leaves the instance's ceil(M/2) bytes (R180). -/
def memRead (mem : List Host.Cell) (j : Nat) : Byte :=
  (lookupAt mem j).getD unlistedByte

/-- `MemWrite(j, 1, v)` (R60), keeping the canonical form: a byte equal to `unlistedByte` is not listed. -/
def memWrite (mem : List Host.Cell) (j : Nat) (v : Byte) : List Host.Cell :=
  if v = unlistedByte then dropAt mem j else putAt mem j v

/-- CONFIGURE's clear: `MemWrite(j, 1, 0x00)` for every byte j of CRAM (R156, R180). -/
def memClear : List Host.Cell := []

/-- The canonical form of the counter RAM: addresses strictly rising, no entry equal to `unlistedByte`. -/
def memWf (mem : List Host.Cell) : Bool :=
  tableRises mem && mem.all fun p => p.2 ≠ unlistedByte

/-! ### The failure of a command -/

/-- `raise CmdError(code)`: ERR <- code, SAT <- 0, FLOOR <- 0, and nothing else changes (R283). This is all that an
error does: the core has no traps, saves nothing and transfers control nowhere (R286, R287). -/
def cmdError (s : State) (code : ErrCode) : State :=
  { s with status := { s.status with err := code, sat := false, floor := false } }

/-- The first error condition that holds, of a list in the order of R282. -/
def firstError : List (Bool × ErrCode) → Option ErrCode
  | [] => none
  | (holds, code) :: rest => if holds then some code else firstError rest

/-- A command checks all its error conditions in order before it changes any state (R129, R282). -/
def afterChecks (checks : List (Bool × ErrCode)) (s : State) (body : Result) : Result :=
  match firstError checks with
  | some code => .next (cmdError s code)
  | none => body

/-- The slot count is in the range R33 and R49 state: 1 <= M <= M_MAX. -/
def slotsInRange (c : Config) (s : State) : Bool :=
  decide (1 ≤ s.m.toNat) && decide (s.m.toNat ≤ c.mMax)

/-- The hash count is in the range R34 and R49 state: 1 <= K <= K_MAX. -/
def seedsInRange (c : Config) (s : State) : Bool :=
  decide (1 ≤ s.k.toNat) && decide (s.k.toNat ≤ c.kMax)

/-- Both are. -/
def instanceInRange (c : Config) (s : State) : Bool :=
  slotsInRange c s && seedsInRange c s

/-- A command with the operand M and without the operand K (R92). In a state no run from reset reaches, whose M is out of
range, there is no such byte or modulus, and the model stops (log entry 5). -/
def onSlots (c : Config) (s : State) (body : Result) : Result :=
  if slotsInRange c s then body else .fault .impossibleInstance

/-- A command with the operands M and K (R92). In a state no run from reset reaches, whose M or K is out of range, there
is no such slot, modulus or seed, and the model stops (log entry 5). -/
def onInstance (c : Config) (s : State) (body : Result) : Result :=
  if instanceInRange c s then body else .fault .impossibleInstance

/-! ### The register window -/

/-- The registers of R21 below 0x050, by offset. -/
def registerMap : List (Nat × Reg) :=
  [(0x000, .id), (0x004, .capM), (0x008, .capK), (0x00C, .capD), (0x010, .ctrl), (0x014, .status),
   (0x018, .cmd), (0x01C, .arg0), (0x020, .result), (0x024, .n), (0x028, .pLo), (0x02C, .pHi),
   (0x030, .m), (0x034, .k), (0x038, .cfgN), (0x03C, .cfgPLo), (0x040, .cfgPHi), (0x044, .keyLen),
   (0x048, .satCnt), (0x04C, .floorCnt)]

/-- What stands at an aligned offset (R21): all 11 bits are decoded and nothing aliases (R61). -/
def regAt (a : Offset) : Reg :=
  match lookupAt registerMap a.toNat with
  | some r => r
  | none =>
    if 0x080 ≤ a.toNat ∧ a.toNat < 0x100 then .digest ((a.toNat - 0x080) / 4)
    else if 0x400 ≤ a.toNat then .key ((a.toNat - 0x400) / 4)
    else .reserved

/-- The identification constant "CBF1" (R3, R22). -/
def idWord : Word := 0x43424631#32

/-- The value a legal read returns (R22 to R41, R123). A read of a KEY or DIGEST word whose
`written` bit is 0 is a fault of the run, which the spec states: "A model must treat both as a fault of the run, not as a
value" (R45), "A model faults on the unspecified case" (R123), R289 (a). -/
def readReg (c : Config) (s : State) : Reg → Except Fault Word
  | .id => .ok idWord
  | .capM => .ok (BitVec.ofNat 32 c.mMax)
  | .capK => .ok (BitVec.ofNat 16 c.keyMax ++ BitVec.ofNat 16 c.kMax)
  | .capD => .ok (0#16 ++ BitVec.ofNat 16 c.dw)
  | .ctrl => .ok (ctrlWord s.ctrl)
  | .status => .ok (statusWord s.status)
  | .cmd => .ok 0
  | .arg0 => .ok s.arg0
  | .result => .ok s.result
  | .n => .ok s.n
  | .pLo => .ok s.pLo
  | .pHi => .ok s.pHi
  | .m => .ok s.m
  | .k => .ok s.k
  | .cfgN => .ok s.cfgN
  | .cfgPLo => .ok s.cfgPLo
  | .cfgPHi => .ok s.cfgPHi
  | .keyLen => .ok s.keyLen
  | .satCnt => .ok s.satCnt
  | .floorCnt => .ok s.floorCnt
  | .digest w =>
    if w < c.digestWords then
      if isWritten s.digest w then .ok (wordAt s.digest w) else .error (.readUnwrittenDigest w)
    else .ok 0
  | .key w =>
    if w < c.keyWords then
      if isWritten s.key w then .ok (wordAt s.key w) else .error (.readUnwrittenKey w)
    else .ok 0
  | .reserved => .ok 0

/-- The effect of a legal write to a register other than `CMD` (R125): RO and RAZ/WI locations are not changed. -/
def writeReg (c : Config) (s : State) (r : Reg) (v : Word) : State :=
  match r with
  | .ctrl => { s with ctrl := ctrlOfWord v }
  | .arg0 => { s with arg0 := v }
  | .n => { s with n := v }
  | .pLo => { s with pLo := v }
  | .pHi => { s with pHi := v }
  | .keyLen => { s with keyLen := v }
  | .digest w => if w < c.digestWords then { s with digest := putAt s.digest w v } else s
  | .key w => if w < c.keyWords then { s with key := putAt s.key w v } else s
  | .id => s
  | .capM => s
  | .capK => s
  | .capD => s
  | .status => s
  | .cmd => s
  | .result => s
  | .m => s
  | .k => s
  | .cfgN => s
  | .cfgPLo => s
  | .cfgPHi => s
  | .satCnt => s
  | .floorCnt => s
  | .reserved => s

end Sys2Proof.Machine
end

