-- ==== Sys2Proof/Machine/Bus.lean ====
section
/-! DEFINITION. The host port: transactions, responses, the dispatch of a `CMD` write, and reset
(spec rules R68, R120 to R128, R281, R320, R321). `run` is what runs a decoded command. -/

namespace Sys2Proof.Machine

/-- The size that the 2-bit signal `req_size` codes (R120). -/
def sizeOfSignal (v : BitVec 2) : AccessSize :=
  match v.toNat with
  | 0 => .byte
  | 1 => .half
  | 2 => .word
  | _ => .double

/-- The number of bytes of a transaction (R121). -/
def bytesOfSize : AccessSize → Nat
  | .byte => 1
  | .half => 2
  | .word => 4
  | .double => 8

/-- A transaction is legal if its size is 4 bytes and its offset has a[1:0] = 0 (R68). -/
def isLegal (t : Transaction) : Bool :=
  bytesOfSize t.size == 4 && t.addr.toNat % 4 == 0

/-- The offset of `CMD` (R28). -/
def cmdOffset : Offset := 0x018#11

/-- The core gives a response: it is seen after every effect of the transaction (R122). -/
def respond (s : State) (r : Response) : State :=
  { s with responses := s.responses ++ [r] }

/-- The response of a bus error: `(error = 1, rdata = 0)` (R124). -/
def busError : Response := { error := true, rdata := 0 }

/-- The response of a legal read (R123). -/
def readDone (v : Word) : Response := { error := false, rdata := v }

/-- The response of a legal write: `(error = 0, rdata = 0)` (R125). -/
def writeDone : Response := { error := false, rdata := 0 }

/-- `exec(s, w)`: decode the word and run its command; an illegal word fails with ILLEGAL_COMMAND (R128, R281). -/
def runCommand (run : Instr → State → Result) (w : Word) (s : State) : Result :=
  match decode w with
  | .error _ => .next (cmdError s .illegalCommand)
  | .ok i => run i s

/-- The `CMD` write is answered when its command has ended, whatever its error code (R122, R283, R284). -/
def afterCommand : Result → Result
  | .next s => .next (respond s writeDone)
  | .fault f => .fault f
  | .refused r => .refused r

/-- The transaction step (R127). -/
def transact (c : Config) (run : Instr → State → Result) (t : Transaction) (s : State) : Result :=
  if isLegal t then
    match t.dir with
    | .read =>
      match readReg c s (regAt t.addr) with
      | .ok v => .next (respond s (readDone v))
      | .error f => .fault f
    | .write =>
      if t.addr = cmdOffset then afterCommand (runCommand run t.wdata s)
      else .next (respond (writeReg c s (regAt t.addr) t.wdata) writeDone)
  else .next (respond s busError)

/-- Reset: one step to the reset state from any state (R320, R321). What the host still has to send, and what it has
already seen, are not the core's. A transaction it abandons gets no response. -/
def afterReset (s : State) : State :=
  { State.reset with script := s.script, responses := s.responses }

/-- The core performs one event of the host (R16, R127, R320). -/
def perform (c : Config) (run : Instr → State → Result) (e : PortEvent) (s : State) : Result :=
  match e with
  | .request t => transact c run t s
  | .reset _ => .next (afterReset s)

/-- One step: the oldest event of the script is performed. Without an event the core does nothing (R16, R343). -/
def stepWith (c : Config) (run : Instr → State → Result) (s : State) : Result :=
  match s.script with
  | [] => .next s
  | e :: rest => perform c run e { s with script := rest }

/-- The transaction that writes the command word `w` to `CMD` (R97, R99). -/
def commandWrite (w : Word) : Transaction :=
  { dir := .write, addr := cmdOffset, size := .word, wdata := w }

end Sys2Proof.Machine
end

