-- ==== Sys2Proof/Machine/Operands.lean ====
section
/-! DEFINITION. The implicit operands of the commands (spec rules R64 to R66, R92, R93). -/

namespace Sys2Proof.Machine

/-- `ARG0` as an unsigned number: slot index, byte index or seed (R29, R93). -/
def argument (s : State) : Nat :=
  s.arg0.toNat

/-- The staged pattern `P_HI ++ P_LO` (R32, R66). -/
def stagedPattern (s : State) : Pattern :=
  s.pHi ++ s.pLo

/-- The pattern of the instance's p, `CFG_P_HI ++ CFG_P_LO` (R35, R66). -/
def instancePattern (s : State) : Pattern :=
  s.cfgPHi ++ s.cfgPLo

/-- The first of the words 0 to count - 1 whose `written` bit is 0, if there is one (R45). -/
def firstUnwritten (t : List (Nat × Word)) (count : Nat) : Option Nat :=
  (List.range count).find? fun w => !isWritten t w

/-- Byte `b` of a word, `v[8b+7 : 8b]` (R40, R64). -/
def byteOfWord (v : Word) (b : Nat) : Byte :=
  v.extractLsb' (8 * b) 8

/-- Byte b of the key buffer: `KEY[b div 4][8*(b mod 4)+7 : 8*(b mod 4)]` (R64). -/
def keyByte (s : State) (b : Nat) : Byte :=
  byteOfWord (wordAt s.key (b / 4)) (b % 4)

/-- `bytes(KEY, KEYLEN)`, the key a command uses (R64). -/
def keyBytes (s : State) : List Byte :=
  (List.range s.keyLen.toNat).map (keyByte s)

/-- The number of KEY words a key of KEYLEN bytes stands in: `ceil(KEYLEN / 4)` (R222). -/
def keyWordsUsed (s : State) : Nat :=
  ceilDiv s.keyLen.toNat 4

/-- A command that consumes the key. With an unwritten word in it the run faults, which the spec states: "The model faults,
toward unprovable, if any KEY word w < ceil(KEYLEN/4) has `written = 0`" (R222; R45, R289 (b)). -/
def onKey (s : State) (body : List Byte → Result) : Result :=
  match firstUnwritten s.key (keyWordsUsed s) with
  | some w => .fault (.consumedUnwrittenKey w)
  | none => body (keyBytes s)

/-- `sum over w in [0, count) of DIGEST[w] * 2^(32*w)` (R65). -/
def digestSum (s : State) : Nat → Nat
  | 0 => 0
  | w + 1 => digestSum s w + (wordAt s.digest w).toNat * 2 ^ (32 * w)

/-- A command that consumes the host's digest. With an unwritten word in it the run faults, which the spec states: "The model
faults, toward unprovable, if any DIGEST word w < DW/32 has `written = 0`" (R226; R45, R289 (b)). -/
def onDigest (c : Config) (s : State) (body : Nat → Result) : Result :=
  match firstUnwritten s.digest c.digestWords with
  | some w => .fault (.consumedUnwrittenDigest w)
  | none => body (digestSum s c.digestWords)

end Sys2Proof.Machine
end

