-- ==== Sys2Proof/Machine/Derivation.lean ====
section
/-! DEFINITION. The parameter_derivation block: the binary64 value of p, the validity of (n, p), and the derivation
of (m, k) in exact arithmetic, by fixed-point enclosures of the logarithms (spec rules R150 to R155, R159). -/

namespace Sys2Proof.Machine

/-! ### The pattern of p -/

/-- The sign bit s = pb[63] (R151). -/
def signBit (pb : Pattern) : Bool :=
  pb.getLsbD 63

/-- The exponent field e = pb[62:52] (R151). -/
def expField (pb : Pattern) : Nat :=
  (pb.extractLsb' 52 11).toNat

/-- The fraction field f = pb[51:0] (R151). -/
def fracField (pb : Pattern) : Nat :=
  (pb.extractLsb' 0 52).toNat

/-- The integer significand: f when e = 0, else 2^52 + f (R151). -/
def significand (pb : Pattern) : Nat :=
  if expField pb = 0 then fracField pb else 2 ^ 52 + fracField pb

/-- The power of two: -1074 when e = 0, else e - 1075 (R151). -/
def binaryExponent (pb : Pattern) : Int :=
  if expField pb = 0 then -1074 else (expField pb : Int) - 1075

/-- The value of a binary64 pattern; none for an infinity or a NaN (R151). -/
def binary64Value (pb : Pattern) : Option ℚ :=
  if expField pb = 0x7FF then none
  else some ((if signBit pb then -1 else 1) * (significand pb : ℚ) * (2 : ℚ) ^ binaryExponent pb)

/-- The inputs (n, pb) are valid: n >= 1 and pb, as an unsigned integer, in 0x0000000000000001 to 0x3FEFFFFFFFFFFFFF (R152). -/
def validInputs (n : Word) (pb : Pattern) : Bool :=
  decide (1 ≤ n.toNat) && decide (1 ≤ pb.toNat) && decide (pb.toNat ≤ 0x3FEFFFFFFFFFFFFF)

/-! ### Fixed-point enclosures: integers that bound 2^bits times a real number, for any number of bits -/

/-- The number of bits of the first enclosure: it decides every input of the spec's vectors. -/
def enclosureBits : Nat := 256

/-- The number of terms of the series of the inverse hyperbolic tangent: 9 to this power is above 2^bits. -/
def enclosureTerms (bits : Nat) : Nat :=
  bits / 3 + 1

/-- `floor(2^bits * z^(2k+1) / (2k+1))` with z = a/b: a term of the series of atanh z. -/
def atanhTerm (bits a b k : Nat) : Nat :=
  2 ^ bits * a ^ (2 * k + 1) / (b ^ (2 * k + 1) * (2 * k + 1))

/-- The sum of the first terms. -/
def atanhSum (bits a b : Nat) : Nat → Nat
  | 0 => 0
  | k + 1 => atanhSum bits a b k + atanhTerm bits a b k

/-- A lower bound of 2 atanh(a/b), for a/b <= 1/3. -/
def twiceAtanhLo (bits a b : Nat) : Nat :=
  2 * atanhSum bits a b (enclosureTerms bits)

/-- The width of an enclosure of 2 atanh(a/b): each term loses less than 1, and so do all the terms left out. -/
def enclosureWidth (bits : Nat) : Nat :=
  2 * (enclosureTerms bits + 1)

/-- An upper bound of 2 atanh(a/b), for a/b <= 1/3. -/
def twiceAtanhHi (bits a b : Nat) : Nat :=
  twiceAtanhLo bits a b + enclosureWidth bits

/-- A lower bound of ln 2 = 2 atanh(1/3). -/
def ln2Lo (bits : Nat) : Nat := twiceAtanhLo bits 1 3

/-- An upper bound of ln 2. -/
def ln2Hi (bits : Nat) : Nat := twiceAtanhHi bits 1 3

/-- The position of the significand's leading bit: the significand is y * 2^t with 1 <= y < 2. -/
def leadingBit (pb : Pattern) : Nat :=
  (significand pb).log2

/-- For p = y * 2^(-d) with 1 <= y < 2, the number d; at least 1 when 0 < p < 1. -/
def negExponent (pb : Pattern) : Nat :=
  (-(binaryExponent pb + leadingBit pb)).toNat

/-- A lower bound of ln y = 2 atanh((y - 1)/(y + 1)). -/
def lnSignificandLo (bits : Nat) (pb : Pattern) : Nat :=
  twiceAtanhLo bits (significand pb - 2 ^ leadingBit pb) (significand pb + 2 ^ leadingBit pb)

/-- An upper bound of ln y. -/
def lnSignificandHi (bits : Nat) (pb : Pattern) : Nat :=
  twiceAtanhHi bits (significand pb - 2 ^ leadingBit pb) (significand pb + 2 ^ leadingBit pb)

/-- A lower bound of -ln p = d ln 2 - ln y. -/
def negLnLo (bits : Nat) (pb : Pattern) : Nat :=
  negExponent pb * ln2Lo bits - lnSignificandHi bits pb

/-- An upper bound of -ln p. -/
def negLnHi (bits : Nat) (pb : Pattern) : Nat :=
  negExponent pb * ln2Hi bits - lnSignificandLo bits pb

/-! ### The derivation -/

/-- `max(1, ceil)` of the lower bound of m_real = -n ln(p) / (ln 2)^2 (R153). -/
def slotCountLo (bits n : Nat) (pb : Pattern) : Nat :=
  max 1 (ceilDiv (n * negLnLo bits pb * 2 ^ bits) (ln2Hi bits ^ 2))

/-- `max(1, ceil)` of the upper bound of m_real. -/
def slotCountHi (bits n : Nat) (pb : Pattern) : Nat :=
  max 1 (ceilDiv (n * negLnHi bits pb * 2 ^ bits) (ln2Lo bits ^ 2))

/-- The two bounds of m_real give the same slot count, so m is decided. -/
def slotCountDecided (bits n : Nat) (pb : Pattern) : Bool :=
  slotCountLo bits n pb == slotCountHi bits n pb

/-- The slot count that the first deciding number of bits among bits, 2 bits, 4 bits, ... gives; none when no number of
bits decides. That last case is the one of an m_real that is itself an integer (Laws/Derivation.lean,
`slotCountRefined_eq_none`). -/
def slotCountRefined (n : Nat) (pb : Pattern) (bits : Nat) : Option Nat :=
  if slotCountDecided bits n pb then some (slotCountLo bits n pb) else slotCountRefined n pb (2 * bits)
partial_fixpoint

/-- m = max(1, ceil(m_real)) (R153), exactly, for every valid input (Laws/Derivation.lean, `slotCount_exact`), and within the
bounds of R155 (`slotCount_linear`, `slotCount_le`, `slotCount_lt`). Where no
number of bits decides, m_real is an integer, and the first enclosure's lower bound rounds up to it. -/
def slotCount (n : Nat) (pb : Pattern) : Nat :=
  if slotCountDecided enclosureBits n pb then slotCountLo enclosureBits n pb
  else (slotCountRefined n pb (2 * enclosureBits)).getD (slotCountLo enclosureBits n pb)

/-- k = max(1, ceil(k_real)) with k_real = (m/n) ln 2, from the integer m (R153). The lower bound of ln 2 decides it:
no fraction with a denominator below 2^46 lies between the two bounds of ln 2 (Laws/Derivation.lean). -/
def hashCount (n m : Nat) : Nat :=
  max 1 (ceilDiv (m * ln2Lo enclosureBits) (n * 2 ^ enclosureBits))

/-- `derive(n, p)` (R153), with the bounds of R155 on both results (`slotCount_linear`, `slotCount_le`, `slotCount_lt`,
`hashCount_le`). -/
def derive (n : Word) (pb : Pattern) : Nat × Nat :=
  (slotCount n.toNat pb, hashCount n.toNat (slotCount n.toNat pb))

end Sys2Proof.Machine
end

