-- ==== Sys2Proof/Machine/Configure.lean ====
section
/-! DEFINITION. CONFIGURE (spec rules R156 to R158). -/

namespace Sys2Proof.Machine

/-- The derived instance does not fit: m > M_MAX or k > K_MAX, on the full values (R157). -/
def overCapacity (c : Config) (mk : Nat × Nat) : Bool :=
  decide (c.mMax < mk.1) || decide (c.kMax < mk.2)

/-- The error conditions of CONFIGURE, in order (R156, R282). It needs no instance. -/
def configureChecks (c : Config) (s : State) : List (Bool × ErrCode) :=
  [(!validInputs s.n (stagedPattern s), .invalidParameter),
   (overCapacity c (derive s.n (stagedPattern s)), .capacity)]

/-- The new instance of (m, k): every counter 0, the staged parameters copied, the debug counters cleared (R156). -/
def newInstance (s : State) (mk : Nat × Nat) : State :=
  { s with
    cram := memClear
    m := BitVec.ofNat 32 mk.1
    k := BitVec.ofNat 32 mk.2
    cfgN := s.n
    cfgPLo := s.pLo
    cfgPHi := s.pHi
    status := { s.status with configured := true }
    satCnt := 0
    floorCnt := 0 }

/-- CONFIGURE (R156). -/
def configureAt (c : Config) (s : State) : Result :=
  afterChecks (configureChecks c s) s
    (.next (complete (newInstance s (derive s.n (stagedPattern s))) 0 0 0))

/-- The meaning of CONFIGURE on the hardware at hand. -/
def execConfigure (s : State) : Result :=
  configureAt Config.impl s

end Sys2Proof.Machine
end

