-- ==== Sys2Proof/Machine/CounterArray.lean ====
section
/-! DEFINITION. The packed_counter_array block and its commands READ_SLOT, INC_SLOT, DEC_SLOT and READ_BYTE
(spec rules R67, R180 to R189). -/

namespace Sys2Proof.Machine

/-! ### The primitives -/

/-- The bit offset of slot i in its byte: `4 * (i mod 2)` (R67, R181). -/
def nibbleOffset (i : Nat) : Nat :=
  4 * (i % 2)

/-- `ctr(i)`: the counter of slot i (R181). -/
def counter (s : State) (i : Nat) : Nibble :=
  ((memRead s.cram (i / 2) >>> nibbleOffset i) &&& 0x0F#8).setWidth 4

/-- The byte `b` with the nibble of slot i replaced: `(b & ~(0xF << s) & 0xFF) | (v << s)` (R182). -/
def withNibble (b : Byte) (i : Nat) (v : Nibble) : Byte :=
  (b &&& ~~~(0x0F#8 <<< nibbleOffset i)) ||| (v.setWidth 8 <<< nibbleOffset i)

/-- `setctr(i, v)`: replaces only the nibble of slot i, one read and one write of the same byte (R69, R182). -/
def setCounter (s : State) (i : Nat) (v : Nibble) : State :=
  { s with cram := memWrite s.cram (i / 2) (withNibble (memRead s.cram (i / 2)) i v) }

/-- `inc(i)`: the saturating increment, with the number of saturation events (R183). -/
def increment (s : State) (i : Nat) : State × Nat :=
  if counter s i < 15#4 then (setCounter s i (counter s i + 1#4), 0)
  else (setCounter s i 15#4, 1)

/-- `dec(i, pol)`: the floored decrement, with the number of floor events; `pol` is `CTRL.DEC_FLOOR0` (R184). -/
def decrement (s : State) (pol : Bool) (i : Nat) : State × Nat :=
  if pol then
    if 0#4 < counter s i then (setCounter s i (counter s i - 1#4), 0)
    else (setCounter s i 0#4, 1)
  else
    if 1#4 < counter s i then (setCounter s i (counter s i - 1#4), 0)
    else (setCounter s i 1#4, 1)

/-! ### The commands -/

/-- The error conditions of READ_SLOT, in order (R186, R282). -/
def readSlotChecks (s : State) : List (Bool × ErrCode) :=
  [(!s.status.configured, .notConfigured),
   (decide (s.m.toNat ≤ argument s), .indexRange)]

/-- READ_SLOT (R186). -/
def readSlotAt (c : Config) (s : State) : Result :=
  afterChecks (readSlotChecks s) s <| onSlots c s <|
    .next (complete s (counter s (argument s)).toNat 0 0)

/-- The meaning of READ_SLOT on the hardware at hand. -/
def execReadSlot (s : State) : Result :=
  readSlotAt Config.impl s

/-- The error conditions of INC_SLOT, in order (R187, R282). -/
def incSlotChecks (s : State) : List (Bool × ErrCode) :=
  [(!s.ctrl.diagEn, .diagDisabled),
   (!s.status.configured, .notConfigured),
   (decide (s.m.toNat ≤ argument s), .indexRange)]

/-- INC_SLOT (R187): the result is the counter after the increment. -/
def incSlotAt (c : Config) (s : State) : Result :=
  afterChecks (incSlotChecks s) s <| onSlots c s <|
    let (s', e) := increment s (argument s)
    .next (complete s' (counter s' (argument s)).toNat e 0)

/-- The meaning of INC_SLOT on the hardware at hand. -/
def execIncSlot (s : State) : Result :=
  incSlotAt Config.impl s

/-- The error conditions of DEC_SLOT, in order (R188, R282). -/
def decSlotChecks (s : State) : List (Bool × ErrCode) :=
  [(!s.ctrl.diagEn, .diagDisabled),
   (!s.status.configured, .notConfigured),
   (decide (s.m.toNat ≤ argument s), .indexRange)]

/-- DEC_SLOT (R188): the result is the counter after the decrement. -/
def decSlotAt (c : Config) (s : State) : Result :=
  afterChecks (decSlotChecks s) s <| onSlots c s <|
    let (s', e) := decrement s s.ctrl.decFloor0 (argument s)
    .next (complete s' (counter s' (argument s)).toNat 0 e)

/-- The meaning of DEC_SLOT on the hardware at hand. -/
def execDecSlot (s : State) : Result :=
  decSlotAt Config.impl s

/-- The error conditions of READ_BYTE, in order (R189, R282). -/
def readByteChecks (s : State) : List (Bool × ErrCode) :=
  [(!s.status.configured, .notConfigured),
   (decide (ceilDiv s.m.toNat 2 ≤ argument s), .indexRange)]

/-- READ_BYTE (R189). -/
def readByteAt (c : Config) (s : State) : Result :=
  afterChecks (readByteChecks s) s <| onSlots c s <|
    .next (complete s (memRead s.cram (argument s)).toNat 0 0)

/-- The meaning of READ_BYTE on the hardware at hand. -/
def execReadByte (s : State) : Result :=
  readByteAt Config.impl s

end Sys2Proof.Machine
end

