-- ==== Sys2Proof/Machine/SlotMapper.lean ====
section
/-! DEFINITION. The hash_to_index_mapper block and its commands HASH_SLOT and MAP (spec rules R220 to R226). -/

namespace Sys2Proof.Machine

/-! ### The slot function -/

/-- `slot(x, j) = DIGEST_FN(x ++ SEED_ENC(j)) mod M`: the key first, then the seed (R222, R223). -/
def slotOf (c : Config) (s : State) (x : List Byte) (j : Nat) : Nat :=
  c.digestFn (x ++ c.seedEnc j) % s.m.toNat

/-- `slots(x) = [slot(x, 1), ..., slot(x, K)]`: K entries in seed order, duplicates kept (R224). -/
def slotsOf (c : Config) (s : State) (x : List Byte) : List Nat :=
  (List.range s.k.toNat).map fun j => slotOf c s x (j + 1)

/-! ### The commands -/

/-- The error conditions of HASH_SLOT, in order (R225, R282). -/
def hashSlotChecks (c : Config) (s : State) : List (Bool × ErrCode) :=
  [(!s.status.configured, .notConfigured),
   (decide (c.keyMax < s.keyLen.toNat), .keyLength),
   (decide (argument s < 1) || decide (s.k.toNat < argument s), .indexRange)]

/-- HASH_SLOT (R225). -/
def hashSlotAt (c : Config) (s : State) : Result :=
  afterChecks (hashSlotChecks c s) s <| onInstance c s <| onKey s fun x =>
    .next (complete s (slotOf c s x (argument s)) 0 0)

/-- The meaning of HASH_SLOT on the hardware at hand. -/
def execHashSlot (s : State) : Result :=
  hashSlotAt Config.impl s

/-- The error conditions of MAP (R226, R282). -/
def mapChecks (s : State) : List (Bool × ErrCode) :=
  [(!s.status.configured, .notConfigured)]

/-- MAP (R226): the whole DW-bit digest is reduced. -/
def mapAt (c : Config) (s : State) : Result :=
  afterChecks (mapChecks s) s <| onSlots c s <| onDigest c s fun d =>
    .next (complete s (d % s.m.toNat) 0 0)

/-- The meaning of MAP on the hardware at hand. -/
def execMap (s : State) : Result :=
  mapAt Config.impl s

end Sys2Proof.Machine
end

