-- ==== Sys2Proof/Machine/FilterOps.lean ====
section
/-! DEFINITION. INSERT, DELETE and LOOKUP (spec rules R250 to R253). -/

namespace Sys2Proof.Machine

/-! ### The update loops and the lookup value -/

/-- The loop of INSERT: `inc` of each entry in seed order, with the sum of the saturation events (R130, R185, R251). -/
def incrementAll (s : State) : List Nat → State × Nat
  | [] => (s, 0)
  | i :: rest =>
    let (s₁, e) := increment s i
    let (s₂, es) := incrementAll s₁ rest
    (s₂, e + es)

/-- The loop of DELETE: `dec` of each entry in seed order, with the sum of the floor events (R130, R185, R252). -/
def decrementAll (s : State) (pol : Bool) : List Nat → State × Nat
  | [] => (s, 0)
  | i :: rest =>
    let (s₁, e) := decrement s pol i
    let (s₂, es) := decrementAll s₁ pol rest
    (s₂, e + es)

/-- `min` of a non-empty list: its least element (R11). -/
def leastOf : List Nat → Nat
  | [] => 0
  | [a] => a
  | a :: b :: rest => min a (leastOf (b :: rest))

/-- `lv(S)`: 0 as soon as a counter reads 0, else the least of the counters (R250). -/
def lookupValue (s : State) (S : List Nat) : Nat :=
  if S.any fun i => counter s i == 0#4 then 0
  else leastOf (S.map fun i => (counter s i).toNat)

/-! ### The commands -/

/-- The error conditions of INSERT, in order (R251, R282). -/
def insertChecks (c : Config) (s : State) : List (Bool × ErrCode) :=
  [(!s.status.configured, .notConfigured),
   (decide (c.keyMax < s.keyLen.toNat), .keyLength)]

/-- INSERT (R251). -/
def insertAt (c : Config) (s : State) : Result :=
  afterChecks (insertChecks c s) s <| onInstance c s <| onKey s fun x =>
    let (s', sat) := incrementAll s (slotsOf c s x)
    .next (complete s' 0 sat 0)

/-- The meaning of INSERT on the hardware at hand. -/
def execInsert (s : State) : Result :=
  insertAt Config.impl s

/-- The error conditions of DELETE, in order (R252, R282). -/
def deleteChecks (c : Config) (s : State) : List (Bool × ErrCode) :=
  [(!s.status.configured, .notConfigured),
   (decide (c.keyMax < s.keyLen.toNat), .keyLength)]

/-- DELETE (R252): no counter changes when the lookup value is 0. -/
def deleteAt (c : Config) (s : State) : Result :=
  afterChecks (deleteChecks c s) s <| onInstance c s <| onKey s fun x =>
    if lookupValue s (slotsOf c s x) = 0 then .next (complete s 0 0 0)
    else
      let (s', fl) := decrementAll s s.ctrl.decFloor0 (slotsOf c s x)
      .next (complete s' 1 0 fl)

/-- The meaning of DELETE on the hardware at hand. -/
def execDelete (s : State) : Result :=
  deleteAt Config.impl s

/-- The error conditions of LOOKUP, in order (R253, R282). -/
def lookupChecks (c : Config) (s : State) : List (Bool × ErrCode) :=
  [(!s.status.configured, .notConfigured),
   (decide (c.keyMax < s.keyLen.toNat), .keyLength)]

/-- LOOKUP (R253). -/
def lookupCommandAt (c : Config) (s : State) : Result :=
  afterChecks (lookupChecks c s) s <| onInstance c s <| onKey s fun x =>
    .next (complete s (lookupValue s (slotsOf c s x)) 0 0)

/-- The meaning of LOOKUP on the hardware at hand. -/
def execLookup (s : State) : Result :=
  lookupCommandAt Config.impl s

end Sys2Proof.Machine
end

