-- ==== Sys2Proof/Machine/Sequencer.lean ====
section
/-! DEFINITION. NOP (spec rule R133). -/

namespace Sys2Proof.Machine

/-- NOP: `complete(0, 0, 0)` (R133). -/
def nopAt (_c : Config) (s : State) : Result :=
  .next (complete s 0 0 0)

/-- The meaning of NOP on the hardware at hand. -/
def execNop (s : State) : Result :=
  nopAt Config.impl s

end Sys2Proof.Machine
end

