-- ==== Sys2Proof/Machine/Dispatch.lean ====
section
/-! DEFINITION. One arm per command: the opcode map's column "rule" (spec rule R94). -/

namespace Sys2Proof.Machine

/-- A command run on the state, by the rule R94 names for it (R128). -/
def exec (i : Instr) (s : State) : Host.Outcome State Fault Refusal :=
  match i with
  | .nop => Sys2Proof.Machine.execNop s
  | .configure => Sys2Proof.Machine.execConfigure s
  | .readSlot => Sys2Proof.Machine.execReadSlot s
  | .incSlot => Sys2Proof.Machine.execIncSlot s
  | .decSlot => Sys2Proof.Machine.execDecSlot s
  | .readByte => Sys2Proof.Machine.execReadByte s
  | .hashSlot => Sys2Proof.Machine.execHashSlot s
  | .map => Sys2Proof.Machine.execMap s
  | .insert => Sys2Proof.Machine.execInsert s
  | .delete => Sys2Proof.Machine.execDelete s
  | .lookup => Sys2Proof.Machine.execLookup s

end Sys2Proof.Machine
end

