-- ==== Sys2Proof/Machine/Step.lean ====
section
/-! DEFINITION. The step of the machine on the hardware at hand (spec rules R16, R127, R320), and the word it runs next. -/

namespace Sys2Proof.Machine

/-- One step: the oldest event of the host's script is performed; with no event nothing changes. -/
def step (s : State) : Host.Outcome State Fault Refusal :=
  stepWith Config.impl exec s

/-- `s` with a `CMD` write of the table word in front of the host's script: the very next step runs it.
The core fetches nothing (R20); the word is the write's own data (R78). -/
def State.withFetchWord (s : State) (nbits w : Nat) : State :=
  { s with script := .request (commandWrite (wordOfTableBits nbits w)) :: s.script }

end Sys2Proof.Machine
end

