-- ==== Sys2Proof/Machine/Script.lean ====
section
/-! DEFINITION. The host script notation: its statements and pseudo-instructions as the transactions they expand to
(spec rules R97 to R99). -/

namespace Sys2Proof.Machine

/-- `WR <reg>, <value>`: one legal write of the value at the register's offset (R97). -/
def wr (a : Offset) (v : Word) : List PortEvent :=
  [.request { dir := .write, addr := a, size := .word, wdata := v }]

/-- `RD <reg>`: one legal read (R97). -/
def rd (a : Offset) : List PortEvent :=
  [.request { dir := .read, addr := a, size := .word, wdata := 0 }]

/-- `<mnemonic>`: `WR CMD` of the command's word (R97). -/
def command (i : Instr) : List PortEvent :=
  [.request (commandWrite (encode i))]

/-- The offset of `KEY[w]` (R40). -/
def keyOffset (w : Nat) : Offset :=
  BitVec.ofNat 11 (0x400 + 4 * w)

/-- The offset of `DIGEST[w]` (R39). -/
def digestOffset (w : Nat) : Offset :=
  BitVec.ofNat 11 (0x080 + 4 * w)

/-- Word w of a key: byte b of the key in bits [8(b mod 4)+7 : 8(b mod 4)], bytes past the end 0 (R64, R98). -/
def packedKeyWord (x : List Byte) (w : Nat) : Word :=
  x.getD (4 * w + 3) 0 ++ x.getD (4 * w + 2) 0 ++ x.getD (4 * w + 1) 0 ++ x.getD (4 * w) 0

/-- `SETKEY`: the KEY words of the key, then its length (R98). -/
def setKey (x : List Byte) : List PortEvent :=
  (List.range (ceilDiv x.length 4)).flatMap (fun w => wr (keyOffset w) (packedKeyWord x w)) ++
    wr 0x044#11 (BitVec.ofNat 32 x.length)

/-- `SETP <hex64>`: the low word to `P_LO`, then the high word to `P_HI` (R98). -/
def setP (p : Pattern) : List PortEvent :=
  wr 0x028#11 (p.extractLsb' 0 32) ++ wr 0x02C#11 (p.extractLsb' 32 32)

/-- `NEW <n>, <hex64>` (R98). -/
def newFilter (n : Word) (p : Pattern) : List PortEvent :=
  wr 0x024#11 n ++ setP p ++ command .configure

/-- `<SLOTOP> <i>`: `ARG0`, then the command (R98). -/
def slotOp (i : Instr) (arg : Word) : List PortEvent :=
  wr 0x01C#11 arg ++ command i

/-- `SETDIGEST <hex>`: the DW/32 words of the digest, least significant first (R98). -/
def setDigest (c : Config) (d : Nat) : List PortEvent :=
  (List.range c.digestWords).flatMap fun w => wr (digestOffset w) (BitVec.ofNat 32 (d / 2 ^ (32 * w)))

/-- `REPEAT <c> ...`: c copies of the statements, in order (R98). -/
def repeated : Nat → List PortEvent → List PortEvent
  | 0, _ => []
  | n + 1, body => body ++ repeated n body

end Sys2Proof.Machine
end

