-- ==== Sys2Proof/Safety.lean ====
section
/-! DEFINITION. The terms claims use: the state of a failed command, the states of rule R49, what the next step runs, and
conditions on every step of a run. -/

namespace Sys2Proof.Machine

/-! ### States -/

/-- The state a command error leaves: three fields of `STATUS` and nothing else (R283). -/
def failed (s : State) (e : ErrCode) : State :=
  { s with status := { configured := s.status.configured, err := e, sat := false, floor := false } }

/-- There is an instance, and its slot count is of the range R33 and R49 state: all a command without the operand K needs. -/
abbrev HoldsSlots (s : State) : Prop :=
  s.status.configured = true ∧ 1 ≤ s.m.toNat ∧ s.m.toNat ≤ Config.impl.mMax

/-- There is an instance, of the ranges R33, R34 and R49 state. -/
abbrev HoldsInstance (s : State) : Prop :=
  s.status.configured = true ∧ 1 ≤ s.m.toNat ∧ s.m.toNat ≤ Config.impl.mMax ∧ 1 ≤ s.k.toNat ∧ s.k.toNat ≤ Config.impl.kMax

/-- The key is legal and every KEY word it stands in has been written (R36, R134, R222). -/
abbrev KeyIsWritten (s : State) : Prop :=
  s.keyLen.toNat ≤ Config.impl.keyMax ∧ ∀ w, 4 * w < s.keyLen.toNat → lookupAt s.key w ≠ none

/-- Every DIGEST word inside capacity has been written (R134, R226). -/
abbrev DigestIsWritten (s : State) : Prop :=
  ∀ w < Config.impl.digestWords, lookupAt s.digest w ≠ none

/-- What R49 says of every reachable state, with the canonical form of the model's data and the pad nibble of R44. -/
structure Invariant (c : Config) (s : State) : Prop where
  /-- CONFIGURED = 0 implies M = K = CFG_N = CFG_P_LO = CFG_P_HI = 0 (R49). -/
  noInstance : s.status.configured = false → s.m = 0 ∧ s.k = 0 ∧ s.cfgN = 0 ∧ s.cfgPLo = 0 ∧ s.cfgPHi = 0
  /-- CONFIGURED = 1 implies 1 <= M <= M_MAX and 1 <= K <= K_MAX (R49). -/
  inRange : s.status.configured = true →
    1 ≤ s.m.toNat ∧ s.m.toNat ≤ c.mMax ∧ 1 ≤ s.k.toNat ∧ s.k.toNat ≤ c.kMax
  /-- CONFIGURED = 1 implies CFG_N >= 1 and CFG_P a binary64 value in (0, 1) (R49). -/
  validParameters : s.status.configured = true → validInputs s.cfgN (instancePattern s) = true
  /-- M and K are the derivation applied to (CFG_N, CFG_P) (R49). -/
  derived : s.status.configured = true → derive s.cfgN (instancePattern s) = (s.m.toNat, s.k.toNat)
  /-- SAT = 1 or FLOOR = 1 implies ERR = 0 (R49). -/
  events : s.status.sat = true ∨ s.status.floor = true → s.status.err = .noError
  /-- The counter RAM is in canonical form. -/
  cramCanonical : memWf s.cram = true
  /-- With an instance, every byte of the counter RAM from ceil(M/2) on is 0 (R44, R60). -/
  cramWithin : s.status.configured = true → ∀ j, ceilDiv s.m.toNat 2 ≤ j → memRead s.cram j = 0x00#8
  /-- With an instance of an odd M, the pad nibble, the high nibble of byte (M-1)/2, is 0 (R44). -/
  padClear : s.status.configured = true → s.m.toNat % 2 = 1 → memRead s.cram ((s.m.toNat - 1) / 2) >>> 4 = 0x00#8
  /-- The written KEY words rise and are inside capacity (R40). -/
  keyCanonical : tableRises s.key = true ∧ ∀ p ∈ s.key, p.1 < c.keyWords
  /-- The written DIGEST words rise and are inside capacity (R39). -/
  digestCanonical : tableRises s.digest = true ∧ ∀ p ∈ s.digest, p.1 < c.digestWords

/-! ### Steps and runs -/

/-- The transaction the next step performs, if it performs one. -/
def nextRequest (s : State) : Option Transaction :=
  match s.script with
  | .request t :: _ => some t
  | _ => none

/-- The next step is a reset. -/
def nextIsReset (s : State) : Bool :=
  match s.script with
  | .reset _ :: _ => true
  | _ => false

/-- The next step is a legal write to `CMD` (R128). -/
def nextWritesCmd (s : State) : Bool :=
  match nextRequest s with
  | some t => isLegal t && t.dir == .write && t.addr == cmdOffset
  | none => false

/-- The command the next step runs, if it runs one. -/
def nextCommand (s : State) : Option Instr :=
  match nextRequest s with
  | some t =>
    if isLegal t && t.dir == .write && t.addr == cmdOffset then
      match decode t.wdata with
      | .ok i => some i
      | .error _ => none
    else none
  | none => none

/-- `P` holds of the state before each of the first `k` steps from `s` (of those that are reached). -/
def alongRun (P : State → Prop) : Nat → State → Prop
  | 0, _ => True
  | k + 1, s => P s ∧ match step s with
    | .next s' => alongRun P k s'
    | _ => True

/-- How many of the first `k` steps from `s` run INSERT of the key `x`. -/
def insertsOf (x : List Byte) : Nat → State → Nat
  | 0, _ => 0
  | k + 1, s => (if nextCommand s = some .insert ∧ keyBytes s = x then 1 else 0) + match step s with
    | .next s' => insertsOf x k s'
    | _ => 0

/-- The next step lowers no counter and keeps the instance: no reset, and none of the commands
CONFIGURE, DELETE, INC_SLOT and DEC_SLOT (the sequences of R254 laws 2 and 3). -/
def OnlyInserts (s : State) : Prop :=
  nextIsReset s = false ∧ nextCommand s ≠ some .configure ∧ nextCommand s ≠ some .delete ∧
    nextCommand s ≠ some .incSlot ∧ nextCommand s ≠ some .decSlot

/-- The next step keeps the instance, and decrements, if it does, under the floor at 1
(the sequences of R254 laws 1 and 7). -/
def FloorsAtOne (s : State) : Prop :=
  nextIsReset s = false ∧ nextCommand s ≠ some .configure ∧
    (nextCommand s = some .delete ∨ nextCommand s = some .decSlot → s.ctrl.decFloor0 = false)

end Sys2Proof.Machine
end

