-- ==== Sys2Proof/Certificates/Slice0/Obligations.lean ====
section
/-! DEFINITION. The statements for the provers. `Config.impl` is any configuration R7 allows, so each statement is about
every configuration. Each docstring names the rule of spec/ it formalises. -/

open Sys2Proof Sys2Proof.Machine

/-! ### Decoding -/

/-- R94, R96: a word of each family, and illegal words, read by the decoder. -/
def Obligations.DecodesSampleWords : Prop :=
  decode 0x00000000#32 = .ok .nop ∧ decode 0x00000001#32 = .ok .configure ∧ decode 0x00000002#32 = .ok .readSlot ∧
  decode 0x00000005#32 = .ok .readByte ∧ decode 0x00000006#32 = .ok .hashSlot ∧ decode 0x00000009#32 = .ok .delete ∧
  decode 0x0000000B#32 = .error .undefinedOpcode ∧ decode 0x00000100#32 = .error .reservedBitsSet

/-- R96: decoding is total; a word decodes to a command exactly when it is that command's word, and is ILLEGAL exactly
when a reserved bit is set or OP is above 0x0A. -/
def Obligations.DecodeIsTheOpcodeMap : Prop :=
  ∀ w : Word,
    (decode w = .ok .nop ↔ w = 0x00000000#32) ∧ (decode w = .ok .configure ↔ w = 0x00000001#32) ∧
    (decode w = .ok .readSlot ↔ w = 0x00000002#32) ∧ (decode w = .ok .incSlot ↔ w = 0x00000003#32) ∧
    (decode w = .ok .decSlot ↔ w = 0x00000004#32) ∧ (decode w = .ok .readByte ↔ w = 0x00000005#32) ∧
    (decode w = .ok .hashSlot ↔ w = 0x00000006#32) ∧ (decode w = .ok .map ↔ w = 0x00000007#32) ∧
    (decode w = .ok .insert ↔ w = 0x00000008#32) ∧ (decode w = .ok .delete ↔ w = 0x00000009#32) ∧
    (decode w = .ok .lookup ↔ w = 0x0000000A#32) ∧
    ((∃ e, decode w = .error e) ↔ w.toNat / 256 ≠ 0 ∨ 0x0A < w.toNat % 256)

/-- R94, R95: decoding an encoded command gives it back, and the well-formed words are exactly the encoded commands. -/
def Obligations.EncodeDecodeRoundTrip : Prop :=
  (∀ i : Instr, decode (encode i) = .ok i ∧ wordWellFormed (encode i) = true) ∧
  ∀ w : Word, wordWellFormed w = true → ∃ i : Instr, encode i = w

/-! ### Steps of the host port -/

/-- R127, R128: a step whose next event is a `CMD` write of a word that decodes to `i` is `exec i` on the state with the
event taken off, and then the response (error 0, rdata 0). -/
def Obligations.StepRunsDecodedCommand : Prop :=
  ∀ (s : State) (rest : List PortEvent) (w : Word) (i : Instr),
    s.script = .request { dir := .write, addr := 0x018#11, size := .word, wdata := w } :: rest → decode w = .ok i →
    step s = match exec i { s with script := rest } with
      | .next t => .next { t with responses := t.responses ++ [{ error := false, rdata := 0 }] }
      | .fault f => .fault f
      | .refused r => .refused r

/-- R16: with no event of the host, a step changes nothing. -/
def Obligations.IdleStepChangesNothing : Prop :=
  ∀ s : State, s.script = [] → step s = .next s

/-- R281: an illegal word fails with ILLEGAL_COMMAND before any other check, and does nothing else; the `CMD` write itself
is answered with error 0. -/
def Obligations.IllegalWordFails : Prop :=
  ∀ (s : State) (rest : List PortEvent) (w : Word),
    s.script = .request { dir := .write, addr := 0x018#11, size := .word, wdata := w } :: rest →
    (w.toNat / 256 ≠ 0 ∨ 0x0A < w.toNat % 256) →
    step s = .next { failed s .illegalCommand with
      script := rest, responses := s.responses ++ [{ error := false, rdata := 0 }] }

/-- R124: a transaction of a size other than 4 bytes, or of an offset that is not a multiple of 4, is answered with
(error 1, rdata 0) and changes no state; no other transaction is answered with error 1. -/
def Obligations.BusErrorChangesNothing : Prop :=
  ∀ (s : State) (rest : List PortEvent) (x : Transaction), s.script = .request x :: rest →
    ((x.size ≠ .word ∨ x.addr.toNat % 4 ≠ 0) →
      step s = .next { s with script := rest, responses := s.responses ++ [{ error := true, rdata := 0 }] }) ∧
    (x.size = .word → x.addr.toNat % 4 = 0 →
      ∀ t, step s = .next t → ∃ v, t.responses = s.responses ++ [{ error := false, rdata := v }])

/-- R123: what a legal read of each offset returns, and that it changes no state; a read of an unwritten KEY or DIGEST
word inside capacity faults. -/
def Obligations.LegalReadReturnsTheRegister : Prop :=
  ∀ (s : State) (rest : List PortEvent) (x : Transaction),
    s.script = .request x :: rest → x.dir = .read → x.size = .word →
    let reads (v : Word) : Prop :=
      step s = .next { s with script := rest, responses := s.responses ++ [{ error := false, rdata := v }] }
    (x.addr = 0x000#11 → reads 0x43424631#32) ∧
    (x.addr = 0x004#11 → reads (BitVec.ofNat 32 Config.impl.mMax)) ∧
    (x.addr = 0x008#11 → reads (BitVec.ofNat 32 (Config.impl.keyMax * 2 ^ 16 + Config.impl.kMax))) ∧
    (x.addr = 0x00C#11 → reads (BitVec.ofNat 32 Config.impl.dw)) ∧
    (x.addr = 0x010#11 → reads (BitVec.ofNat 32 (s.ctrl.diagEn.toNat + 2 * s.ctrl.decFloor0.toNat))) ∧
    (x.addr = 0x014#11 → reads (BitVec.ofNat 32 (s.status.configured.toNat + 16 * (errBits s.status.err).toNat +
      256 * s.status.sat.toNat + 512 * s.status.floor.toNat))) ∧
    (x.addr = 0x018#11 → reads 0) ∧ (x.addr = 0x01C#11 → reads s.arg0) ∧ (x.addr = 0x020#11 → reads s.result) ∧
    (x.addr = 0x024#11 → reads s.n) ∧ (x.addr = 0x028#11 → reads s.pLo) ∧ (x.addr = 0x02C#11 → reads s.pHi) ∧
    (x.addr = 0x030#11 → reads s.m) ∧ (x.addr = 0x034#11 → reads s.k) ∧ (x.addr = 0x038#11 → reads s.cfgN) ∧
    (x.addr = 0x03C#11 → reads s.cfgPLo) ∧ (x.addr = 0x040#11 → reads s.cfgPHi) ∧
    (x.addr = 0x044#11 → reads s.keyLen) ∧ (x.addr = 0x048#11 → reads s.satCnt) ∧
    (x.addr = 0x04C#11 → reads s.floorCnt) ∧
    (x.addr.toNat % 4 = 0 → 0x050 ≤ x.addr.toNat → x.addr.toNat < 0x080 → reads 0) ∧
    (x.addr.toNat % 4 = 0 → 0x100 ≤ x.addr.toNat → x.addr.toNat < 0x400 → reads 0) ∧
    (∀ w < 32, x.addr.toNat = 0x080 + 4 * w →
      if w < Config.impl.digestWords then
        (∀ v, lookupAt s.digest w = some v → reads v) ∧
        (lookupAt s.digest w = none → step s = .fault (.readUnwrittenDigest w))
      else reads 0) ∧
    (∀ w < 256, x.addr.toNat = 0x400 + 4 * w →
      if w < Config.impl.keyWords then
        (∀ v, lookupAt s.key w = some v → reads v) ∧
        (lookupAt s.key w = none → step s = .fault (.readUnwrittenKey w))
      else reads 0)

/-- R125: what a legal write to each offset does: the RW registers and the words inside capacity take the value, CTRL
drops the reserved bits, `CMD` runs the command, and everything else is unchanged; the response is (error 0, rdata 0). -/
def Obligations.LegalWriteHasItsEffect : Prop :=
  ∀ (s : State) (rest : List PortEvent) (x : Transaction),
    s.script = .request x :: rest → x.dir = .write → x.size = .word → x.addr.toNat % 4 = 0 →
    let answered (t : State) : Prop :=
      step s = .next { t with script := rest, responses := s.responses ++ [{ error := false, rdata := 0 }] }
    (x.addr = 0x010#11 →
      answered { s with ctrl := { diagEn := x.wdata.getLsbD 0, decFloor0 := x.wdata.getLsbD 1 } }) ∧
    (x.addr = 0x01C#11 → answered { s with arg0 := x.wdata }) ∧
    (x.addr = 0x024#11 → answered { s with n := x.wdata }) ∧
    (x.addr = 0x028#11 → answered { s with pLo := x.wdata }) ∧
    (x.addr = 0x02C#11 → answered { s with pHi := x.wdata }) ∧
    (x.addr = 0x044#11 → answered { s with keyLen := x.wdata }) ∧
    (∀ w < 32, x.addr.toNat = 0x080 + 4 * w →
      if w < Config.impl.digestWords then
        ∃ d, answered { s with digest := d } ∧ lookupAt d w = some x.wdata ∧
          ∀ v, v ≠ w → lookupAt d v = lookupAt s.digest v
      else answered s) ∧
    (∀ w < 256, x.addr.toNat = 0x400 + 4 * w →
      if w < Config.impl.keyWords then
        ∃ d, answered { s with key := d } ∧ lookupAt d w = some x.wdata ∧
          ∀ v, v ≠ w → lookupAt d v = lookupAt s.key v
      else answered s) ∧
    (x.addr = 0x018#11 →
      match decode x.wdata with
      | .error _ => answered (failed s .illegalCommand)
      | .ok i => step s = match exec i { s with script := rest } with
        | .next t => .next { t with responses := t.responses ++ [{ error := false, rdata := 0 }] }
        | .fault f => .fault f
        | .refused r => .refused r) ∧
    (x.addr.toNat < 0x010 ∨ x.addr = 0x014#11 ∨ x.addr = 0x020#11 ∨ (0x030 ≤ x.addr.toNat ∧ x.addr.toNat < 0x044) ∨
      (0x048 ≤ x.addr.toNat ∧ x.addr.toNat < 0x080) ∨ (0x100 ≤ x.addr.toNat ∧ x.addr.toNat < 0x400) → answered s)

/-! ### Reset -/

/-- R47: the values the spec gives for reset. CRAM, which has none, is left out. -/
def Obligations.ResetValues : Prop :=
  State.reset.ctrl = { diagEn := false, decFloor0 := false } ∧
  State.reset.status = { configured := false, err := .noError, sat := false, floor := false } ∧
  State.reset.arg0 = 0 ∧ State.reset.result = 0 ∧ State.reset.n = 0 ∧ State.reset.pLo = 0 ∧ State.reset.pHi = 0 ∧
  State.reset.m = 0 ∧ State.reset.k = 0 ∧ State.reset.cfgN = 0 ∧ State.reset.cfgPLo = 0 ∧ State.reset.cfgPHi = 0 ∧
  State.reset.keyLen = 0 ∧ State.reset.satCnt = 0 ∧ State.reset.floorCnt = 0 ∧
  (∀ w, lookupAt State.reset.digest w = none) ∧ ∀ w, lookupAt State.reset.key w = none

/-- R320, R321: reset is one step to the reset values from any state; a transaction it abandons gets no response. That the
host's script and the responses given so far stay is the model's choice (log entry 6). -/
def Obligations.ResetStepGivesResetValues : Prop :=
  ∀ (s : State) (abandoned : Option Transaction) (rest : List PortEvent),
    s.script = .reset abandoned :: rest →
    ∃ mem, step s = .next { State.reset with cram := mem, script := rest, responses := s.responses }

/-! ### The commands -/

/-- R133: NOP needs nothing, clears ERR, SAT and FLOOR, sets RESULT to 0, and changes nothing else. -/
def Obligations.NopFollowsItsRule : Prop :=
  decode 0x00000000#32 = .ok .nop ∧ ∀ s : State, exec .nop s = .next { s with
    status := { configured := s.status.configured, err := .noError, sat := false, floor := false }, result := 0 }

/-- R156, R157, R158: CONFIGURE. Invalid inputs fail first, then an instance over capacity; either failure keeps the old
instance. Otherwise it makes the instance of (m, k), with every counter byte 0. (m, k) is the model's `derive`, which
DerivationIsExactRealArithmetic says is the one of R153. -/
def Obligations.ConfigureFollowsItsRule : Prop :=
  decode 0x00000001#32 = .ok .configure ∧ ∀ s : State,
    let pb : Pattern := s.pHi ++ s.pLo
    let m := (derive s.n pb).1
    let k := (derive s.n pb).2
    (¬(1 ≤ s.n.toNat ∧ 1 ≤ pb.toNat ∧ pb.toNat ≤ 0x3FEFFFFFFFFFFFFF) →
      exec .configure s = .next (failed s .invalidParameter)) ∧
    (1 ≤ s.n.toNat ∧ 1 ≤ pb.toNat ∧ pb.toNat ≤ 0x3FEFFFFFFFFFFFFF → Config.impl.mMax < m ∨ Config.impl.kMax < k →
      exec .configure s = .next (failed s .capacity)) ∧
    (1 ≤ s.n.toNat ∧ 1 ≤ pb.toNat ∧ pb.toNat ≤ 0x3FEFFFFFFFFFFFFF → m ≤ Config.impl.mMax → k ≤ Config.impl.kMax →
      ∃ t, exec .configure s = .next t ∧ t.m.toNat = m ∧ t.k.toNat = k ∧ (∀ j, memRead t.cram j = 0x00#8) ∧
        t = { s with
          m := t.m, k := t.k, cram := t.cram, cfgN := s.n, cfgPLo := s.pLo, cfgPHi := s.pHi, satCnt := 0, floorCnt := 0,
          result := 0, status := { configured := true, err := .noError, sat := false, floor := false } })

/-- R186: READ_SLOT. -/
def Obligations.ReadSlotFollowsItsRule : Prop :=
  decode 0x00000002#32 = .ok .readSlot ∧ ∀ s : State,
    (s.status.configured = false → exec .readSlot s = .next (failed s .notConfigured)) ∧
    (s.status.configured = true → s.m.toNat ≤ s.arg0.toNat → exec .readSlot s = .next (failed s .indexRange)) ∧
    (HoldsSlots s → s.arg0.toNat < s.m.toNat →
      exec .readSlot s = .next { s with
        result := (counter s s.arg0.toNat).setWidth 32
        status := { configured := true, err := .noError, sat := false, floor := false } })

/-- R187: INC_SLOT: the addressed counter goes up by 1, up to 15, where the event is counted; every other counter and
byte stays. -/
def Obligations.IncSlotFollowsItsRule : Prop :=
  decode 0x00000003#32 = .ok .incSlot ∧ ∀ s : State,
    (s.ctrl.diagEn = false → exec .incSlot s = .next (failed s .diagDisabled)) ∧
    (s.ctrl.diagEn = true → s.status.configured = false → exec .incSlot s = .next (failed s .notConfigured)) ∧
    (s.ctrl.diagEn = true → s.status.configured = true → s.m.toNat ≤ s.arg0.toNat →
      exec .incSlot s = .next (failed s .indexRange)) ∧
    (s.ctrl.diagEn = true → HoldsSlots s → s.arg0.toNat < s.m.toNat →
      let v := (counter s s.arg0.toNat).toNat
      ∃ t, exec .incSlot s = .next t ∧
        (counter t s.arg0.toNat).toNat = min (v + 1) 15 ∧
        (∀ j, j ≠ s.arg0.toNat → counter t j = counter s j) ∧
        (∀ a, a ≠ s.arg0.toNat / 2 → memRead t.cram a = memRead s.cram a) ∧
        t = { s with
          cram := t.cram
          result := BitVec.ofNat 32 (min (v + 1) 15)
          status := { configured := true, err := .noError, sat := decide (v = 15), floor := false }
          satCnt := BitVec.ofNat 32 (min (s.satCnt.toNat + if v = 15 then 1 else 0) 0xFFFFFFFF) })

/-- R188: DEC_SLOT: the addressed counter goes down by 1, to the floor the policy sets, where the event is counted; every
other counter and byte stays. -/
def Obligations.DecSlotFollowsItsRule : Prop :=
  decode 0x00000004#32 = .ok .decSlot ∧ ∀ s : State,
    (s.ctrl.diagEn = false → exec .decSlot s = .next (failed s .diagDisabled)) ∧
    (s.ctrl.diagEn = true → s.status.configured = false → exec .decSlot s = .next (failed s .notConfigured)) ∧
    (s.ctrl.diagEn = true → s.status.configured = true → s.m.toNat ≤ s.arg0.toNat →
      exec .decSlot s = .next (failed s .indexRange)) ∧
    (s.ctrl.diagEn = true → HoldsSlots s → s.arg0.toNat < s.m.toNat →
      let v := (counter s s.arg0.toNat).toNat
      let floor := if s.ctrl.decFloor0 then 0 else 1
      ∃ t, exec .decSlot s = .next t ∧
        (counter t s.arg0.toNat).toNat = max (v - 1) floor ∧
        (∀ j, j ≠ s.arg0.toNat → counter t j = counter s j) ∧
        (∀ a, a ≠ s.arg0.toNat / 2 → memRead t.cram a = memRead s.cram a) ∧
        t = { s with
          cram := t.cram
          result := BitVec.ofNat 32 (max (v - 1) floor)
          status := { configured := true, err := .noError, sat := false, floor := decide (v ≤ floor) }
          floorCnt := BitVec.ofNat 32 (min (s.floorCnt.toNat + if v ≤ floor then 1 else 0) 0xFFFFFFFF) })

/-- R189: READ_BYTE. -/
def Obligations.ReadByteFollowsItsRule : Prop :=
  decode 0x00000005#32 = .ok .readByte ∧ ∀ s : State,
    (s.status.configured = false → exec .readByte s = .next (failed s .notConfigured)) ∧
    (s.status.configured = true → (s.m.toNat + 1) / 2 ≤ s.arg0.toNat →
      exec .readByte s = .next (failed s .indexRange)) ∧
    (HoldsSlots s → s.arg0.toNat < (s.m.toNat + 1) / 2 →
      exec .readByte s = .next { s with
        result := (memRead s.cram s.arg0.toNat).setWidth 32
        status := { configured := true, err := .noError, sat := false, floor := false } })

/-- R225: HASH_SLOT: RESULT is DIGEST_FN(key ++ SEED_ENC(j)) mod M for the seed j = ARG0. -/
def Obligations.HashSlotFollowsItsRule : Prop :=
  decode 0x00000006#32 = .ok .hashSlot ∧ ∀ s : State,
    (s.status.configured = false → exec .hashSlot s = .next (failed s .notConfigured)) ∧
    (s.status.configured = true → Config.impl.keyMax < s.keyLen.toNat →
      exec .hashSlot s = .next (failed s .keyLength)) ∧
    (s.status.configured = true → s.keyLen.toNat ≤ Config.impl.keyMax → s.arg0.toNat < 1 ∨ s.k.toNat < s.arg0.toNat →
      exec .hashSlot s = .next (failed s .indexRange)) ∧
    (HoldsInstance s → KeyIsWritten s → 1 ≤ s.arg0.toNat → s.arg0.toNat ≤ s.k.toNat →
      exec .hashSlot s = .next { s with
        result := BitVec.ofNat 32
          (Config.impl.digestFn (keyBytes s ++ Config.impl.seedEnc s.arg0.toNat) % s.m.toNat)
        status := { configured := true, err := .noError, sat := false, floor := false } })

/-- R226: MAP: RESULT is D mod M for the whole digest D the host wrote; an unwritten word of it faults. -/
def Obligations.MapFollowsItsRule : Prop :=
  decode 0x00000007#32 = .ok .map ∧ ∀ s : State,
    (s.status.configured = false → exec .map s = .next (failed s .notConfigured)) ∧
    (HoldsSlots s → DigestIsWritten s →
      exec .map s = .next { s with
        result := BitVec.ofNat 32
          ((∑ w ∈ Finset.range Config.impl.digestWords, ((lookupAt s.digest w).getD 0).toNat * 2 ^ (32 * w)) % s.m.toNat)
        status := { configured := true, err := .noError, sat := false, floor := false } }) ∧
    (HoldsSlots s → ¬DigestIsWritten s → ∃ w < Config.impl.digestWords,
      lookupAt s.digest w = none ∧ exec .map s = .fault (.consumedUnwrittenDigest w))

/-- R251: INSERT: each counter rises by the number of times its slot stands in the slot list, up to 15; `sat` counts the
increments that met a counter at 15, which are the increments less the total rise. -/
def Obligations.InsertFollowsItsRule : Prop :=
  decode 0x00000008#32 = .ok .insert ∧ ∀ s : State,
    (s.status.configured = false → exec .insert s = .next (failed s .notConfigured)) ∧
    (s.status.configured = true → Config.impl.keyMax < s.keyLen.toNat →
      exec .insert s = .next (failed s .keyLength)) ∧
    (HoldsInstance s → KeyIsWritten s →
      let S := slotsOf Config.impl s (keyBytes s)
      ∃ (t : State) (sat : Nat), exec .insert s = .next t ∧
        (∀ j, (counter t j).toNat = min ((counter s j).toNat + S.count j) 15) ∧
        (∑ j ∈ Finset.range s.m.toNat, (counter t j).toNat) + sat =
          (∑ j ∈ Finset.range s.m.toNat, (counter s j).toNat) + s.k.toNat ∧
        (∀ a, (∀ i ∈ S, i / 2 ≠ a) → memRead t.cram a = memRead s.cram a) ∧
        t = { s with
          cram := t.cram
          result := 0
          status := { configured := true, err := .noError, sat := decide (0 < sat), floor := false }
          satCnt := BitVec.ofNat 32 (min (s.satCnt.toNat + sat) 0xFFFFFFFF) })

/-- R252: DELETE: with a lookup value of 0 nothing is decremented and RESULT is 0; else each counter falls by the number of
times its slot stands in the slot list, down to the floor the policy sets, and RESULT is 1; `fl` counts the decrements
the floor clamped, which are the decrements less the total fall. -/
def Obligations.DeleteFollowsItsRule : Prop :=
  decode 0x00000009#32 = .ok .delete ∧ ∀ s : State,
    let S := slotsOf Config.impl s (keyBytes s)
    (s.status.configured = false → exec .delete s = .next (failed s .notConfigured)) ∧
    (s.status.configured = true → Config.impl.keyMax < s.keyLen.toNat →
      exec .delete s = .next (failed s .keyLength)) ∧
    (HoldsInstance s → KeyIsWritten s → (∃ i ∈ S, counter s i = 0#4) →
      exec .delete s = .next { s with
        result := 0, status := { configured := true, err := .noError, sat := false, floor := false } }) ∧
    (HoldsInstance s → KeyIsWritten s → (∀ i ∈ S, counter s i ≠ 0#4) →
      ∃ (t : State) (fl : Nat), exec .delete s = .next t ∧
        (∀ j, (counter t j).toNat =
          if S.count j = 0 then (counter s j).toNat
          else max ((counter s j).toNat - S.count j) (if s.ctrl.decFloor0 then 0 else 1)) ∧
        (∑ j ∈ Finset.range s.m.toNat, (counter t j).toNat) + s.k.toNat =
          (∑ j ∈ Finset.range s.m.toNat, (counter s j).toNat) + fl ∧
        (∀ a, (∀ i ∈ S, i / 2 ≠ a) → memRead t.cram a = memRead s.cram a) ∧
        t = { s with
          cram := t.cram
          result := 1
          status := { configured := true, err := .noError, sat := false, floor := decide (0 < fl) }
          floorCnt := BitVec.ofNat 32 (min (s.floorCnt.toNat + fl) 0xFFFFFFFF) })

/-- R253: LOOKUP: RESULT is the least counter of the slot list; no counter changes. -/
def Obligations.LookupFollowsItsRule : Prop :=
  decode 0x0000000A#32 = .ok .lookup ∧ ∀ s : State,
    let S := slotsOf Config.impl s (keyBytes s)
    (s.status.configured = false → exec .lookup s = .next (failed s .notConfigured)) ∧
    (s.status.configured = true → Config.impl.keyMax < s.keyLen.toNat →
      exec .lookup s = .next (failed s .keyLength)) ∧
    (HoldsInstance s → KeyIsWritten s →
      ∃ r : Nat, (∃ i ∈ S, (counter s i).toNat = r) ∧ (∀ i ∈ S, r ≤ (counter s i).toNat) ∧
        exec .lookup s = .next { s with
          result := BitVec.ofNat 32 r
          status := { configured := true, err := .noError, sat := false, floor := false } })

/-- R289: the model's faults. A legal read of an unwritten word inside capacity faults; a command that passes every check
and consumes an unwritten word faults. -/
def Obligations.UnwrittenWordsFault : Prop :=
  (∀ (s : State) (rest : List PortEvent) (x : Transaction) (w : Nat),
    s.script = .request x :: rest → x.dir = .read → x.size = .word →
    (x.addr.toNat = 0x400 + 4 * w → w < Config.impl.keyWords → lookupAt s.key w = none →
      step s = .fault (.readUnwrittenKey w)) ∧
    (x.addr.toNat = 0x080 + 4 * w → w < Config.impl.digestWords → lookupAt s.digest w = none →
      step s = .fault (.readUnwrittenDigest w))) ∧
  (∀ (s : State) (w : Nat), HoldsInstance s → s.keyLen.toNat ≤ Config.impl.keyMax →
    4 * w < s.keyLen.toNat → lookupAt s.key w = none → (∀ v < w, lookupAt s.key v ≠ none) →
    exec .insert s = .fault (.consumedUnwrittenKey w) ∧ exec .delete s = .fault (.consumedUnwrittenKey w) ∧
    exec .lookup s = .fault (.consumedUnwrittenKey w) ∧
    (1 ≤ s.arg0.toNat → s.arg0.toNat ≤ s.k.toNat → exec .hashSlot s = .fault (.consumedUnwrittenKey w))) ∧
  (∀ (s : State) (w : Nat), HoldsSlots s → w < Config.impl.digestWords → lookupAt s.digest w = none →
    (∀ v < w, lookupAt s.digest v ≠ none) → exec .map s = .fault (.consumedUnwrittenDigest w))

/-! ### Rules over all commands and steps -/

/-- R283: a command that ends with an error code changes the three fields of STATUS and nothing else, and so does a `CMD`
write whose command fails, an illegal word among them, which is answered with error 0 all the same. -/
def Obligations.FailedCommandChangesOnlyStatus : Prop :=
  (∀ (i : Instr) (s t : State), exec i s = .next t → t.status.err ≠ .noError → t = failed s t.status.err) ∧
  ∀ (s t : State) (rest : List PortEvent) (w : Word),
    s.script = .request { dir := .write, addr := 0x018#11, size := .word, wdata := w } :: rest →
    step s = .next t → t.status.err ≠ .noError →
    t = { failed s t.status.err with script := rest, responses := s.responses ++ [{ error := false, rdata := 0 }] }

/-- R132: no command writes ARG0, N, P_LO, P_HI, KEYLEN, CTRL, any KEY word or any DIGEST word. -/
def Obligations.CommandsKeepHostRegisters : Prop :=
  ∀ (i : Instr) (s t : State), exec i s = .next t →
    t.arg0 = s.arg0 ∧ t.n = s.n ∧ t.pLo = s.pLo ∧ t.pHi = s.pHi ∧ t.keyLen = s.keyLen ∧ t.ctrl = s.ctrl ∧
    t.key = s.key ∧ t.digest = s.digest

/-- R92: each command reads its listed operands and no others. Two states that agree on the operands of a command (and on
CONFIGURED, but for NOP and CONFIGURE) give the same ERR, SAT and FLOOR, the same RESULT when the command completes, and the
same counter RAM when it was the same before; or both fault alike. -/
def Obligations.CommandsReadOnlyTheirOperands : Prop :=
  ∀ (i : Instr) (s s' : State),
    (i ≠ .nop → i ≠ .configure → s'.status.configured = s.status.configured) →
    let slotCountAgrees := s'.m = s.m
    let cramAgrees := ∀ j, memRead s'.cram j = memRead s.cram j
    let keyAgrees := s'.keyLen = s.keyLen ∧ keyBytes s' = keyBytes s ∧
      ∀ w, 4 * w < s.keyLen.toNat → isWritten s'.key w = isWritten s.key w
    let hashesAgree := s'.k = s.k ∧ slotCountAgrees ∧ keyAgrees
    (match i with
      | .nop => True
      | .configure => s'.n = s.n ∧ s'.pLo = s.pLo ∧ s'.pHi = s.pHi
      | .readSlot => s'.arg0 = s.arg0 ∧ slotCountAgrees ∧ cramAgrees
      | .incSlot => s'.ctrl.diagEn = s.ctrl.diagEn ∧ s'.arg0 = s.arg0 ∧ slotCountAgrees ∧ cramAgrees
      | .decSlot => s'.ctrl = s.ctrl ∧ s'.arg0 = s.arg0 ∧ slotCountAgrees ∧ cramAgrees
      | .readByte => s'.arg0 = s.arg0 ∧ slotCountAgrees ∧ cramAgrees
      | .hashSlot => s'.arg0 = s.arg0 ∧ hashesAgree
      | .map => slotCountAgrees ∧ ∀ w < Config.impl.digestWords, lookupAt s'.digest w = lookupAt s.digest w
      | .insert => hashesAgree ∧ cramAgrees
      | .delete => s'.ctrl.decFloor0 = s.ctrl.decFloor0 ∧ hashesAgree ∧ cramAgrees
      | .lookup => hashesAgree ∧ cramAgrees) →
    (∃ t t', exec i s = .next t ∧ exec i s' = .next t' ∧ t'.status.err = t.status.err ∧ t'.status.sat = t.status.sat ∧
      t'.status.floor = t.status.floor ∧ (t.status.err = .noError → t'.result = t.result) ∧
      (cramAgrees → ∀ j, memRead t'.cram j = memRead t.cram j)) ∨
    ∃ f, exec i s = .fault f ∧ exec i s' = .fault f

/-- R33, R34, R35, R126: a step that neither runs CONFIGURE nor resets keeps M, K, CFG_N and CFG_P. -/
def Obligations.OnlyConfigureChangesTheInstance : Prop :=
  ∀ s t : State, step s = .next t → nextCommand s ≠ some .configure → nextIsReset s = false →
    t.m = s.m ∧ t.k = s.k ∧ t.cfgN = s.cfgN ∧ t.cfgPLo = s.cfgPLo ∧ t.cfgPHi = s.cfgPHi

/-- R27: CONFIGURED never returns to 0 except by reset, and only CONFIGURE sets it. -/
def Obligations.ConfiguredIsClearedOnlyByReset : Prop :=
  ∀ s t : State, step s = .next t →
    (s.status.configured = true → nextIsReset s = false → t.status.configured = true) ∧
    (s.status.configured = false → t.status.configured = true → nextCommand s = some .configure)

/-- R324: until the first CONFIGURE, every command but NOP and CONFIGURE fails with NOT_CONFIGURED, or with DIAG_DISABLED
first for INC_SLOT and DEC_SLOT while DIAG_EN is 0. -/
def Obligations.BeforeConfigureCommandsFail : Prop :=
  ∀ (s : State) (i : Instr), s.status.configured = false → i ≠ .nop → i ≠ .configure →
    exec i s = .next (failed s
      (if (i = .incSlot ∨ i = .decSlot) ∧ s.ctrl.diagEn = false then .diagDisabled else .notConfigured))

/-- R341: no host event other than a `CMD` write and reset changes RESULT or STATUS. -/
def Obligations.OnlyCmdWritesChangeResultAndStatus : Prop :=
  ∀ s t : State, step s = .next t → nextWritesCmd s = false → nextIsReset s = false →
    t.result = s.result ∧ t.status = s.status ∧ t.cram = s.cram ∧ t.satCnt = s.satCnt ∧ t.floorCnt = s.floorCnt

/-- R37, R38: the debug counters never wrap: only CONFIGURE and reset can lower them. -/
def Obligations.DebugCountersNeverWrap : Prop :=
  ∀ s t : State, step s = .next t → nextCommand s ≠ some .configure → nextIsReset s = false →
    s.satCnt.toNat ≤ t.satCnt.toNat ∧ s.floorCnt.toNat ≤ t.floorCnt.toNat

/-- R47, R324: before the first CONFIGURE the contents of the counter RAM do not matter: whatever they are, every command
answers the same, and after it they still differ only there, or are the same. -/
def Obligations.CounterRamIsUnobservableBeforeConfigure : Prop :=
  ∀ (s : State) (mem : List Host.Cell) (i : Instr), s.status.configured = false →
    ∃ t t' : State, exec i s = .next t ∧ exec i { s with cram := mem } = .next t' ∧
      t' = { t with cram := t'.cram } ∧ (t.status.configured = true → t' = t)

/-! ### The blocks -/

/-- R67, R181, R182: a counter is its nibble of its byte; setctr replaces only that nibble. -/
def Obligations.CountersArePackedNibbles : Prop :=
  ∀ (s : State) (i : Nat) (v : Nibble),
    (counter s i).toNat = (memRead s.cram (i / 2)).toNat / 16 ^ (i % 2) % 16 ∧
    counter (setCounter s i v) i = v ∧
    (∀ j, j ≠ i → counter (setCounter s i v) j = counter s j) ∧
    (∀ a, a ≠ i / 2 → memRead (setCounter s i v).cram a = memRead s.cram a) ∧
    setCounter s i v = { s with cram := (setCounter s i v).cram }

/-- R190: the laws of inc and dec. -/
def Obligations.CounterPrimitivesObeyTheirLaws : Prop :=
  ∀ (s : State) (i : Nat),
    let v := (counter s i).toNat
    v ≤ 15 ∧
    (∀ j, j ≠ i → counter (increment s i).1 j = counter s j ∧ ∀ pol, counter (decrement s pol i).1 j = counter s j) ∧
    (counter (increment s i).1 i).toNat = min (v + 1) 15 ∧
    (increment s i).2 = (if v = 15 then 1 else 0) ∧
    (counter (decrement s false i).1 i).toNat = (if v = 0 then 1 else max (v - 1) 1) ∧
    (decrement s false i).2 = (if v ≤ 1 then 1 else 0) ∧
    (counter (decrement s true i).1 i).toNat = max (v - 1) 0 ∧
    (decrement s true i).2 = (if v = 0 then 1 else 0) ∧
    (1 ≤ v → v ≤ 14 → counter (decrement (increment s i).1 false i).1 i = counter s i) ∧
    (v = 0 → counter (decrement (increment s i).1 false i).1 i = 1#4) ∧
    (v ≤ 14 → counter (decrement (increment s i).1 true i).1 i = counter s i) ∧
    (v = 15 → ∀ pol, counter (decrement (increment s i).1 pol i).1 i = 14#4)

/-- R130: the final state and the events of the update loops do not depend on the order of the updates. -/
def Obligations.UpdateOrderDoesNotMatter : Prop :=
  ∀ (s : State) (pol : Bool) (S S' : List Nat), memWf s.cram = true → S.Perm S' →
    incrementAll s S = incrementAll s S' ∧ decrementAll s pol S = decrementAll s pol S'

/-- R223, R224, R227: the slot list has K entries in seed order, each DIGEST_FN(x ++ SEED_ENC(j)) mod M below M; MAP of the
same digest gives HASH_SLOT's result; neither command changes CRAM or the debug counters. -/
def Obligations.SlotsObeyTheirLaws : Prop :=
  (∀ (s : State) (x : List Byte), 1 ≤ s.m.toNat →
    (slotsOf Config.impl s x).length = s.k.toNat ∧
    (∀ j < s.k.toNat, (slotsOf Config.impl s x)[j]? =
      some (Config.impl.digestFn (x ++ Config.impl.seedEnc (j + 1)) % s.m.toNat)) ∧
    (∀ i ∈ slotsOf Config.impl s x, i < s.m.toNat) ∧
    (s.m.toNat = 1 → ∀ i ∈ slotsOf Config.impl s x, i = 0)) ∧
  (∀ (s t : State) (x : List Byte), t.m = s.m → t.k = s.k → slotsOf Config.impl t x = slotsOf Config.impl s x) ∧
  (∀ s : State, HoldsInstance s → KeyIsWritten s → DigestIsWritten s → 1 ≤ s.arg0.toNat → s.arg0.toNat ≤ s.k.toNat →
    (∑ w ∈ Finset.range Config.impl.digestWords, ((lookupAt s.digest w).getD 0).toNat * 2 ^ (32 * w)) =
      Config.impl.digestFn (keyBytes s ++ Config.impl.seedEnc s.arg0.toNat) →
    ∃ t, exec .hashSlot s = .next t ∧ exec .map s = .next t) ∧
  (∀ s t : State, exec .hashSlot s = .next t ∨ exec .map s = .next t →
    t.cram = s.cram ∧ t.satCnt = s.satCnt ∧ t.floorCnt = s.floorCnt)

/-- R250: the lookup value is 0 when some counter of the list is 0, and the least counter in every case, at most 15. -/
def Obligations.LookupValueIsTheMinimum : Prop :=
  ∀ (s : State) (S : List Nat), S ≠ [] →
    ((∃ i ∈ S, counter s i = 0#4) → lookupValue s S = 0) ∧
    (∃ i ∈ S, lookupValue s S = (counter s i).toNat) ∧ (∀ i ∈ S, lookupValue s S ≤ (counter s i).toNat) ∧
    lookupValue s S ≤ 15

/-- R64, R98: running the transactions of SETKEY from any state writes the key: afterwards the key of KEYLEN bytes is the
given one, every word of it is written, and nothing but KEY, KEYLEN and the responses has changed. -/
def Obligations.SetKeyWritesTheKey : Prop :=
  ∀ (s : State) (x : List Byte) (rest : List PortEvent), x.length ≤ Config.impl.keyMax → s.script = setKey x ++ rest →
    ∃ t, Host.Core.run Sys2Proof.core (setKey x).length s = .next t ∧ keyBytes t = x ∧ KeyIsWritten t ∧
      t = { s with key := t.key, keyLen := BitVec.ofNat 32 x.length, script := rest, responses := t.responses }

/-! ### The derivation -/

/-- R152: the valid inputs are n >= 1 and the patterns of the real numbers strictly between 0 and 1. -/
def Obligations.ValidInputsAreTheOpenUnitInterval : Prop :=
  ∀ (n : Word) (pb : Pattern),
    (validInputs n pb = true ↔ 1 ≤ n.toNat ∧ 0x0000000000000001 ≤ pb.toNat ∧ pb.toNat ≤ 0x3FEFFFFFFFFFFFFF) ∧
    (0x0000000000000001 ≤ pb.toNat ∧ pb.toNat ≤ 0x3FEFFFFFFFFFFFFF ↔
      ∃ p : ℚ, binary64Value pb = some p ∧ 0 < p ∧ p < 1)

/-- R153: for every valid input the derivation is the one of the formulas over the real numbers. The clauses on `slotCountLo`
and `slotCountHi` are about the model's own way of computing it (log entry 4): the two ends of the first enclosure are equal
or neighbours, and m is one of them. -/
def Obligations.DerivationIsExactRealArithmetic : Prop :=
  ∀ (n : Word) (pb : Pattern) (p : ℚ), validInputs n pb = true → binary64Value pb = some p →
    let m := (derive n pb).1
    let k := (derive n pb).2
    m = max 1 ⌈-(n.toNat : ℝ) * Real.log (p : ℝ) / Real.log 2 ^ 2⌉₊ ∧
    k = max 1 ⌈(m : ℝ) / (n.toNat : ℝ) * Real.log 2⌉₊ ∧
    slotCountLo enclosureBits n.toNat pb ≤ m ∧ m ≤ slotCountHi enclosureBits n.toNat pb ∧
    slotCountHi enclosureBits n.toNat pb ≤ slotCountLo enclosureBits n.toNat pb + 1

/-- R153, R156: CONFIGURE with valid inputs makes the instance of the real-number formulas, and fails with CAPACITY exactly
when it does not fit. -/
def Obligations.ConfigureMakesTheExactInstance : Prop :=
  ∀ (s : State) (p : ℚ), validInputs s.n (s.pHi ++ s.pLo) = true → binary64Value (s.pHi ++ s.pLo) = some p →
    let m := max 1 ⌈-(s.n.toNat : ℝ) * Real.log (p : ℝ) / Real.log 2 ^ 2⌉₊
    let k := max 1 ⌈(m : ℝ) / (s.n.toNat : ℝ) * Real.log 2⌉₊
    (Config.impl.mMax < m ∨ Config.impl.kMax < k → exec .configure s = .next (failed s .capacity)) ∧
    (m ≤ Config.impl.mMax → k ≤ Config.impl.kMax →
      ∃ t, exec .configure s = .next t ∧ t.m.toNat = m ∧ t.k.toNat = k ∧ t.status.configured = true ∧
        t.cfgN = s.n ∧ t.cfgPHi ++ t.cfgPLo = s.pHi ++ s.pLo ∧ ∀ i, counter t i = 0#4)

/-- R154: for valid inputs the clamps of the derivation never act, and k_real is never an integer. -/
def Obligations.ClampsNeverAct : Prop :=
  ∀ (n : Word) (pb : Pattern) (p : ℚ), validInputs n pb = true → binary64Value pb = some p →
    let m := (derive n pb).1
    let k := (derive n pb).2
    let mReal := -(n.toNat : ℝ) * Real.log (p : ℝ) / Real.log 2 ^ 2
    let kReal := (m : ℝ) / (n.toNat : ℝ) * Real.log 2
    0 < mReal ∧ m = ⌈mReal⌉₊ ∧ 1 ≤ m ∧ 0 < kReal ∧ (∀ j : ℤ, kReal ≠ j) ∧ k = ⌈kReal⌉₊ ∧ 1 ≤ k

/-- R155: the derived values are bounded, with c(p) = -ln(p) / (ln 2)^2, so that m_real = n c(p). -/
def Obligations.DerivedValuesAreBounded : Prop :=
  (∀ (n : Word) (pb : Pattern) (p : ℚ), validInputs n pb = true → binary64Value pb = some p →
    let m := (derive n pb).1
    let k := (derive n pb).2
    let N : ℝ := n.toNat
    let c := -Real.log (p : ℝ) / Real.log 2 ^ 2
    ((2 : ℝ) ^ (-1074 : ℤ) ≤ p ∧ -Real.log (p : ℝ) ≤ 1074 * Real.log 2) ∧
    (N * c ≤ N * 1074 / Real.log 2 ∧ N * 1074 / Real.log 2 < 1549.46 * N) ∧
    ((m : ℝ) ≤ 1549.46 * N + 1 ∧ m < 2 ^ 43) ∧
    ((m : ℝ) / N * Real.log 2 < (N * c + 1) / N * Real.log 2 ∧
      (N * c + 1) / N * Real.log 2 ≤ 1074 + Real.log 2 / N ∧ 1 ≤ k ∧ k ≤ 1075) ∧
    (-N * Real.log (p : ℝ) / Real.log 2 ^ 2 = N * c ∧ N * c ≤ m ∧ (m : ℝ) < N * c + 1)) ∧
  (derive 1#32 1#64).2 = 1075

/-! ### Invariants and runs -/

/-- The reset state meets the invariant (R49). -/
def Obligations.ResetMeetsTheInvariant : Prop :=
  Invariant Config.impl State.reset

/-- R49: every step from a state that meets the invariant gives a state that meets it. -/
def Obligations.StepKeepsTheInvariant : Prop :=
  ∀ s t : State, Invariant Config.impl s → step s = .next t → Invariant Config.impl t

/-- R77, R289: from a state that meets the invariant, a step answers a next state or faults on an unwritten word, which is
really unwritten; it never refuses and never meets an impossible instance. -/
def Obligations.StepsFaultOnlyOnUnwrittenWords : Prop :=
  ∀ s : State, Invariant Config.impl s →
    (∃ t, step s = .next t) ∨
    (∃ w, lookupAt s.key w = none ∧ (step s = .fault (.readUnwrittenKey w) ∨ step s = .fault (.consumedUnwrittenKey w))) ∨
    (∃ w, lookupAt s.digest w = none ∧
      (step s = .fault (.readUnwrittenDigest w) ∨ step s = .fault (.consumedUnwrittenDigest w)))

/-- R254 law 1: after INSERT x, LOOKUP x is at least 1, as long as every decrement is under the floor at 1 and the instance
is kept. -/
def Obligations.InsertedKeyIsFound : Prop :=
  ∀ (s t u : State) (k : Nat), exec .insert s = .next t → t.status.err = .noError → alongRun FloorsAtOne k t →
    Host.Core.run Sys2Proof.core k t = .next u → 1 ≤ lookupValue u (slotsOf Config.impl u (keyBytes s))

/-- R254 law 2: if x is inserted c times and no DELETE, INC_SLOT or DEC_SLOT runs, LOOKUP x is at least min(c, 15). -/
def Obligations.LookupCountsInserts : Prop :=
  ∀ (x : List Byte) (s t : State) (k : Nat), HoldsInstance s → x.length ≤ Config.impl.keyMax →
    alongRun OnlyInserts k s → Host.Core.run Sys2Proof.core k s = .next t →
    min (insertsOf x k s) 15 ≤ lookupValue t (slotsOf Config.impl t x)

/-- R254 law 3: the count is exact, up to 15, when the counters of x start at 0, no other inserted key meets a slot of x,
and some slot occurs once in the list of x. -/
def Obligations.LookupIsExactWithoutCollisions : Prop :=
  ∀ (x : List Byte) (s t : State) (k : Nat), HoldsInstance s → x.length ≤ Config.impl.keyMax →
    (∀ i ∈ slotsOf Config.impl s x, counter s i = 0#4) →
    (∃ i, (slotsOf Config.impl s x).count i = 1) →
    alongRun (fun u => OnlyInserts u ∧ (nextCommand u = some .insert → keyBytes u = x ∨
      ∀ i ∈ slotsOf Config.impl u (keyBytes u), i ∉ slotsOf Config.impl u x)) k s →
    Host.Core.run Sys2Proof.core k s = .next t → insertsOf x k s ≤ 15 →
    lookupValue t (slotsOf Config.impl t x) = insertsOf x k s

/-- R254 law 5: a key inserted once, with distinct slots that nothing else met, is deleted with RESULT 1; LOOKUP then gives
1 under the floor at 1 and 0 under the floor at 0. -/
def Obligations.DeleteAfterOneInsert : Prop :=
  ∀ s : State, HoldsInstance s → KeyIsWritten s → (slotsOf Config.impl s (keyBytes s)).Nodup →
    (∀ i ∈ slotsOf Config.impl s (keyBytes s), counter s i = 0#4) →
    ∃ t u : State, exec .insert s = .next t ∧ exec .delete t = .next u ∧ u.result = 1 ∧
      lookupValue u (slotsOf Config.impl u (keyBytes u)) = if s.ctrl.decFloor0 then 0 else 1

/-- R254 law 7: while every decrement is under the floor at 1 and the instance is kept, no counter returns to 0. -/
def Obligations.CountersNeverReturnToZero : Prop :=
  ∀ (s t : State) (k : Nat), alongRun FloorsAtOne k s → Host.Core.run Sys2Proof.core k s = .next t →
    ∀ i, counter s i ≠ 0#4 → counter t i ≠ 0#4
end

