-- ==== Sys2Proof/Laws/Bus.lean ====
section
/-! SUPPORT. The register map by regions, and a step of the host port by the kind of its transaction (spec rules R21, R123 to R125). -/

namespace Sys2Proof.Machine

/-! ### The register map -/

theorem regAt_digest {a : Offset} {w : Nat} (hw : w < 32) (h : a.toNat = 0x080 + 4 * w) : regAt a = .digest w := by
  have table : ∀ a : Offset, 0x080 ≤ a.toNat → a.toNat < 0x100 → regAt a = .digest ((a.toNat - 0x080) / 4) := by
    decide +kernel
  rw [table a (by omega) (by omega)]
  congr 1
  omega

theorem regAt_key {a : Offset} {w : Nat} (h : a.toNat = 0x400 + 4 * w) : regAt a = .key w := by
  have table : ∀ a : Offset, 0x400 ≤ a.toNat → regAt a = .key ((a.toNat - 0x400) / 4) := by decide +kernel
  rw [table a (by omega)]
  congr 1
  omega

theorem regAt_reserved {a : Offset}
    (h : (0x050 ≤ a.toNat ∧ a.toNat < 0x080) ∨ (0x100 ≤ a.toNat ∧ a.toNat < 0x400)) : regAt a = .reserved := by
  have table : ∀ a : Offset, ((0x050 ≤ a.toNat ∧ a.toNat < 0x080) ∨ (0x100 ≤ a.toNat ∧ a.toNat < 0x400)) →
      regAt a = .reserved := by decide +kernel
  exact table a h

/-! ### Steps by the kind of the transaction -/

theorem isLegal_iff (x : Transaction) : isLegal x = true ↔ x.size = .word ∧ x.addr.toNat % 4 = 0 := by
  have : ∀ z : AccessSize, bytesOfSize z = 4 ↔ z = .word := by intro z; cases z <;> decide
  simp [isLegal, this]

theorem step_busError {s : State} {rest : List PortEvent} {x : Transaction} (hs : s.script = .request x :: rest)
    (hl : isLegal x = false) : step s = .next (respond { s with script := rest } busError) := by
  simp [step, stepWith, hs, perform, transact, hl]

theorem step_read {s : State} {rest : List PortEvent} {x : Transaction} (hs : s.script = .request x :: rest)
    (hl : isLegal x = true) (hd : x.dir = .read) :
    step s = match readReg Config.impl { s with script := rest } (regAt x.addr) with
      | .ok v => .next (respond { s with script := rest } (readDone v))
      | .error f => .fault f := by
  cases hr : readReg Config.impl { s with script := rest } (regAt x.addr) <;>
    simp [step, stepWith, hs, perform, transact, hl, hd, hr]

theorem step_write {s : State} {rest : List PortEvent} {x : Transaction} (hs : s.script = .request x :: rest)
    (hl : isLegal x = true) (hd : x.dir = .write) (ha : x.addr ≠ cmdOffset) :
    step s = .next (respond (writeReg Config.impl { s with script := rest } (regAt x.addr) x.wdata) writeDone) := by
  simp [step, stepWith, hs, perform, transact, hl, hd, ha]

theorem step_command {s : State} {rest : List PortEvent} {x : Transaction} (hs : s.script = .request x :: rest)
    (hl : isLegal x = true) (hd : x.dir = .write) (ha : x.addr = cmdOffset) :
    step s = afterCommand (runCommand exec x.wdata { s with script := rest }) := by
  simp [step, stepWith, hs, perform, transact, hl, hd, ha]

end Sys2Proof.Machine
end

