-- ==== Sys2Proof/Laws/State.lean ====
section
/-! SUPPORT. One lemma per field per update of the state, true by `rfl`, so that no later proof unfolds a record update. -/

namespace Sys2Proof.Machine

/-! ### A failed command -/

@[simp] theorem cmdError_ctrl (s : State) (code : ErrCode) :
    (cmdError s code).ctrl = s.ctrl := rfl

@[simp] theorem cmdError_status (s : State) (code : ErrCode) :
    (cmdError s code).status = { s.status with err := code, sat := false, floor := false } := rfl

@[simp] theorem cmdError_arg0 (s : State) (code : ErrCode) :
    (cmdError s code).arg0 = s.arg0 := rfl

@[simp] theorem cmdError_result (s : State) (code : ErrCode) :
    (cmdError s code).result = s.result := rfl

@[simp] theorem cmdError_n (s : State) (code : ErrCode) :
    (cmdError s code).n = s.n := rfl

@[simp] theorem cmdError_pLo (s : State) (code : ErrCode) :
    (cmdError s code).pLo = s.pLo := rfl

@[simp] theorem cmdError_pHi (s : State) (code : ErrCode) :
    (cmdError s code).pHi = s.pHi := rfl

@[simp] theorem cmdError_m (s : State) (code : ErrCode) :
    (cmdError s code).m = s.m := rfl

@[simp] theorem cmdError_k (s : State) (code : ErrCode) :
    (cmdError s code).k = s.k := rfl

@[simp] theorem cmdError_cfgN (s : State) (code : ErrCode) :
    (cmdError s code).cfgN = s.cfgN := rfl

@[simp] theorem cmdError_cfgPLo (s : State) (code : ErrCode) :
    (cmdError s code).cfgPLo = s.cfgPLo := rfl

@[simp] theorem cmdError_cfgPHi (s : State) (code : ErrCode) :
    (cmdError s code).cfgPHi = s.cfgPHi := rfl

@[simp] theorem cmdError_keyLen (s : State) (code : ErrCode) :
    (cmdError s code).keyLen = s.keyLen := rfl

@[simp] theorem cmdError_satCnt (s : State) (code : ErrCode) :
    (cmdError s code).satCnt = s.satCnt := rfl

@[simp] theorem cmdError_floorCnt (s : State) (code : ErrCode) :
    (cmdError s code).floorCnt = s.floorCnt := rfl

@[simp] theorem cmdError_digest (s : State) (code : ErrCode) :
    (cmdError s code).digest = s.digest := rfl

@[simp] theorem cmdError_key (s : State) (code : ErrCode) :
    (cmdError s code).key = s.key := rfl

@[simp] theorem cmdError_cram (s : State) (code : ErrCode) :
    (cmdError s code).cram = s.cram := rfl

@[simp] theorem cmdError_script (s : State) (code : ErrCode) :
    (cmdError s code).script = s.script := rfl

@[simp] theorem cmdError_responses (s : State) (code : ErrCode) :
    (cmdError s code).responses = s.responses := rfl

/-! ### A completed command -/

@[simp] theorem complete_ctrl (s : State) (result sat floor : Nat) :
    (complete s result sat floor).ctrl = s.ctrl := rfl

@[simp] theorem complete_status (s : State) (result sat floor : Nat) :
    (complete s result sat floor).status = { s.status with err := .noError, sat := decide (0 < sat), floor := decide (0 < floor) } := rfl

@[simp] theorem complete_arg0 (s : State) (result sat floor : Nat) :
    (complete s result sat floor).arg0 = s.arg0 := rfl

@[simp] theorem complete_result (s : State) (result sat floor : Nat) :
    (complete s result sat floor).result = BitVec.ofNat 32 result := rfl

@[simp] theorem complete_n (s : State) (result sat floor : Nat) :
    (complete s result sat floor).n = s.n := rfl

@[simp] theorem complete_pLo (s : State) (result sat floor : Nat) :
    (complete s result sat floor).pLo = s.pLo := rfl

@[simp] theorem complete_pHi (s : State) (result sat floor : Nat) :
    (complete s result sat floor).pHi = s.pHi := rfl

@[simp] theorem complete_m (s : State) (result sat floor : Nat) :
    (complete s result sat floor).m = s.m := rfl

@[simp] theorem complete_k (s : State) (result sat floor : Nat) :
    (complete s result sat floor).k = s.k := rfl

@[simp] theorem complete_cfgN (s : State) (result sat floor : Nat) :
    (complete s result sat floor).cfgN = s.cfgN := rfl

@[simp] theorem complete_cfgPLo (s : State) (result sat floor : Nat) :
    (complete s result sat floor).cfgPLo = s.cfgPLo := rfl

@[simp] theorem complete_cfgPHi (s : State) (result sat floor : Nat) :
    (complete s result sat floor).cfgPHi = s.cfgPHi := rfl

@[simp] theorem complete_keyLen (s : State) (result sat floor : Nat) :
    (complete s result sat floor).keyLen = s.keyLen := rfl

@[simp] theorem complete_satCnt (s : State) (result sat floor : Nat) :
    (complete s result sat floor).satCnt = countEvents s.satCnt sat := rfl

@[simp] theorem complete_floorCnt (s : State) (result sat floor : Nat) :
    (complete s result sat floor).floorCnt = countEvents s.floorCnt floor := rfl

@[simp] theorem complete_digest (s : State) (result sat floor : Nat) :
    (complete s result sat floor).digest = s.digest := rfl

@[simp] theorem complete_key (s : State) (result sat floor : Nat) :
    (complete s result sat floor).key = s.key := rfl

@[simp] theorem complete_cram (s : State) (result sat floor : Nat) :
    (complete s result sat floor).cram = s.cram := rfl

@[simp] theorem complete_script (s : State) (result sat floor : Nat) :
    (complete s result sat floor).script = s.script := rfl

@[simp] theorem complete_responses (s : State) (result sat floor : Nat) :
    (complete s result sat floor).responses = s.responses := rfl

/-! ### A written counter -/

@[simp] theorem setCounter_ctrl (s : State) (i : Nat) (v : Nibble) :
    (setCounter s i v).ctrl = s.ctrl := rfl

@[simp] theorem setCounter_status (s : State) (i : Nat) (v : Nibble) :
    (setCounter s i v).status = s.status := rfl

@[simp] theorem setCounter_arg0 (s : State) (i : Nat) (v : Nibble) :
    (setCounter s i v).arg0 = s.arg0 := rfl

@[simp] theorem setCounter_result (s : State) (i : Nat) (v : Nibble) :
    (setCounter s i v).result = s.result := rfl

@[simp] theorem setCounter_n (s : State) (i : Nat) (v : Nibble) :
    (setCounter s i v).n = s.n := rfl

@[simp] theorem setCounter_pLo (s : State) (i : Nat) (v : Nibble) :
    (setCounter s i v).pLo = s.pLo := rfl

@[simp] theorem setCounter_pHi (s : State) (i : Nat) (v : Nibble) :
    (setCounter s i v).pHi = s.pHi := rfl

@[simp] theorem setCounter_m (s : State) (i : Nat) (v : Nibble) :
    (setCounter s i v).m = s.m := rfl

@[simp] theorem setCounter_k (s : State) (i : Nat) (v : Nibble) :
    (setCounter s i v).k = s.k := rfl

@[simp] theorem setCounter_cfgN (s : State) (i : Nat) (v : Nibble) :
    (setCounter s i v).cfgN = s.cfgN := rfl

@[simp] theorem setCounter_cfgPLo (s : State) (i : Nat) (v : Nibble) :
    (setCounter s i v).cfgPLo = s.cfgPLo := rfl

@[simp] theorem setCounter_cfgPHi (s : State) (i : Nat) (v : Nibble) :
    (setCounter s i v).cfgPHi = s.cfgPHi := rfl

@[simp] theorem setCounter_keyLen (s : State) (i : Nat) (v : Nibble) :
    (setCounter s i v).keyLen = s.keyLen := rfl

@[simp] theorem setCounter_satCnt (s : State) (i : Nat) (v : Nibble) :
    (setCounter s i v).satCnt = s.satCnt := rfl

@[simp] theorem setCounter_floorCnt (s : State) (i : Nat) (v : Nibble) :
    (setCounter s i v).floorCnt = s.floorCnt := rfl

@[simp] theorem setCounter_digest (s : State) (i : Nat) (v : Nibble) :
    (setCounter s i v).digest = s.digest := rfl

@[simp] theorem setCounter_key (s : State) (i : Nat) (v : Nibble) :
    (setCounter s i v).key = s.key := rfl

@[simp] theorem setCounter_cram (s : State) (i : Nat) (v : Nibble) :
    (setCounter s i v).cram = memWrite s.cram (i / 2) (withNibble (memRead s.cram (i / 2)) i v) := rfl

@[simp] theorem setCounter_script (s : State) (i : Nat) (v : Nibble) :
    (setCounter s i v).script = s.script := rfl

@[simp] theorem setCounter_responses (s : State) (i : Nat) (v : Nibble) :
    (setCounter s i v).responses = s.responses := rfl

/-! ### A new instance -/

@[simp] theorem newInstance_ctrl (s : State) (mk : Nat × Nat) :
    (newInstance s mk).ctrl = s.ctrl := rfl

@[simp] theorem newInstance_status (s : State) (mk : Nat × Nat) :
    (newInstance s mk).status = { s.status with configured := true } := rfl

@[simp] theorem newInstance_arg0 (s : State) (mk : Nat × Nat) :
    (newInstance s mk).arg0 = s.arg0 := rfl

@[simp] theorem newInstance_result (s : State) (mk : Nat × Nat) :
    (newInstance s mk).result = s.result := rfl

@[simp] theorem newInstance_n (s : State) (mk : Nat × Nat) :
    (newInstance s mk).n = s.n := rfl

@[simp] theorem newInstance_pLo (s : State) (mk : Nat × Nat) :
    (newInstance s mk).pLo = s.pLo := rfl

@[simp] theorem newInstance_pHi (s : State) (mk : Nat × Nat) :
    (newInstance s mk).pHi = s.pHi := rfl

@[simp] theorem newInstance_m (s : State) (mk : Nat × Nat) :
    (newInstance s mk).m = BitVec.ofNat 32 mk.1 := rfl

@[simp] theorem newInstance_k (s : State) (mk : Nat × Nat) :
    (newInstance s mk).k = BitVec.ofNat 32 mk.2 := rfl

@[simp] theorem newInstance_cfgN (s : State) (mk : Nat × Nat) :
    (newInstance s mk).cfgN = s.n := rfl

@[simp] theorem newInstance_cfgPLo (s : State) (mk : Nat × Nat) :
    (newInstance s mk).cfgPLo = s.pLo := rfl

@[simp] theorem newInstance_cfgPHi (s : State) (mk : Nat × Nat) :
    (newInstance s mk).cfgPHi = s.pHi := rfl

@[simp] theorem newInstance_keyLen (s : State) (mk : Nat × Nat) :
    (newInstance s mk).keyLen = s.keyLen := rfl

@[simp] theorem newInstance_satCnt (s : State) (mk : Nat × Nat) :
    (newInstance s mk).satCnt = 0 := rfl

@[simp] theorem newInstance_floorCnt (s : State) (mk : Nat × Nat) :
    (newInstance s mk).floorCnt = 0 := rfl

@[simp] theorem newInstance_digest (s : State) (mk : Nat × Nat) :
    (newInstance s mk).digest = s.digest := rfl

@[simp] theorem newInstance_key (s : State) (mk : Nat × Nat) :
    (newInstance s mk).key = s.key := rfl

@[simp] theorem newInstance_cram (s : State) (mk : Nat × Nat) :
    (newInstance s mk).cram = memClear := rfl

@[simp] theorem newInstance_script (s : State) (mk : Nat × Nat) :
    (newInstance s mk).script = s.script := rfl

@[simp] theorem newInstance_responses (s : State) (mk : Nat × Nat) :
    (newInstance s mk).responses = s.responses := rfl

/-! ### A response -/

@[simp] theorem respond_ctrl (s : State) (r : Response) :
    (respond s r).ctrl = s.ctrl := rfl

@[simp] theorem respond_status (s : State) (r : Response) :
    (respond s r).status = s.status := rfl

@[simp] theorem respond_arg0 (s : State) (r : Response) :
    (respond s r).arg0 = s.arg0 := rfl

@[simp] theorem respond_result (s : State) (r : Response) :
    (respond s r).result = s.result := rfl

@[simp] theorem respond_n (s : State) (r : Response) :
    (respond s r).n = s.n := rfl

@[simp] theorem respond_pLo (s : State) (r : Response) :
    (respond s r).pLo = s.pLo := rfl

@[simp] theorem respond_pHi (s : State) (r : Response) :
    (respond s r).pHi = s.pHi := rfl

@[simp] theorem respond_m (s : State) (r : Response) :
    (respond s r).m = s.m := rfl

@[simp] theorem respond_k (s : State) (r : Response) :
    (respond s r).k = s.k := rfl

@[simp] theorem respond_cfgN (s : State) (r : Response) :
    (respond s r).cfgN = s.cfgN := rfl

@[simp] theorem respond_cfgPLo (s : State) (r : Response) :
    (respond s r).cfgPLo = s.cfgPLo := rfl

@[simp] theorem respond_cfgPHi (s : State) (r : Response) :
    (respond s r).cfgPHi = s.cfgPHi := rfl

@[simp] theorem respond_keyLen (s : State) (r : Response) :
    (respond s r).keyLen = s.keyLen := rfl

@[simp] theorem respond_satCnt (s : State) (r : Response) :
    (respond s r).satCnt = s.satCnt := rfl

@[simp] theorem respond_floorCnt (s : State) (r : Response) :
    (respond s r).floorCnt = s.floorCnt := rfl

@[simp] theorem respond_digest (s : State) (r : Response) :
    (respond s r).digest = s.digest := rfl

@[simp] theorem respond_key (s : State) (r : Response) :
    (respond s r).key = s.key := rfl

@[simp] theorem respond_cram (s : State) (r : Response) :
    (respond s r).cram = s.cram := rfl

@[simp] theorem respond_script (s : State) (r : Response) :
    (respond s r).script = s.script := rfl

@[simp] theorem respond_responses (s : State) (r : Response) :
    (respond s r).responses = s.responses ++ [r] := rfl

/-! ### Reset -/

@[simp] theorem afterReset_ctrl (s : State) :
    (afterReset s).ctrl = State.reset.ctrl := rfl

@[simp] theorem afterReset_status (s : State) :
    (afterReset s).status = State.reset.status := rfl

@[simp] theorem afterReset_arg0 (s : State) :
    (afterReset s).arg0 = State.reset.arg0 := rfl

@[simp] theorem afterReset_result (s : State) :
    (afterReset s).result = State.reset.result := rfl

@[simp] theorem afterReset_n (s : State) :
    (afterReset s).n = State.reset.n := rfl

@[simp] theorem afterReset_pLo (s : State) :
    (afterReset s).pLo = State.reset.pLo := rfl

@[simp] theorem afterReset_pHi (s : State) :
    (afterReset s).pHi = State.reset.pHi := rfl

@[simp] theorem afterReset_m (s : State) :
    (afterReset s).m = State.reset.m := rfl

@[simp] theorem afterReset_k (s : State) :
    (afterReset s).k = State.reset.k := rfl

@[simp] theorem afterReset_cfgN (s : State) :
    (afterReset s).cfgN = State.reset.cfgN := rfl

@[simp] theorem afterReset_cfgPLo (s : State) :
    (afterReset s).cfgPLo = State.reset.cfgPLo := rfl

@[simp] theorem afterReset_cfgPHi (s : State) :
    (afterReset s).cfgPHi = State.reset.cfgPHi := rfl

@[simp] theorem afterReset_keyLen (s : State) :
    (afterReset s).keyLen = State.reset.keyLen := rfl

@[simp] theorem afterReset_satCnt (s : State) :
    (afterReset s).satCnt = State.reset.satCnt := rfl

@[simp] theorem afterReset_floorCnt (s : State) :
    (afterReset s).floorCnt = State.reset.floorCnt := rfl

@[simp] theorem afterReset_digest (s : State) :
    (afterReset s).digest = State.reset.digest := rfl

@[simp] theorem afterReset_key (s : State) :
    (afterReset s).key = State.reset.key := rfl

@[simp] theorem afterReset_cram (s : State) :
    (afterReset s).cram = State.reset.cram := rfl

@[simp] theorem afterReset_script (s : State) :
    (afterReset s).script = s.script := rfl

@[simp] theorem afterReset_responses (s : State) :
    (afterReset s).responses = s.responses := rfl

end Sys2Proof.Machine
end

