-- ==== Sys2Proof/Laws/Table.lean ====
section
/-! SUPPORT. Tables and the counter RAM: read after write, the canonical form, and that it makes equal memories equal data. -/

namespace Sys2Proof.Machine

variable {α : Type}

/-! ### Lookup after an update -/

@[simp] theorem lookupAt_nil (a : Nat) : lookupAt ([] : List (Nat × α)) a = none := rfl

theorem lookupAt_cons (p : Nat × α) (t : List (Nat × α)) (a : Nat) :
    lookupAt (p :: t) a = if a = p.1 then some p.2 else lookupAt t a := rfl

@[simp] theorem lookupAt_putAt_same (t : List (Nat × α)) (a : Nat) (v : α) :
    lookupAt (putAt t a v) a = some v := by
  induction t with
  | nil => simp [putAt, lookupAt_cons]
  | cons p t ih =>
    obtain ⟨b, w⟩ := p
    simp only [putAt]
    split_ifs with h₁ h₂ <;> simp [lookupAt_cons, *]

theorem lookupAt_putAt_other (t : List (Nat × α)) {a a' : Nat} (v : α) (h : a' ≠ a) :
    lookupAt (putAt t a v) a' = lookupAt t a' := by
  induction t with
  | nil => simp [putAt, lookupAt_cons, h]
  | cons p t ih =>
    obtain ⟨b, w⟩ := p
    simp only [putAt]
    split_ifs with h₁ h₂
    · simp [lookupAt_cons, h]
    · subst h₂; simp [lookupAt_cons, h]
    · simp [lookupAt_cons, ih]

@[simp] theorem lookupAt_dropAt_same (t : List (Nat × α)) (a : Nat) :
    lookupAt (dropAt t a) a = none := by
  induction t with
  | nil => rfl
  | cons p t ih =>
    by_cases h : p.1 = a
    · simpa [dropAt, h] using ih
    · simpa [dropAt, h, lookupAt_cons, Ne.symm h] using ih

theorem lookupAt_dropAt_other (t : List (Nat × α)) {a a' : Nat} (h : a' ≠ a) :
    lookupAt (dropAt t a) a' = lookupAt t a' := by
  induction t with
  | nil => rfl
  | cons p t ih =>
    have e : dropAt (p :: t) a = if p.1 = a then dropAt t a else p :: dropAt t a := by
      by_cases hp : p.1 = a <;> simp [dropAt, hp]
    rw [e]
    split_ifs with hp
    · rw [ih, lookupAt_cons, if_neg (by omega)]
    · rw [lookupAt_cons, lookupAt_cons, ih]

/-! ### The rising order -/

/-- The indexes of a rising table are pairwise rising. -/
theorem tableRises_iff (t : List (Nat × α)) :
    tableRises t = true ↔ t.Pairwise fun p q => p.1 < q.1 := by
  induction t with
  | nil => simp [tableRises]
  | cons p t ih =>
    cases t with
    | nil => simp [tableRises]
    | cons q t =>
      rw [tableRises, Bool.and_eq_true, ih, decide_eq_true_iff, List.pairwise_cons (l := q :: t)]
      constructor
      · rintro ⟨h, ht⟩
        refine ⟨fun r hr => ?_, ht⟩
        rcases List.mem_cons.1 hr with rfl | hr
        · exact h
        · exact h.trans ((List.pairwise_cons.1 ht).1 r hr)
      · rintro ⟨h, ht⟩
        exact ⟨h q (by simp), ht⟩

/-- An entry after an update is the new one or an old one. -/
theorem mem_putAt {t : List (Nat × α)} {a : Nat} {v : α} {p : Nat × α} (h : p ∈ putAt t a v) :
    p = (a, v) ∨ p ∈ t := by
  induction t with
  | nil => simpa [putAt] using h
  | cons q t ih =>
    obtain ⟨b, w⟩ := q
    simp only [putAt] at h
    split_ifs at h with h₁ h₂
    · simpa using h
    · rcases List.mem_cons.1 h with h | h
      · exact .inl h
      · exact .inr (by simp [h])
    · rcases List.mem_cons.1 h with h | h
      · exact .inr (by simp [h])
      · rcases ih h with h | h
        · exact .inl h
        · exact .inr (by simp [h])

theorem tableRises_putAt {t : List (Nat × α)} (a : Nat) (v : α) (h : tableRises t = true) :
    tableRises (putAt t a v) = true := by
  rw [tableRises_iff] at h ⊢
  induction t with
  | nil => simp [putAt]
  | cons p t ih =>
    obtain ⟨b, w⟩ := p
    have hb := (List.pairwise_cons.1 h).1
    have ht := (List.pairwise_cons.1 h).2
    simp only [putAt]
    split_ifs with h₁ h₂
    · refine List.pairwise_cons.2 ⟨fun r hr => ?_, h⟩
      rcases List.mem_cons.1 hr with rfl | hr
      · exact h₁
      · exact h₁.trans (hb r hr)
    · subst h₂; exact List.pairwise_cons.2 ⟨hb, ht⟩
    · refine List.pairwise_cons.2 ⟨fun r hr => ?_, ih ht⟩
      rcases mem_putAt hr with rfl | hr
      · show b < a; omega
      · exact hb r hr

theorem tableRises_dropAt {t : List (Nat × α)} (a : Nat) (h : tableRises t = true) :
    tableRises (dropAt t a) = true := by
  rw [tableRises_iff] at h ⊢
  exact h.filter _

/-- In a rising table, an entry is what its index looks up. -/
theorem lookupAt_eq_some_iff {t : List (Nat × α)} (h : tableRises t = true) (a : Nat) (v : α) :
    lookupAt t a = some v ↔ (a, v) ∈ t := by
  rw [tableRises_iff] at h
  induction t with
  | nil => simp
  | cons p t ih =>
    have hp := (List.pairwise_cons.1 h).1
    rw [lookupAt_cons, List.mem_cons]
    split_ifs with ha
    · constructor
      · rintro h'; exact .inl (by cases p; simp_all)
      · rintro (rfl | h')
        · rfl
        · have := hp _ h'; simp at this; omega
    · rw [ih (List.pairwise_cons.1 h).2]
      constructor
      · exact .inr
      · rintro (rfl | h')
        · exact absurd rfl ha
        · exact h'

/-- Two rising tables that look up the same are the same list. -/
theorem table_ext {t u : List (Nat × α)} (ht : tableRises t = true) (hu : tableRises u = true)
    (h : ∀ a, lookupAt t a = lookupAt u a) : t = u := by
  have hmem : ∀ p, p ∈ t ↔ p ∈ u := fun p => by
    rw [← lookupAt_eq_some_iff ht p.1 p.2, ← lookupAt_eq_some_iff hu p.1 p.2, h]
  have nodup : ∀ {l : List (Nat × α)}, tableRises l = true → l.Nodup := fun hl =>
    ((tableRises_iff _).1 hl).imp fun h e => by subst e; exact lt_irrefl _ h
  have perm : t.Perm u := (List.perm_ext_iff_of_nodup (nodup ht) (nodup hu)).2 hmem
  refine perm.eq_of_pairwise (le := fun p q => p.1 < q.1) ?_
    ((tableRises_iff _).1 ht) ((tableRises_iff _).1 hu)
  intro a b _ _ hab hba
  omega

/-! ### The counter RAM -/

@[simp] theorem memRead_memClear (j : Nat) : memRead memClear j = 0x00#8 := rfl

@[simp] theorem memRead_nil (j : Nat) : memRead [] j = 0x00#8 := rfl

/-- A read after a write to the same byte gives the value written. -/
@[simp] theorem memRead_memWrite_same (mem : List Host.Cell) (j : Nat) (v : Byte) :
    memRead (memWrite mem j v) j = v := by
  unfold memRead memWrite
  split_ifs with h
  · rw [lookupAt_dropAt_same]; exact h.symm
  · rw [lookupAt_putAt_same]; rfl

/-- A write leaves every other byte alone. -/
theorem memRead_memWrite_other (mem : List Host.Cell) {j j' : Nat} (v : Byte) (h : j' ≠ j) :
    memRead (memWrite mem j v) j' = memRead mem j' := by
  unfold memRead memWrite
  split_ifs with hv
  · rw [lookupAt_dropAt_other _ h]
  · rw [lookupAt_putAt_other _ _ h]

theorem memRead_memWrite (mem : List Host.Cell) (j j' : Nat) (v : Byte) :
    memRead (memWrite mem j v) j' = if j' = j then v else memRead mem j' := by
  split_ifs with h
  · subst h; exact memRead_memWrite_same _ _ _
  · exact memRead_memWrite_other _ _ h

theorem memWf_iff (mem : List Host.Cell) :
    memWf mem = true ↔ tableRises mem = true ∧ ∀ p ∈ mem, p.2 ≠ unlistedByte := by
  simp [memWf]

theorem memWf_memClear : memWf memClear = true := rfl

/-- A write keeps the canonical form. -/
theorem memWf_memWrite {mem : List Host.Cell} (j : Nat) (v : Byte) (h : memWf mem = true) :
    memWf (memWrite mem j v) = true := by
  rw [memWf_iff] at h ⊢
  unfold memWrite
  split_ifs with hv
  · exact ⟨tableRises_dropAt j h.1, fun p hp => h.2 p (List.mem_filter.1 hp).1⟩
  · refine ⟨tableRises_putAt j v h.1, fun p hp => ?_⟩
    rcases mem_putAt hp with rfl | hp
    · exact hv
    · exact h.2 p hp

/-- In canonical form, equal memories are equal data. -/
theorem mem_ext {x y : List Host.Cell} (hx : memWf x = true) (hy : memWf y = true)
    (h : ∀ j, memRead x j = memRead y j) : x = y := by
  rw [memWf_iff] at hx hy
  refine table_ext hx.1 hy.1 fun a => ?_
  have key : ∀ {m : List Host.Cell}, (tableRises m = true ∧ ∀ p ∈ m, p.2 ≠ unlistedByte) →
      lookupAt m a = if memRead m a = unlistedByte then none else some (memRead m a) := by
    intro m hm
    unfold memRead
    cases hl : lookupAt m a with
    | none => simp
    | some v =>
      have := hm.2 _ ((lookupAt_eq_some_iff hm.1 a v).1 hl)
      simpa using this
  rw [key hx, key hy, h a]

end Sys2Proof.Machine
end

