-- ==== Sys2Proof/Laws/Counter.lean ====
section
/-! SUPPORT. The laws of the counter primitives and of the update loops (spec rules R181 to R185, R190, R250 to R252):
what each does to every counter, every byte and every other field, and how many events it has. -/

namespace Sys2Proof.Machine

/-! ### The nibbles of a byte -/

/-- The nibble of slot i in a byte. -/
def nibbleOf (b : Byte) (i : Nat) : Nibble :=
  ((b >>> nibbleOffset i) &&& 0x0F#8).setWidth 4

theorem counter_eq (s : State) (i : Nat) : counter s i = nibbleOf (memRead s.cram (i / 2)) i := rfl

theorem nibbleOf_congr (b : Byte) {i j : Nat} (h : i % 2 = j % 2) : nibbleOf b i = nibbleOf b j := by
  simp [nibbleOf, nibbleOffset, h]

theorem withNibble_congr (b : Byte) {i j : Nat} (v : Nibble) (h : i % 2 = j % 2) :
    withNibble b i v = withNibble b j v := by
  simp [withNibble, nibbleOffset, h]

theorem nibbleOf_withNibble_same (b : Byte) (i : Nat) (v : Nibble) : nibbleOf (withNibble b i v) i = v := by
  rcases Nat.mod_two_eq_zero_or_one i with h | h
  · rw [nibbleOf_congr _ (j := 0) (by simpa using h), withNibble_congr _ (j := 0) v (by simpa using h)]
    revert b v; decide
  · rw [nibbleOf_congr _ (j := 1) (by simpa using h), withNibble_congr _ (j := 1) v (by simpa using h)]
    revert b v; decide

theorem nibbleOf_withNibble_other (b : Byte) {i j : Nat} (v : Nibble) (hij : i % 2 ≠ j % 2) :
    nibbleOf (withNibble b i v) j = nibbleOf b j := by
  rcases Nat.mod_two_eq_zero_or_one i with h | h
  · have hj : j % 2 = 1 := by omega
    rw [nibbleOf_congr _ (j := 1) (by simpa using hj), withNibble_congr _ (j := 0) v (by simpa using h),
      nibbleOf_congr b (j := 1) (by simpa using hj)]
    revert b v; decide
  · have hj : j % 2 = 0 := by omega
    rw [nibbleOf_congr _ (j := 0) (by simpa using hj), withNibble_congr _ (j := 1) v (by simpa using h),
      nibbleOf_congr b (j := 0) (by simpa using hj)]
    revert b v; decide

/-- A byte is its two counters: the even slot in bits [3:0], the odd slot in bits [7:4] (R67). -/
theorem byte_eq_nibbles (b : Byte) (j : Nat) : b = nibbleOf b (2 * j + 1) ++ nibbleOf b (2 * j) := by
  rw [nibbleOf_congr b (j := 1) (by omega), nibbleOf_congr b (i := 2 * j) (j := 0) (by omega)]
  revert b; decide

theorem memRead_eq_counters (s : State) (j : Nat) :
    memRead s.cram j = counter s (2 * j + 1) ++ counter s (2 * j) := by
  have h₁ : (2 * j + 1) / 2 = j := by omega
  have h₂ : 2 * j / 2 = j := by omega
  rw [counter_eq, counter_eq, h₁, h₂]
  exact byte_eq_nibbles _ j

/-! ### Counter reads and writes -/

theorem counter_congr {s t : State} (h : t.cram = s.cram) (i : Nat) : counter t i = counter s i := by
  rw [counter_eq, counter_eq, h]

@[simp] theorem counter_setCounter_same (s : State) (i : Nat) (v : Nibble) :
    counter (setCounter s i v) i = v := by
  rw [counter_eq, setCounter_cram, memRead_memWrite_same]
  exact nibbleOf_withNibble_same _ _ _

theorem counter_setCounter_other (s : State) {i j : Nat} (v : Nibble) (h : j ≠ i) :
    counter (setCounter s i v) j = counter s j := by
  rw [counter_eq, setCounter_cram, memRead_memWrite, counter_eq]
  split_ifs with hb
  · rw [nibbleOf_withNibble_other _ v (by omega), hb]
  · rfl

theorem counter_setCounter (s : State) (i j : Nat) (v : Nibble) :
    counter (setCounter s i v) j = if j = i then v else counter s j := by
  split_ifs with h
  · subst h; exact counter_setCounter_same _ _ _
  · exact counter_setCounter_other _ _ h

/-- A counter write changes one byte at most. -/
theorem memRead_setCounter_other (s : State) {i a : Nat} (v : Nibble) (h : a ≠ i / 2) :
    memRead (setCounter s i v).cram a = memRead s.cram a := by
  rw [setCounter_cram, memRead_memWrite_other _ _ h]

/-- The state but for the counter RAM. -/
def SameButCram (s t : State) : Prop :=
  t = { s with cram := t.cram }

theorem SameButCram.refl (s : State) : SameButCram s s := rfl

theorem SameButCram.trans {s t u : State} (h : SameButCram s t) (h' : SameButCram t u) : SameButCram s u := by
  unfold SameButCram at *
  rw [h'] at *
  rw [h]

theorem sameButCram_setCounter (s : State) (i : Nat) (v : Nibble) : SameButCram s (setCounter s i v) := rfl

/-! ### inc and dec -/

/-- A 4-bit counter's value after `inc`. -/
def incValue (v : Nat) : Nat := min (v + 1) 15

/-- A 4-bit counter's value after `dec`. -/
def decValue (pol : Bool) (v : Nat) : Nat := if pol then v - 1 else max (v - 1) 1

theorem increment_eq (s : State) (i : Nat) :
    increment s i = (setCounter s i (BitVec.ofNat 4 (incValue (counter s i).toNat)),
      if (counter s i).toNat = 15 then 1 else 0) := by
  have pull : increment s i = (fun p : Nibble × Nat => (setCounter s i p.1, p.2))
      (if counter s i < 15#4 then (counter s i + 1#4, 0) else (15#4, 1)) := by
    unfold increment; split_ifs <;> rfl
  have table : ∀ v : Nibble, (if v < 15#4 then (v + 1#4, 0) else (15#4, 1)) =
      (BitVec.ofNat 4 (incValue v.toNat), if v.toNat = 15 then 1 else 0) := by decide
  rw [pull, table]

theorem decrement_eq (s : State) (pol : Bool) (i : Nat) :
    decrement s pol i = (setCounter s i (BitVec.ofNat 4 (decValue pol (counter s i).toNat)),
      if (counter s i).toNat ≤ (if pol then 0 else 1) then 1 else 0) := by
  have pull : decrement s pol i = (fun p : Nibble × Nat => (setCounter s i p.1, p.2))
      (if pol then (if 0#4 < counter s i then (counter s i - 1#4, 0) else (0#4, 1))
       else (if 1#4 < counter s i then (counter s i - 1#4, 0) else (1#4, 1))) := by
    unfold decrement; split_ifs <;> rfl
  have table : ∀ (pol : Bool) (v : Nibble),
      (if pol then (if 0#4 < v then (v - 1#4, 0) else (0#4, 1))
       else (if 1#4 < v then (v - 1#4, 0) else (1#4, 1))) =
      (BitVec.ofNat 4 (decValue pol v.toNat), if v.toNat ≤ (if pol then 0 else 1) then 1 else 0) := by decide
  rw [pull, table]

theorem counter_lt (s : State) (i : Nat) : (counter s i).toNat < 16 := (counter s i).isLt

theorem toNat_incValue (v : Nibble) : (BitVec.ofNat 4 (incValue v.toNat)).toNat = incValue v.toNat := by
  revert v; decide

theorem toNat_decValue (pol : Bool) (v : Nibble) :
    (BitVec.ofNat 4 (decValue pol v.toNat)).toNat = decValue pol v.toNat := by
  revert v; cases pol <;> decide

/-- What `inc(i)` does to every counter. -/
theorem counter_increment (s : State) (i j : Nat) :
    (counter (increment s i).1 j).toNat = if j = i then incValue (counter s i).toNat else (counter s j).toNat := by
  rw [increment_eq]
  simp only [counter_setCounter]
  split_ifs with h
  · exact toNat_incValue _
  · rfl

/-- What `dec(i, pol)` does to every counter. -/
theorem counter_decrement (s : State) (pol : Bool) (i j : Nat) :
    (counter (decrement s pol i).1 j).toNat =
      if j = i then decValue pol (counter s i).toNat else (counter s j).toNat := by
  rw [decrement_eq]
  simp only [counter_setCounter]
  split_ifs with h
  · exact toNat_decValue _ _
  · rfl

theorem sameButCram_increment (s : State) (i : Nat) : SameButCram s (increment s i).1 := by
  rw [increment_eq]; exact sameButCram_setCounter _ _ _

theorem sameButCram_decrement (s : State) (pol : Bool) (i : Nat) : SameButCram s (decrement s pol i).1 := by
  rw [decrement_eq]; exact sameButCram_setCounter _ _ _

/-- Every increment raises its counter by 1 or is a saturation event. -/
theorem increment_events (s : State) (i : Nat) :
    (counter (increment s i).1 i).toNat + (increment s i).2 = (counter s i).toNat + 1 := by
  have := counter_lt s i
  rw [counter_increment, increment_eq, if_pos rfl]
  simp only [incValue]
  split_ifs <;> omega

/-- Every decrement lowers its counter by 1 or is a floor event, but for the decrement of 0 under the floor at 1. -/
theorem decrement_events (s : State) (pol : Bool) (i : Nat) (h : pol = false → counter s i ≠ 0#4) :
    (counter (decrement s pol i).1 i).toNat + 1 = (counter s i).toNat + (decrement s pol i).2 := by
  rw [counter_decrement, decrement_eq, if_pos rfl]
  cases pol
  · have h0 : (counter s i).toNat ≠ 0 := fun e => h rfl (BitVec.eq_of_toNat_eq (by simpa using e))
    simp only [decValue, Bool.false_eq_true, if_false]
    split_ifs <;> omega
  · simp only [decValue, if_true]
    split_ifs <;> omega

/-! ### The loop of INSERT -/

@[simp] theorem incrementAll_nil (s : State) : incrementAll s [] = (s, 0) := rfl

theorem incrementAll_cons (s : State) (i : Nat) (S : List Nat) :
    incrementAll s (i :: S) = ((incrementAll (increment s i).1 S).1,
      (increment s i).2 + (incrementAll (increment s i).1 S).2) := rfl

theorem sameButCram_incrementAll (S : List Nat) (s : State) : SameButCram s (incrementAll s S).1 := by
  induction S generalizing s with
  | nil => exact .refl s
  | cons i S ih => exact (sameButCram_increment s i).trans (ih _)

/-- Each entry of the list raises its counter by 1, up to 15. -/
theorem counter_incrementAll (S : List Nat) (s : State) (j : Nat) :
    (counter (incrementAll s S).1 j).toNat = min ((counter s j).toNat + S.count j) 15 := by
  induction S generalizing s with
  | nil => have := counter_lt s j; simp; omega
  | cons i S ih =>
    rw [incrementAll_cons, ih, counter_increment, List.count_cons]
    by_cases h : j = i
    · subst h; simp [incValue]; omega
    · simp [h, Ne.symm h]

/-- Every entry raises its counter or is a saturation event: the events are the entries less the total rise. -/
theorem incrementAll_events (S : List Nat) (s : State) {m : Nat} (hS : ∀ i ∈ S, i < m) :
    (∑ j ∈ Finset.range m, (counter (incrementAll s S).1 j).toNat) + (incrementAll s S).2 =
      (∑ j ∈ Finset.range m, (counter s j).toNat) + S.length := by
  induction S generalizing s with
  | nil => simp
  | cons i S ih =>
    have hi : i ∈ Finset.range m := Finset.mem_range.2 (hS i (by simp))
    have h₁ := ih (increment s i).1 fun j hj => hS j (by simp [hj])
    have h₂ : (∑ j ∈ Finset.range m, (counter (increment s i).1 j).toNat) + (increment s i).2 =
        (∑ j ∈ Finset.range m, (counter s j).toNat) + 1 := by
      rw [← Finset.add_sum_erase _ _ hi, ← Finset.add_sum_erase _ (fun j => (counter s j).toNat) hi]
      have hr : ∑ j ∈ (Finset.range m).erase i, (counter (increment s i).1 j).toNat =
          ∑ j ∈ (Finset.range m).erase i, (counter s j).toNat :=
        Finset.sum_congr rfl fun j hj => by
          rw [counter_increment, if_neg (Finset.ne_of_mem_erase hj)]
      have := increment_events s i
      omega
    rw [incrementAll_cons, List.length_cons]
    dsimp only
    omega

/-- A byte that holds no slot of the list is not changed. -/
theorem memRead_incrementAll_other (S : List Nat) (s : State) {a : Nat} (h : ∀ i ∈ S, i / 2 ≠ a) :
    memRead (incrementAll s S).1.cram a = memRead s.cram a := by
  induction S generalizing s with
  | nil => rfl
  | cons i S ih =>
    rw [incrementAll_cons]
    dsimp only
    rw [ih _ fun j hj => h j (by simp [hj]), increment_eq]
    exact memRead_setCounter_other _ _ (Ne.symm (h i (by simp)))

/-! ### The loop of DELETE -/

@[simp] theorem decrementAll_nil (s : State) (pol : Bool) : decrementAll s pol [] = (s, 0) := rfl

theorem decrementAll_cons (s : State) (pol : Bool) (i : Nat) (S : List Nat) :
    decrementAll s pol (i :: S) = ((decrementAll (decrement s pol i).1 pol S).1,
      (decrement s pol i).2 + (decrementAll (decrement s pol i).1 pol S).2) := rfl

theorem sameButCram_decrementAll (pol : Bool) (S : List Nat) (s : State) :
    SameButCram s (decrementAll s pol S).1 := by
  induction S generalizing s with
  | nil => exact .refl s
  | cons i S ih => exact (sameButCram_decrement s pol i).trans (ih _)

/-- Each entry of the list lowers its counter by 1, down to the floor. -/
theorem counter_decrementAll (pol : Bool) (S : List Nat) (s : State) (j : Nat) :
    (counter (decrementAll s pol S).1 j).toNat =
      if S.count j = 0 then (counter s j).toNat
      else if pol then (counter s j).toNat - S.count j else max ((counter s j).toNat - S.count j) 1 := by
  induction S generalizing s with
  | nil => simp
  | cons i S ih =>
    rw [decrementAll_cons, ih, counter_decrement, List.count_cons]
    by_cases h : j = i
    · subst h
      cases pol
      · simp [decValue]
        split_ifs <;> omega
      · simp [decValue]
        split_ifs <;> omega
    · simp [h, Ne.symm h]

/-- Under the floor at 1, no decrement leaves a counter at 0. -/
theorem counter_decrement_ne_zero {s : State} {i j : Nat} (h : counter s j ≠ 0#4) :
    counter (decrement s false i).1 j ≠ 0#4 := fun e => by
  have e' := congrArg BitVec.toNat e
  have hn : (counter s j).toNat ≠ 0 := fun e => h (BitVec.eq_of_toNat_eq (by simpa using e))
  rw [counter_decrement] at e'
  simp only [decValue, Bool.false_eq_true, if_false] at e'
  split_ifs at e'
  · simp at e'
  · simp at e'
    omega

/-- Every entry lowers its counter or is a floor event: the events are the entries less the total fall.
Under the floor at 1 this asks for counters that are not 0, which DELETE has checked. -/
theorem decrementAll_events (pol : Bool) (S : List Nat) (s : State) {m : Nat} (hS : ∀ i ∈ S, i < m)
    (h0 : pol = false → ∀ i ∈ S, counter s i ≠ 0#4) :
    (∑ j ∈ Finset.range m, (counter (decrementAll s pol S).1 j).toNat) + S.length =
      (∑ j ∈ Finset.range m, (counter s j).toNat) + (decrementAll s pol S).2 := by
  induction S generalizing s with
  | nil => simp
  | cons i S ih =>
    have hi : i ∈ Finset.range m := Finset.mem_range.2 (hS i (by simp))
    have hz : pol = false → ∀ j ∈ S, counter (decrement s pol i).1 j ≠ 0#4 := by
      rintro rfl j hj
      exact counter_decrement_ne_zero (h0 rfl j (by simp [hj]))
    have h₁ := ih (decrement s pol i).1 (fun j hj => hS j (by simp [hj])) hz
    have h₂ : (∑ j ∈ Finset.range m, (counter (decrement s pol i).1 j).toNat) + 1 =
        (∑ j ∈ Finset.range m, (counter s j).toNat) + (decrement s pol i).2 := by
      rw [← Finset.add_sum_erase _ _ hi, ← Finset.add_sum_erase _ (fun j => (counter s j).toNat) hi]
      have hr : ∑ j ∈ (Finset.range m).erase i, (counter (decrement s pol i).1 j).toNat =
          ∑ j ∈ (Finset.range m).erase i, (counter s j).toNat :=
        Finset.sum_congr rfl fun j hj => by
          rw [counter_decrement, if_neg (Finset.ne_of_mem_erase hj)]
      have := decrement_events s pol i fun hp => h0 hp i (by simp)
      omega
    rw [decrementAll_cons, List.length_cons]
    dsimp only
    omega

/-- A byte that holds no slot of the list is not changed. -/
theorem memRead_decrementAll_other (pol : Bool) (S : List Nat) (s : State) {a : Nat} (h : ∀ i ∈ S, i / 2 ≠ a) :
    memRead (decrementAll s pol S).1.cram a = memRead s.cram a := by
  induction S generalizing s with
  | nil => rfl
  | cons i S ih =>
    rw [decrementAll_cons]
    dsimp only
    rw [ih _ fun j hj => h j (by simp [hj]), decrement_eq]
    exact memRead_setCounter_other _ _ (Ne.symm (h i (by simp)))

/-! ### The canonical form through the updates -/

theorem memWf_setCounter {s : State} (i : Nat) (v : Nibble) (h : memWf s.cram = true) :
    memWf (setCounter s i v).cram = true :=
  memWf_memWrite _ _ h

theorem memWf_increment {s : State} (i : Nat) (h : memWf s.cram = true) : memWf (increment s i).1.cram = true := by
  rw [increment_eq]; exact memWf_setCounter _ _ h

theorem memWf_decrement {s : State} (pol : Bool) (i : Nat) (h : memWf s.cram = true) :
    memWf (decrement s pol i).1.cram = true := by
  rw [decrement_eq]; exact memWf_setCounter _ _ h

theorem memWf_incrementAll (S : List Nat) {s : State} (h : memWf s.cram = true) :
    memWf (incrementAll s S).1.cram = true := by
  induction S generalizing s with
  | nil => exact h
  | cons i S ih => exact ih (memWf_increment i h)

theorem memWf_decrementAll (pol : Bool) (S : List Nat) {s : State} (h : memWf s.cram = true) :
    memWf (decrementAll s pol S).1.cram = true := by
  induction S generalizing s with
  | nil => exact h
  | cons i S ih => exact ih (memWf_decrement pol i h)

/-! ### The lookup value -/

/-- `leastOf` of a non-empty list is an element of it, and no element is less. -/
theorem leastOf_spec : ∀ {l : List Nat}, l ≠ [] → leastOf l ∈ l ∧ ∀ a ∈ l, leastOf l ≤ a
  | [], h => absurd rfl h
  | [a], _ => by simp [leastOf]
  | a :: b :: l, _ => by
    obtain ⟨hm, hle⟩ := leastOf_spec (l := b :: l) (by simp)
    constructor
    · simp only [leastOf]
      rcases min_choice a (leastOf (b :: l)) with h | h <;> rw [h]
      · simp
      · exact List.mem_cons_of_mem _ hm
    · intro x hx
      simp only [leastOf]
      rcases List.mem_cons.1 hx with rfl | hx
      · exact min_le_left _ _
      · exact (min_le_right _ _).trans (hle x hx)

/-- The short-circuit does not change the value (R250): the lookup value is the least counter of the list. -/
theorem lookupValue_spec (s : State) {S : List Nat} (h : S ≠ []) :
    (∃ i ∈ S, lookupValue s S = (counter s i).toNat) ∧ ∀ i ∈ S, lookupValue s S ≤ (counter s i).toNat := by
  unfold lookupValue
  split_ifs with hz
  · obtain ⟨i, hi, hv⟩ := List.any_eq_true.1 hz
    exact ⟨⟨i, hi, by simp [eq_of_beq hv]⟩, fun _ _ => Nat.zero_le _⟩
  · obtain ⟨hm, hle⟩ := leastOf_spec (l := S.map fun i => (counter s i).toNat) (by simpa using h)
    obtain ⟨i, hi, e⟩ := List.mem_map.1 hm
    exact ⟨⟨i, hi, e.symm⟩, fun i hi => hle _ (List.mem_map.2 ⟨i, hi, rfl⟩)⟩

theorem lookupValue_congr {s t : State} (S : List Nat) (h : ∀ i ∈ S, counter t i = counter s i) :
    lookupValue t S = lookupValue s S := by
  unfold lookupValue
  have h₁ : (S.any fun i => counter t i == 0#4) = S.any fun i => counter s i == 0#4 := by
    rw [Bool.eq_iff_iff, List.any_eq_true, List.any_eq_true]
    exact ⟨fun ⟨i, hi, e⟩ => ⟨i, hi, by rwa [← h i hi]⟩, fun ⟨i, hi, e⟩ => ⟨i, hi, by rwa [h i hi]⟩⟩
  have h₂ : (S.map fun i => (counter t i).toNat) = S.map fun i => (counter s i).toNat :=
    List.map_congr_left fun i hi => by rw [h i hi]
  rw [h₁, h₂]

/-- The lookup value is at most 15 (R250, R254 law 4). -/
theorem lookupValue_le (s : State) (S : List Nat) : lookupValue s S ≤ 15 := by
  by_cases h : S = []
  · subst h; simp [lookupValue, leastOf]
  · obtain ⟨⟨i, _, e⟩, _⟩ := lookupValue_spec s h
    have := counter_lt s i
    omega

/-- The lookup value is 0 exactly when some counter of the list is 0. -/
theorem lookupValue_eq_zero_iff (s : State) {S : List Nat} (h : S ≠ []) :
    lookupValue s S = 0 ↔ ∃ i ∈ S, counter s i = 0#4 := by
  obtain ⟨⟨i, hi, e⟩, hle⟩ := lookupValue_spec s h
  constructor
  · intro h0
    exact ⟨i, hi, BitVec.eq_of_toNat_eq (by simpa [h0] using e.symm)⟩
  · rintro ⟨j, hj, e0⟩
    have := hle j hj
    rw [e0] at this
    simpa using this

/-- The lookup value is at least v exactly when every counter of the list is. -/
theorem le_lookupValue_iff (s : State) {S : List Nat} (h : S ≠ []) (v : Nat) :
    v ≤ lookupValue s S ↔ ∀ i ∈ S, v ≤ (counter s i).toNat := by
  obtain ⟨⟨i, hi, e⟩, hle⟩ := lookupValue_spec s h
  exact ⟨fun hv j hj => hv.trans (hle j hj), fun hv => e ▸ hv i hi⟩

end Sys2Proof.Machine
end

