-- ==== Sys2Proof/Laws/Commands.lean ====
section
/-! SUPPORT. What a command can do: the shared check ladders, and for each command the one way it goes when its checks
pass and the next states it can answer (spec rules R129, R282, R289). -/

namespace Sys2Proof.Machine

/-! ### The completion -/

@[simp] theorem countEvents_zero (cnt : Word) : countEvents cnt 0 = cnt := by
  have := cnt.isLt
  unfold countEvents
  rw [Nat.add_zero, min_eq_left (by omega), BitVec.ofNat_toNat, BitVec.setWidth_eq]

/-- A completion without an event writes STATUS and RESULT alone. -/
theorem complete_quiet (s : State) (result : Nat) :
    complete s result 0 0 = { s with
      status := { configured := s.status.configured, err := .noError, sat := false, floor := false }
      result := BitVec.ofNat 32 result } := by
  simp [complete]

/-! ### The check ladder -/

@[simp] theorem firstError_nil : firstError [] = none := rfl

theorem firstError_cons (b : Bool) (e : ErrCode) (l : List (Bool × ErrCode)) :
    firstError ((b, e) :: l) = if b then some e else firstError l := rfl

/-- No condition of the ladder holds exactly when none is reported. -/
theorem firstError_eq_none_iff {l : List (Bool × ErrCode)} : firstError l = none ↔ ∀ p ∈ l, p.1 = false := by
  induction l with
  | nil => simp
  | cons p l ih => obtain ⟨b, e⟩ := p; cases b <;> simp [firstError_cons, ih]

/-- The ladder passes: the body runs. -/
theorem afterChecks_pass {l : List (Bool × ErrCode)} (s : State) (body : Result) (h : firstError l = none) :
    afterChecks l s body = body := by
  simp [afterChecks, h]

/-- The ladder reports: the command fails with that code. -/
theorem afterChecks_fail {l : List (Bool × ErrCode)} (s : State) (body : Result) {e : ErrCode}
    (h : firstError l = some e) : afterChecks l s body = .next (cmdError s e) := by
  simp [afterChecks, h]

/-- What a checked command can answer: its error, or its body with every check passed. -/
theorem afterChecks_cases {l : List (Bool × ErrCode)} {s : State} {body : Result} {o : Result}
    (h : afterChecks l s body = o) :
    (∃ e, firstError l = some e ∧ o = .next (cmdError s e)) ∨ (firstError l = none ∧ o = body) := by
  unfold afterChecks at h
  split at h
  · exact .inl ⟨_, ‹_›, h.symm⟩
  · exact .inr ⟨‹_›, h.symm⟩

theorem slotsInRange_iff (c : Config) (s : State) :
    slotsInRange c s = true ↔ 1 ≤ s.m.toNat ∧ s.m.toNat ≤ c.mMax := by
  simp [slotsInRange]

theorem instanceInRange_iff (c : Config) (s : State) :
    instanceInRange c s = true ↔
      1 ≤ s.m.toNat ∧ s.m.toNat ≤ c.mMax ∧ 1 ≤ s.k.toNat ∧ s.k.toNat ≤ c.kMax := by
  simp [instanceInRange, slotsInRange, seedsInRange, and_assoc]

theorem slotsInRange_of_instanceInRange {c : Config} {s : State} (h : instanceInRange c s = true) :
    slotsInRange c s = true := by
  rw [instanceInRange_iff] at h
  exact (slotsInRange_iff c s).2 ⟨h.1, h.2.1⟩

theorem onSlots_pass {c : Config} {s : State} (body : Result) (h : slotsInRange c s = true) :
    onSlots c s body = body := by
  simp [onSlots, h]

theorem onSlots_next {c : Config} {s t : State} {body : Result} (h : onSlots c s body = .next t) :
    slotsInRange c s = true ∧ body = .next t := by
  unfold onSlots at h
  split at h
  · exact ⟨‹_›, h⟩
  · cases h

theorem onInstance_pass {c : Config} {s : State} (body : Result) (h : instanceInRange c s = true) :
    onInstance c s body = body := by
  simp [onInstance, h]

theorem onInstance_next {c : Config} {s t : State} {body : Result} (h : onInstance c s body = .next t) :
    instanceInRange c s = true ∧ body = .next t := by
  unfold onInstance at h
  split at h
  · exact ⟨‹_›, h⟩
  · cases h

/-! ### The operands that may be unwritten -/

theorem isWritten_eq_false_iff (t : List (Nat × Word)) (w : Nat) : isWritten t w = false ↔ lookupAt t w = none := by
  simp [isWritten]

theorem isWritten_iff (t : List (Nat × Word)) (w : Nat) : isWritten t w = true ↔ lookupAt t w ≠ none := by
  simp [isWritten, Option.isSome_iff_ne_none]

theorem wordAt_of_lookupAt {t : List (Nat × Word)} {w : Nat} {v : Word} (h : lookupAt t w = some v) :
    wordAt t w = v := by
  simp [wordAt, h]

theorem firstUnwritten_eq_none_iff (t : List (Nat × Word)) (count : Nat) :
    firstUnwritten t count = none ↔ ∀ w < count, lookupAt t w ≠ none := by
  simp [firstUnwritten, isWritten]

/-- The reported word is the first unwritten one. -/
theorem firstUnwritten_eq_some {t : List (Nat × Word)} {count w : Nat} (h : firstUnwritten t count = some w) :
    w < count ∧ lookupAt t w = none ∧ ∀ v < w, lookupAt t v ≠ none := by
  obtain ⟨h₁, l₁, l₂, hl, h₂⟩ := List.find?_eq_some_iff_append.1 h
  have hw : w < count := List.mem_range.1 (by rw [hl]; simp)
  refine ⟨hw, by simpa [isWritten] using h₁, fun v hv => ?_⟩
  have hmem : v ∈ l₁ := by
    have hsorted : (List.range count).Pairwise (· < ·) := List.pairwise_lt_range
    have hv' : v ∈ l₁ ++ w :: l₂ := hl ▸ List.mem_range.2 (hv.trans hw)
    rw [hl] at hsorted
    rcases List.mem_append.1 hv' with h | h
    · exact h
    · rcases List.mem_cons.1 h with rfl | h
      · exact absurd hv (lt_irrefl _)
      · have := (List.pairwise_cons.1 (List.pairwise_append.1 hsorted).2.1).1 v h
        omega
  simpa [isWritten, Option.isSome_iff_ne_none] using h₂ v hmem

theorem keyWordsUsed_lt_iff (s : State) (w : Nat) : w < keyWordsUsed s ↔ 4 * w < s.keyLen.toNat := by
  unfold keyWordsUsed ceilDiv; omega

theorem onKey_pass {s : State} (body : List Byte → Result)
    (h : ∀ w, 4 * w < s.keyLen.toNat → lookupAt s.key w ≠ none) : onKey s body = body (keyBytes s) := by
  have : firstUnwritten s.key (keyWordsUsed s) = none :=
    (firstUnwritten_eq_none_iff _ _).2 fun w hw => h w ((keyWordsUsed_lt_iff s w).1 hw)
  simp [onKey, this]

theorem onKey_next {s t : State} {body : List Byte → Result} (h : onKey s body = .next t) :
    (∀ w, 4 * w < s.keyLen.toNat → lookupAt s.key w ≠ none) ∧ body (keyBytes s) = .next t := by
  unfold onKey at h
  split at h
  · cases h
  · rename_i hf
    exact ⟨fun w hw => (firstUnwritten_eq_none_iff _ _).1 hf w ((keyWordsUsed_lt_iff s w).2 hw), h⟩

theorem onDigest_pass {c : Config} {s : State} (body : Nat → Result)
    (h : ∀ w < c.digestWords, lookupAt s.digest w ≠ none) :
    onDigest c s body = body (digestSum s c.digestWords) := by
  have : firstUnwritten s.digest c.digestWords = none := (firstUnwritten_eq_none_iff _ _).2 h
  simp [onDigest, this]

theorem onDigest_next {c : Config} {s t : State} {body : Nat → Result} (h : onDigest c s body = .next t) :
    (∀ w < c.digestWords, lookupAt s.digest w ≠ none) ∧ body (digestSum s c.digestWords) = .next t := by
  unfold onDigest at h
  split at h
  · cases h
  · exact ⟨(firstUnwritten_eq_none_iff _ _).1 ‹_›, h⟩

@[simp] theorem keyBytes_length (s : State) : (keyBytes s).length = s.keyLen.toNat := by
  simp [keyBytes]

/-! ### The slots -/

@[simp] theorem slotsOf_length (c : Config) (s : State) (x : List Byte) : (slotsOf c s x).length = s.k.toNat := by
  simp [slotsOf]

theorem slotsOf_ne_nil {c : Config} {s : State} (x : List Byte) (h : 1 ≤ s.k.toNat) : slotsOf c s x ≠ [] := by
  intro e
  have := slotsOf_length c s x
  rw [e] at this
  simp at this
  omega

theorem mem_slotsOf_lt {c : Config} {s : State} {x : List Byte} (h : 1 ≤ s.m.toNat) :
    ∀ i ∈ slotsOf c s x, i < s.m.toNat := by
  intro i hi
  obtain ⟨j, _, rfl⟩ := List.mem_map.1 hi
  exact Nat.mod_lt _ (by omega)

theorem slotsOf_congr {c : Config} {s t : State} (x : List Byte) (hm : t.m = s.m) (hk : t.k = s.k) :
    slotsOf c t x = slotsOf c s x := by
  simp [slotsOf, slotOf, hm, hk]

/-! ### What each command answers -/

theorem readSlotAt_next {c : Config} {s t : State} (h : readSlotAt c s = .next t) :
    (∃ e, firstError (readSlotChecks s) = some e ∧ t = cmdError s e) ∨
    (firstError (readSlotChecks s) = none ∧ slotsInRange c s = true ∧
      t = complete s (counter s (argument s)).toNat 0 0) := by
  rcases afterChecks_cases h with ⟨e, he, ho⟩ | ⟨hn, ho⟩
  · exact .inl ⟨e, he, by simpa using ho⟩
  · obtain ⟨hi, hb⟩ := onSlots_next ho.symm
    exact .inr ⟨hn, hi, by simpa using hb.symm⟩

theorem incSlotAt_next {c : Config} {s t : State} (h : incSlotAt c s = .next t) :
    (∃ e, firstError (incSlotChecks s) = some e ∧ t = cmdError s e) ∨
    (firstError (incSlotChecks s) = none ∧ slotsInRange c s = true ∧
      t = complete (increment s (argument s)).1 (counter (increment s (argument s)).1 (argument s)).toNat
        (increment s (argument s)).2 0) := by
  rcases afterChecks_cases h with ⟨e, he, ho⟩ | ⟨hn, ho⟩
  · exact .inl ⟨e, he, by simpa using ho⟩
  · obtain ⟨hi, hb⟩ := onSlots_next ho.symm
    exact .inr ⟨hn, hi, by simpa using hb.symm⟩

theorem decSlotAt_next {c : Config} {s t : State} (h : decSlotAt c s = .next t) :
    (∃ e, firstError (decSlotChecks s) = some e ∧ t = cmdError s e) ∨
    (firstError (decSlotChecks s) = none ∧ slotsInRange c s = true ∧
      t = complete (decrement s s.ctrl.decFloor0 (argument s)).1
        (counter (decrement s s.ctrl.decFloor0 (argument s)).1 (argument s)).toNat
        0 (decrement s s.ctrl.decFloor0 (argument s)).2) := by
  rcases afterChecks_cases h with ⟨e, he, ho⟩ | ⟨hn, ho⟩
  · exact .inl ⟨e, he, by simpa using ho⟩
  · obtain ⟨hi, hb⟩ := onSlots_next ho.symm
    exact .inr ⟨hn, hi, by simpa using hb.symm⟩

theorem readByteAt_next {c : Config} {s t : State} (h : readByteAt c s = .next t) :
    (∃ e, firstError (readByteChecks s) = some e ∧ t = cmdError s e) ∨
    (firstError (readByteChecks s) = none ∧ slotsInRange c s = true ∧
      t = complete s (memRead s.cram (argument s)).toNat 0 0) := by
  rcases afterChecks_cases h with ⟨e, he, ho⟩ | ⟨hn, ho⟩
  · exact .inl ⟨e, he, by simpa using ho⟩
  · obtain ⟨hi, hb⟩ := onSlots_next ho.symm
    exact .inr ⟨hn, hi, by simpa using hb.symm⟩

theorem configureAt_next {c : Config} {s t : State} (h : configureAt c s = .next t) :
    (∃ e, firstError (configureChecks c s) = some e ∧ t = cmdError s e) ∨
    (firstError (configureChecks c s) = none ∧
      t = complete (newInstance s (derive s.n (stagedPattern s))) 0 0 0) := by
  rcases afterChecks_cases h with ⟨e, he, ho⟩ | ⟨hn, ho⟩
  · exact .inl ⟨e, he, by simpa using ho⟩
  · exact .inr ⟨hn, by simpa using ho⟩

/-- CONFIGURE never faults. -/
theorem configureAt_total (c : Config) (s : State) : ∃ t, configureAt c s = .next t := by
  unfold configureAt afterChecks
  split <;> exact ⟨_, rfl⟩

theorem hashSlotAt_next {c : Config} {s t : State} (h : hashSlotAt c s = .next t) :
    (∃ e, firstError (hashSlotChecks c s) = some e ∧ t = cmdError s e) ∨
    (firstError (hashSlotChecks c s) = none ∧ instanceInRange c s = true ∧
      (∀ w, 4 * w < s.keyLen.toNat → lookupAt s.key w ≠ none) ∧
      t = complete s (slotOf c s (keyBytes s) (argument s)) 0 0) := by
  rcases afterChecks_cases h with ⟨e, he, ho⟩ | ⟨hn, ho⟩
  · exact .inl ⟨e, he, by simpa using ho⟩
  · obtain ⟨hi, hb⟩ := onInstance_next ho.symm
    obtain ⟨hw, hb⟩ := onKey_next hb
    exact .inr ⟨hn, hi, hw, by simpa using hb.symm⟩

theorem mapAt_next {c : Config} {s t : State} (h : mapAt c s = .next t) :
    (∃ e, firstError (mapChecks s) = some e ∧ t = cmdError s e) ∨
    (firstError (mapChecks s) = none ∧ slotsInRange c s = true ∧
      (∀ w < c.digestWords, lookupAt s.digest w ≠ none) ∧
      t = complete s (digestSum s c.digestWords % s.m.toNat) 0 0) := by
  rcases afterChecks_cases h with ⟨e, he, ho⟩ | ⟨hn, ho⟩
  · exact .inl ⟨e, he, by simpa using ho⟩
  · obtain ⟨hi, hb⟩ := onSlots_next ho.symm
    obtain ⟨hw, hb⟩ := onDigest_next hb
    exact .inr ⟨hn, hi, hw, by simpa using hb.symm⟩

theorem insertAt_next {c : Config} {s t : State} (h : insertAt c s = .next t) :
    (∃ e, firstError (insertChecks c s) = some e ∧ t = cmdError s e) ∨
    (firstError (insertChecks c s) = none ∧ instanceInRange c s = true ∧
      (∀ w, 4 * w < s.keyLen.toNat → lookupAt s.key w ≠ none) ∧
      t = complete (incrementAll s (slotsOf c s (keyBytes s))).1 0
        (incrementAll s (slotsOf c s (keyBytes s))).2 0) := by
  rcases afterChecks_cases h with ⟨e, he, ho⟩ | ⟨hn, ho⟩
  · exact .inl ⟨e, he, by simpa using ho⟩
  · obtain ⟨hi, hb⟩ := onInstance_next ho.symm
    obtain ⟨hw, hb⟩ := onKey_next hb
    exact .inr ⟨hn, hi, hw, by simpa using hb.symm⟩

theorem deleteAt_next {c : Config} {s t : State} (h : deleteAt c s = .next t) :
    (∃ e, firstError (deleteChecks c s) = some e ∧ t = cmdError s e) ∨
    (firstError (deleteChecks c s) = none ∧ instanceInRange c s = true ∧
      (∀ w, 4 * w < s.keyLen.toNat → lookupAt s.key w ≠ none) ∧
      ((lookupValue s (slotsOf c s (keyBytes s)) = 0 ∧ t = complete s 0 0 0) ∨
       (lookupValue s (slotsOf c s (keyBytes s)) ≠ 0 ∧
        t = complete (decrementAll s s.ctrl.decFloor0 (slotsOf c s (keyBytes s))).1 1 0
          (decrementAll s s.ctrl.decFloor0 (slotsOf c s (keyBytes s))).2))) := by
  rcases afterChecks_cases h with ⟨e, he, ho⟩ | ⟨hn, ho⟩
  · exact .inl ⟨e, he, by simpa using ho⟩
  · obtain ⟨hi, hb⟩ := onInstance_next ho.symm
    obtain ⟨hw, hb⟩ := onKey_next hb
    refine .inr ⟨hn, hi, hw, ?_⟩
    split_ifs at hb with hz
    · exact .inl ⟨hz, by simpa using hb.symm⟩
    · exact .inr ⟨hz, by simpa using hb.symm⟩

theorem lookupCommandAt_next {c : Config} {s t : State} (h : lookupCommandAt c s = .next t) :
    (∃ e, firstError (lookupChecks c s) = some e ∧ t = cmdError s e) ∨
    (firstError (lookupChecks c s) = none ∧ instanceInRange c s = true ∧
      (∀ w, 4 * w < s.keyLen.toNat → lookupAt s.key w ≠ none) ∧
      t = complete s (lookupValue s (slotsOf c s (keyBytes s))) 0 0) := by
  rcases afterChecks_cases h with ⟨e, he, ho⟩ | ⟨hn, ho⟩
  · exact .inl ⟨e, he, by simpa using ho⟩
  · obtain ⟨hi, hb⟩ := onInstance_next ho.symm
    obtain ⟨hw, hb⟩ := onKey_next hb
    exact .inr ⟨hn, hi, hw, by simpa using hb.symm⟩

/-! ### Where each command completes -/

theorem configureAt_runs {c : Config} {s : State} (hv : validInputs s.n (stagedPattern s) = true)
    (ho : overCapacity c (derive s.n (stagedPattern s)) = false) :
    configureAt c s = .next (complete (newInstance s (derive s.n (stagedPattern s))) 0 0 0) :=
  afterChecks_pass s _ (by simp [configureChecks, firstError_cons, hv, ho])

theorem readSlotAt_runs {c : Config} {s : State} (hc : s.status.configured = true)
    (hi : slotsInRange c s = true) (ha : argument s < s.m.toNat) :
    readSlotAt c s = .next (complete s (counter s (argument s)).toNat 0 0) :=
  (afterChecks_pass s _ (by simp [readSlotChecks, firstError_cons, hc, Nat.not_le.2 ha])).trans (onSlots_pass _ hi)

theorem incSlotAt_runs {c : Config} {s : State} (hd : s.ctrl.diagEn = true) (hc : s.status.configured = true)
    (hi : slotsInRange c s = true) (ha : argument s < s.m.toNat) :
    incSlotAt c s = .next (complete (increment s (argument s)).1
      (counter (increment s (argument s)).1 (argument s)).toNat (increment s (argument s)).2 0) :=
  (afterChecks_pass s _ (by simp [incSlotChecks, firstError_cons, hd, hc, Nat.not_le.2 ha])).trans
    (onSlots_pass _ hi)

theorem decSlotAt_runs {c : Config} {s : State} (hd : s.ctrl.diagEn = true) (hc : s.status.configured = true)
    (hi : slotsInRange c s = true) (ha : argument s < s.m.toNat) :
    decSlotAt c s = .next (complete (decrement s s.ctrl.decFloor0 (argument s)).1
      (counter (decrement s s.ctrl.decFloor0 (argument s)).1 (argument s)).toNat 0
      (decrement s s.ctrl.decFloor0 (argument s)).2) :=
  (afterChecks_pass s _ (by simp [decSlotChecks, firstError_cons, hd, hc, Nat.not_le.2 ha])).trans
    (onSlots_pass _ hi)

theorem readByteAt_runs {c : Config} {s : State} (hc : s.status.configured = true)
    (hi : slotsInRange c s = true) (ha : argument s < ceilDiv s.m.toNat 2) :
    readByteAt c s = .next (complete s (memRead s.cram (argument s)).toNat 0 0) :=
  (afterChecks_pass s _ (by simp [readByteChecks, firstError_cons, hc, Nat.not_le.2 ha])).trans (onSlots_pass _ hi)

theorem hashSlotAt_runs {c : Config} {s : State} (hc : s.status.configured = true)
    (hi : instanceInRange c s = true) (hl : s.keyLen.toNat ≤ c.keyMax)
    (hw : ∀ w, 4 * w < s.keyLen.toNat → lookupAt s.key w ≠ none) (h₁ : 1 ≤ argument s)
    (h₂ : argument s ≤ s.k.toNat) :
    hashSlotAt c s = .next (complete s (slotOf c s (keyBytes s) (argument s)) 0 0) :=
  (afterChecks_pass s _ (by
    simp [hashSlotChecks, firstError_cons, hc, Nat.not_lt.2 hl, Nat.not_lt.2 h₁, Nat.not_lt.2 h₂])).trans
    ((onInstance_pass _ hi).trans (onKey_pass _ hw))

theorem mapAt_runs {c : Config} {s : State} (hc : s.status.configured = true) (hi : slotsInRange c s = true)
    (hw : ∀ w < c.digestWords, lookupAt s.digest w ≠ none) :
    mapAt c s = .next (complete s (digestSum s c.digestWords % s.m.toNat) 0 0) :=
  (afterChecks_pass s _ (by simp [mapChecks, firstError_cons, hc])).trans
    ((onSlots_pass _ hi).trans (onDigest_pass _ hw))

theorem insertAt_runs {c : Config} {s : State} (hc : s.status.configured = true) (hi : instanceInRange c s = true)
    (hl : s.keyLen.toNat ≤ c.keyMax) (hw : ∀ w, 4 * w < s.keyLen.toNat → lookupAt s.key w ≠ none) :
    insertAt c s = .next (complete (incrementAll s (slotsOf c s (keyBytes s))).1 0
      (incrementAll s (slotsOf c s (keyBytes s))).2 0) :=
  (afterChecks_pass s _ (by simp [insertChecks, firstError_cons, hc, Nat.not_lt.2 hl])).trans
    ((onInstance_pass _ hi).trans (onKey_pass _ hw))

theorem deleteAt_runs {c : Config} {s : State} (hc : s.status.configured = true) (hi : instanceInRange c s = true)
    (hl : s.keyLen.toNat ≤ c.keyMax) (hw : ∀ w, 4 * w < s.keyLen.toNat → lookupAt s.key w ≠ none) :
    deleteAt c s =
      if lookupValue s (slotsOf c s (keyBytes s)) = 0 then .next (complete s 0 0 0)
      else .next (complete (decrementAll s s.ctrl.decFloor0 (slotsOf c s (keyBytes s))).1 1 0
        (decrementAll s s.ctrl.decFloor0 (slotsOf c s (keyBytes s))).2) :=
  (afterChecks_pass s _ (by simp [deleteChecks, firstError_cons, hc, Nat.not_lt.2 hl])).trans
    ((onInstance_pass _ hi).trans (onKey_pass _ hw))

theorem lookupCommandAt_runs {c : Config} {s : State} (hc : s.status.configured = true)
    (hi : instanceInRange c s = true) (hl : s.keyLen.toNat ≤ c.keyMax)
    (hw : ∀ w, 4 * w < s.keyLen.toNat → lookupAt s.key w ≠ none) :
    lookupCommandAt c s = .next (complete s (lookupValue s (slotsOf c s (keyBytes s))) 0 0) :=
  (afterChecks_pass s _ (by simp [lookupChecks, firstError_cons, hc, Nat.not_lt.2 hl])).trans
    ((onInstance_pass _ hi).trans (onKey_pass _ hw))

end Sys2Proof.Machine
end

