-- ==== Sys2Proof/Laws/Derivation.lean ====
section
/-! SUPPORT. The fixed-point enclosures bound the real logarithms, so the derivation of (m, k) is the exact one of spec
rule R153 for every valid input. -/

namespace Sys2Proof.Machine

open Finset

/-! ### ceilDiv -/

/-- `ceilDiv` is the ceiling of the real quotient. -/
theorem ceilDiv_eq_ceil (a : Nat) {b : Nat} (hb : 0 < b) : ceilDiv a b = ⌈(a : ℝ) / b⌉₊ := by
  have hb' : (0 : ℝ) < b := by exact_mod_cast hb
  unfold ceilDiv
  symm
  by_cases ha : a = 0
  · subst ha
    simp only [CharP.cast_eq_zero, zero_div, Nat.ceil_zero]
    rw [Nat.div_eq_of_lt (by omega)]
  · have hpos : (a + b - 1) / b ≠ 0 := by
      have : 1 ≤ (a + b - 1) / b := (Nat.one_le_div_iff hb).2 (by omega)
      omega
    rw [Nat.ceil_eq_iff hpos, lt_div_iff₀ hb', div_le_iff₀ hb']
    have h₁ := Nat.div_add_mod (a + b - 1) b
    have h₂ := Nat.mod_lt (a + b - 1) hb
    obtain ⟨q, hq⟩ : ∃ q, (a + b - 1) / b = q + 1 := ⟨_, (Nat.succ_pred_eq_of_ne_zero hpos).symm⟩
    rw [hq] at h₁ ⊢
    have e : b * (q + 1) = q * b + b := by ring
    rw [e] at h₁
    constructor
    · have : q * b < a := by omega
      rw [Nat.add_sub_cancel]
      exact_mod_cast this
    · have : a ≤ (q + 1) * b := by
        have : (q + 1) * b = q * b + b := by ring
        omega
      exact_mod_cast this

theorem ceilDiv_mono {a a' b b' : Nat} (hb' : 0 < b') (ha : a ≤ a') (hb : b' ≤ b) : ceilDiv a b ≤ ceilDiv a' b' := by
  rw [ceilDiv_eq_ceil a (hb'.trans_le hb), ceilDiv_eq_ceil a' hb']
  refine Nat.ceil_mono (div_le_div₀ (by positivity) (by exact_mod_cast ha) (by exact_mod_cast hb') (by exact_mod_cast hb))

/-! ### The series of the inverse hyperbolic tangent -/

theorem enclosure_scale_pos (bits : Nat) : (0 : ℝ) < 2 ^ bits := by positivity

/-- Each computed term is its real value rounded down. -/
theorem atanhTerm_bounds (bits : Nat) {a b : Nat} (hb : 0 < b) (k : Nat) :
    (atanhTerm bits a b k : ℝ) ≤ 2 ^ bits * ((a / b : ℝ) ^ (2 * k + 1) / (2 * k + 1)) ∧
    2 ^ bits * ((a / b : ℝ) ^ (2 * k + 1) / (2 * k + 1)) ≤ atanhTerm bits a b k + 1 := by
  have e : (2 : ℝ) ^ bits * ((a / b : ℝ) ^ (2 * k + 1) / (2 * k + 1)) =
      ((2 ^ bits * a ^ (2 * k + 1) : ℕ) : ℝ) / ((b ^ (2 * k + 1) * (2 * k + 1) : ℕ) : ℝ) := by
    push_cast
    rw [div_pow]
    field_simp
  rw [e]
  constructor
  · exact Nat.cast_div_le
  · have hd : 0 < b ^ (2 * k + 1) * (2 * k + 1) := by positivity
    have := Nat.lt_floor_add_one (((2 ^ bits * a ^ (2 * k + 1) : ℕ) : ℝ) /
      ((b ^ (2 * k + 1) * (2 * k + 1) : ℕ) : ℝ))
    rw [Nat.floor_div_eq_div] at this
    exact this.le

theorem atanhSum_bounds (bits : Nat) {a b : Nat} (hb : 0 < b) (n : Nat) :
    (atanhSum bits a b n : ℝ) ≤ 2 ^ bits * ∑ k ∈ range n, (a / b : ℝ) ^ (2 * k + 1) / (2 * k + 1) ∧
    2 ^ bits * ∑ k ∈ range n, (a / b : ℝ) ^ (2 * k + 1) / (2 * k + 1) ≤ atanhSum bits a b n + n := by
  induction n with
  | zero => simp [atanhSum]
  | succ n ih =>
    obtain ⟨h₁, h₂⟩ := atanhTerm_bounds bits (a := a) hb n
    rw [sum_range_succ, mul_add]
    simp only [atanhSum]
    push_cast
    constructor <;> linarith [ih.1, ih.2]

/-- The terms left out sum to less than one unit of the scale. -/
theorem atanh_tail_scale (bits : Nat) :
    (2 : ℝ) ^ bits * ((1 / 3 : ℝ) ^ (2 * enclosureTerms bits + 1) * (9 / 8)) ≤ 1 := by
  have h₁ : (2 : ℝ) ^ bits ≤ 9 ^ enclosureTerms bits := by
    calc (2 : ℝ) ^ bits ≤ 2 ^ (3 * enclosureTerms bits) :=
          pow_le_pow_right₀ (by norm_num) (by unfold enclosureTerms; omega)
      _ = 8 ^ enclosureTerms bits := by rw [pow_mul]; norm_num
      _ ≤ 9 ^ enclosureTerms bits := pow_le_pow_left₀ (by norm_num) (by norm_num) _
  have h₂ : (1 / 3 : ℝ) ^ (2 * enclosureTerms bits + 1) = (9 ^ enclosureTerms bits)⁻¹ * (1 / 3) := by
    rw [pow_succ, pow_mul, ← inv_pow]; norm_num
  have h₃ : (0 : ℝ) < 9 ^ enclosureTerms bits := by positivity
  rw [h₂, mul_assoc, ← mul_assoc, ← div_eq_mul_inv]
  have := (div_le_one h₃).2 h₁
  linarith

/-- The enclosure of 2 atanh(a/b) = ln(1 + a/b) - ln(1 - a/b), for a/b at most 1/3. -/
theorem twiceAtanh_bounds (bits : Nat) {a b : Nat} (hb : 0 < b) (hab : 3 * a ≤ b) :
    (twiceAtanhLo bits a b : ℝ) ≤ 2 ^ bits * (Real.log (1 + a / b) - Real.log (1 - a / b)) ∧
    2 ^ bits * (Real.log (1 + a / b) - Real.log (1 - a / b)) ≤ twiceAtanhHi bits a b := by
  have hb' : (0 : ℝ) < b := by exact_mod_cast hb
  set z : ℝ := a / b with hz
  have z0 : 0 ≤ z := by positivity
  have z3 : z ≤ 1 / 3 := by
    rw [hz, div_le_div_iff₀ hb' (by norm_num)]
    have : ((3 * a : ℕ) : ℝ) ≤ b := by exact_mod_cast hab
    push_cast at this
    linarith
  have habs : |z| < 1 := by rw [abs_of_nonneg z0]; linarith
  set f : ℕ → ℝ := fun k => 2 * (1 / (2 * (k : ℝ) + 1)) * z ^ (2 * k + 1) with hf
  have hsum : HasSum f (Real.log (1 + z) - Real.log (1 - z)) := Real.hasSum_log_sub_log_of_abs_lt_one habs
  have f0 : ∀ k, 0 ≤ f k := fun k => by simp only [hf]; positivity
  set n := enclosureTerms bits with hn
  have hsplit := hsum.summable.sum_add_tsum_nat_add n
  rw [hsum.tsum_eq] at hsplit
  have tail0 : 0 ≤ ∑' k, f (k + n) := tsum_nonneg fun k => f0 _
  have tailHi : ∑' k, f (k + n) ≤ 2 * ((1 / 3 : ℝ) ^ (2 * n + 1) * (9 / 8)) := by
    have hg : HasSum (fun k : ℕ => 2 * (1 / 3 : ℝ) ^ (2 * n + 1) * (1 / 9 : ℝ) ^ k)
        (2 * (1 / 3 : ℝ) ^ (2 * n + 1) * (1 - 1 / 9)⁻¹) :=
      (hasSum_geometric_of_lt_one (by norm_num) (by norm_num)).mul_left _
    have hle : ∀ k, f (k + n) ≤ 2 * (1 / 3 : ℝ) ^ (2 * n + 1) * (1 / 9 : ℝ) ^ k := fun k => by
      have e : (1 / 3 : ℝ) ^ (2 * n + 1) * (1 / 9 : ℝ) ^ k = (1 / 3 : ℝ) ^ (2 * (k + n) + 1) := by
        rw [show (1 / 9 : ℝ) = (1 / 3) ^ 2 by norm_num, ← pow_mul, ← pow_add]
        congr 1
        ring
      rw [mul_assoc, e]
      simp only [hf]
      have h₁ : z ^ (2 * (k + n) + 1) ≤ (1 / 3 : ℝ) ^ (2 * (k + n) + 1) := pow_le_pow_left₀ z0 z3 _
      have h₂ : 1 / (2 * ((k + n : ℕ) : ℝ) + 1) ≤ 1 := by
        rw [div_le_one (by positivity)]
        have : (0 : ℝ) ≤ ((k + n : ℕ) : ℝ) := Nat.cast_nonneg _
        linarith
      have h₃ : 0 ≤ z ^ (2 * (k + n) + 1) := pow_nonneg z0 _
      nlinarith [mul_le_mul h₂ h₁ h₃ zero_le_one]
    have := hasSum_le hle ((summable_nat_add_iff n).2 hsum.summable).hasSum hg
    refine this.trans (le_of_eq ?_)
    norm_num
    ring
  have hpart : ∑ k ∈ range n, f k = 2 * ∑ k ∈ range n, z ^ (2 * k + 1) / (2 * (k : ℝ) + 1) := by
    rw [mul_sum]
    refine sum_congr rfl fun k _ => ?_
    simp only [hf]
    ring
  obtain ⟨s₁, s₂⟩ := atanhSum_bounds bits (a := a) hb n
  rw [← hz] at s₁ s₂
  have tailScaled : (2 : ℝ) ^ bits * ∑' k, f (k + n) ≤ 2 := by
    have h₁ := mul_le_mul_of_nonneg_left tailHi (enclosure_scale_pos bits).le
    have h₂ := atanh_tail_scale bits
    calc _ ≤ _ := h₁
      _ = 2 * ((2 : ℝ) ^ bits * ((1 / 3 : ℝ) ^ (2 * n + 1) * (9 / 8))) := by ring
      _ ≤ 2 := by linarith
  have tailScaled0 : 0 ≤ (2 : ℝ) ^ bits * ∑' k, f (k + n) := mul_nonneg (enclosure_scale_pos bits).le tail0
  rw [← hsplit, mul_add, hpart]
  unfold twiceAtanhHi twiceAtanhLo enclosureWidth
  rw [← hn]
  push_cast
  constructor
  · linarith
  · linarith

/-! ### The logarithms -/

theorem ln2_bounds (bits : Nat) :
    (ln2Lo bits : ℝ) ≤ 2 ^ bits * Real.log 2 ∧ 2 ^ bits * Real.log 2 ≤ ln2Hi bits := by
  have h := twiceAtanh_bounds bits (a := 1) (b := 3) (by norm_num) (by norm_num)
  have e : Real.log (1 + ((1 : ℕ) : ℝ) / ((3 : ℕ) : ℝ)) - Real.log (1 - ((1 : ℕ) : ℝ) / ((3 : ℕ) : ℝ)) = Real.log 2 := by
    rw [← Real.log_div (by norm_num) (by norm_num)]
    norm_num
  rw [e] at h
  exact h

/-- The first term alone is positive, from 2 bits on. -/
theorem ln2Lo_pos {bits : Nat} (h : 2 ≤ bits) : 0 < ln2Lo bits := by
  have first : atanhSum bits 1 3 1 ≤ atanhSum bits 1 3 (enclosureTerms bits) := by
    have mono : ∀ k j, atanhSum bits 1 3 k ≤ atanhSum bits 1 3 (k + j) := fun k j => by
      induction j with
      | zero => exact le_rfl
      | succ j ih => exact ih.trans (Nat.le_add_right _ _)
    have e : enclosureTerms bits = 1 + bits / 3 := by unfold enclosureTerms; omega
    rw [e]
    exact mono 1 _
  have term : 0 < atanhSum bits 1 3 1 := by
    simp only [atanhSum, atanhTerm]
    have : 2 ^ 2 ≤ 2 ^ bits := Nat.pow_le_pow_right (by norm_num) h
    simp
    omega
  unfold ln2Lo twiceAtanhLo
  omega

theorem ln2Hi_eq (bits : Nat) : ln2Hi bits = ln2Lo bits + enclosureWidth bits := rfl

theorem ln2Hi_pos (bits : Nat) : 0 < ln2Hi bits := by
  rw [ln2Hi_eq]
  unfold enclosureWidth
  omega

/-- The pattern of a valid p: not an infinity or a NaN, positive, below 1. -/
theorem valid_pattern {n : Word} {pb : Pattern} (h : validInputs n pb = true) :
    1 ≤ n.toNat ∧ signBit pb = false ∧ expField pb ≤ 0x3FE ∧ 0 < significand pb ∧ significand pb < 2 ^ 53 ∧
      (expField pb ≠ 0 → 2 ^ 52 ≤ significand pb) ∧ (expField pb = 0 → significand pb < 2 ^ 52) := by
  simp only [validInputs, Bool.and_eq_true, decide_eq_true_iff] at h
  obtain ⟨⟨hn, h1⟩, h2⟩ := h
  have hf : fracField pb = pb.toNat % 2 ^ 52 := by
    simp [fracField, BitVec.extractLsb'_toNat]
  have he : expField pb = pb.toNat / 2 ^ 52 % 2 ^ 11 := by
    simp [expField, BitVec.extractLsb'_toNat, Nat.shiftRight_eq_div_pow]
  have hs : signBit pb = false := by
    rw [signBit, ← BitVec.msb_eq_getLsbD_last, BitVec.msb_eq_false_iff_two_mul_lt]
    omega
  have he' : expField pb = pb.toNat / 2 ^ 52 := by omega
  refine ⟨hn, hs, by omega, ?_, ?_, ?_, ?_⟩ <;> unfold significand <;> split_ifs <;> omega

/-- The leading bit of the significand. -/
theorem leadingBit_bounds {pb : Pattern} (h : 0 < significand pb) :
    2 ^ leadingBit pb ≤ significand pb ∧ significand pb < 2 ^ (leadingBit pb + 1) := by
  unfold leadingBit
  exact ⟨Nat.log2_self_le h.ne', Nat.lt_log2_self⟩

/-- The enclosure of ln y, where the significand is y * 2^t with 1 <= y < 2. -/
theorem lnSignificand_bounds (bits : Nat) {pb : Pattern} (h : 0 < significand pb) :
    (lnSignificandLo bits pb : ℝ) ≤ 2 ^ bits * Real.log (significand pb / 2 ^ leadingBit pb) ∧
    2 ^ bits * Real.log (significand pb / 2 ^ leadingBit pb) ≤ lnSignificandHi bits pb := by
  obtain ⟨h₁, h₂⟩ := leadingBit_bounds h
  set s := significand pb
  set t := leadingBit pb
  have ht : 0 < 2 ^ t := by positivity
  have hpow : 2 ^ (t + 1) = 2 * 2 ^ t := by ring
  have hb := twiceAtanh_bounds bits (a := s - 2 ^ t) (b := s + 2 ^ t) (by omega) (by omega)
  have hs : (0 : ℝ) < s := by exact_mod_cast h
  have ht' : (0 : ℝ) < 2 ^ t := by positivity
  have hst : (0 : ℝ) < s + 2 ^ t := by positivity
  have e₁ : 1 + ((s - 2 ^ t : ℕ) : ℝ) / ((s + 2 ^ t : ℕ) : ℝ) = 2 * s / (s + 2 ^ t) := by
    rw [Nat.cast_sub h₁]; push_cast; field_simp; ring
  have e₂ : 1 - ((s - 2 ^ t : ℕ) : ℝ) / ((s + 2 ^ t : ℕ) : ℝ) = 2 * 2 ^ t / (s + 2 ^ t) := by
    rw [Nat.cast_sub h₁]; push_cast; field_simp; ring
  have e : Real.log (1 + ((s - 2 ^ t : ℕ) : ℝ) / ((s + 2 ^ t : ℕ) : ℝ)) -
      Real.log (1 - ((s - 2 ^ t : ℕ) : ℝ) / ((s + 2 ^ t : ℕ) : ℝ)) = Real.log (s / 2 ^ t) := by
    rw [e₁, e₂, ← Real.log_div (by positivity) (by positivity)]
    congr 1
    field_simp
  rw [e] at hb
  exact hb

/-- The value of a valid p (R151). -/
theorem binary64Value_valid {n : Word} {pb : Pattern} (h : validInputs n pb = true) :
    binary64Value pb = some ((significand pb : ℚ) * (2 : ℚ) ^ binaryExponent pb) := by
  obtain ⟨_, hs, he, _⟩ := valid_pattern h
  unfold binary64Value
  rw [if_neg (by omega), hs]
  simp

/-- p = y * 2^(-d). -/
theorem negExponent_eq {n : Word} {pb : Pattern} (h : validInputs n pb = true) :
    (negExponent pb : ℤ) = -(binaryExponent pb + leadingBit pb) ∧ 1 ≤ negExponent pb ∧ negExponent pb ≤ 1074 := by
  obtain ⟨_, _, he, hpos, hlt, hnorm, hsub⟩ := valid_pattern h
  obtain ⟨h₁, h₂⟩ := leadingBit_bounds hpos
  have ht : leadingBit pb ≤ 52 := by
    by_contra hc
    have : 2 ^ 53 ≤ 2 ^ leadingBit pb := Nat.pow_le_pow_right (by norm_num) (by omega)
    omega
  unfold negExponent binaryExponent
  split_ifs with h0
  · omega
  · have : leadingBit pb = 52 := by
      by_contra hc
      have : 2 ^ (leadingBit pb + 1) ≤ 2 ^ 52 := Nat.pow_le_pow_right (by norm_num) (by omega)
      have := hnorm h0
      omega
    omega

/-- -ln p = d ln 2 - ln y. -/
theorem neg_log_eq {n : Word} {pb : Pattern} (h : validInputs n pb = true) :
    -Real.log ((significand pb : ℝ) * (2 : ℝ) ^ binaryExponent pb) =
      negExponent pb * Real.log 2 - Real.log (significand pb / 2 ^ leadingBit pb) := by
  obtain ⟨hd, _⟩ := negExponent_eq h
  obtain ⟨_, _, _, hpos, _⟩ := valid_pattern h
  have hs : (significand pb : ℝ) ≠ 0 := by exact_mod_cast hpos.ne'
  rw [Real.log_mul hs (by positivity), Real.log_zpow, Real.log_div hs (by positivity), Real.log_pow]
  have : (negExponent pb : ℝ) = -((binaryExponent pb : ℝ) + leadingBit pb) := by exact_mod_cast hd
  rw [this]
  ring

/-- The value of a valid p lies strictly between 0 and 1. -/
theorem valid_value_lt_one {n : Word} {pb : Pattern} (h : validInputs n pb = true) :
    (0 : ℝ) < (significand pb : ℝ) * (2 : ℝ) ^ binaryExponent pb ∧
    (significand pb : ℝ) * (2 : ℝ) ^ binaryExponent pb < 1 := by
  obtain ⟨_, _, _, hpos, _⟩ := valid_pattern h
  have hs : (0 : ℝ) < significand pb := by exact_mod_cast hpos
  refine ⟨by positivity, ?_⟩
  obtain ⟨hd, h1, _⟩ := negExponent_eq h
  have h₂ : (significand pb : ℝ) < 2 ^ (leadingBit pb + 1) := by exact_mod_cast (leadingBit_bounds hpos).2
  calc (significand pb : ℝ) * (2 : ℝ) ^ binaryExponent pb
      < 2 ^ (leadingBit pb + 1) * (2 : ℝ) ^ binaryExponent pb := by
        exact mul_lt_mul_of_pos_right h₂ (by positivity)
    _ = (2 : ℝ) ^ ((leadingBit pb : ℤ) + 1 + binaryExponent pb) := by
        rw [zpow_add₀ (by norm_num)]; norm_cast
    _ ≤ (2 : ℝ) ^ (0 : ℤ) := zpow_le_zpow_right₀ (by norm_num) (by omega)
    _ = 1 := by simp

/-- The enclosure of -ln p. -/
theorem negLn_bounds (bits : Nat) {n : Word} {pb : Pattern} (h : validInputs n pb = true) :
    (negLnLo bits pb : ℝ) ≤ 2 ^ bits * -Real.log ((significand pb : ℝ) * (2 : ℝ) ^ binaryExponent pb) ∧
    2 ^ bits * -Real.log ((significand pb : ℝ) * (2 : ℝ) ^ binaryExponent pb) ≤ negLnHi bits pb := by
  obtain ⟨_, _, _, hpos, _⟩ := valid_pattern h
  obtain ⟨l₁, l₂⟩ := lnSignificand_bounds bits hpos
  obtain ⟨g₁, g₂⟩ := ln2_bounds bits
  obtain ⟨v0, v1⟩ := valid_value_lt_one h
  have hneg : 0 ≤ -Real.log ((significand pb : ℝ) * (2 : ℝ) ^ binaryExponent pb) := by
    linarith [Real.log_neg v0 v1]
  have hscaled := mul_nonneg (enclosure_scale_pos bits).le hneg
  rw [neg_log_eq h] at hscaled ⊢
  have hd : (0 : ℝ) ≤ negExponent pb := Nat.cast_nonneg _
  have d₁ := mul_le_mul_of_nonneg_left g₁ hd
  have d₂ := mul_le_mul_of_nonneg_left g₂ hd
  constructor
  · unfold negLnLo
    rcases le_total (negExponent pb * ln2Lo bits) (lnSignificandHi bits pb) with hc | hc
    · rw [Nat.sub_eq_zero_of_le hc]
      simpa using hscaled
    · rw [Nat.cast_sub hc]
      push_cast
      linarith
  · unfold negLnHi
    have hsub : ((negExponent pb * ln2Hi bits : ℕ) : ℝ) - (lnSignificandLo bits pb : ℕ) ≤
        ((negExponent pb * ln2Hi bits - lnSignificandLo bits pb : ℕ) : ℝ) := by
      rcases le_total (lnSignificandLo bits pb) (negExponent pb * ln2Hi bits) with hc | hc
      · rw [Nat.cast_sub hc]
      · rw [Nat.sub_eq_zero_of_le hc]
        have : ((negExponent pb * ln2Hi bits : ℕ) : ℝ) ≤ lnSignificandLo bits pb := by exact_mod_cast hc
        simpa using this
    push_cast at hsub
    linarith

/-- The two bounds of -ln p differ by at most 1075 widths of an enclosure. -/
theorem negLnHi_le (bits : Nat) {n : Word} {pb : Pattern} (h : validInputs n pb = true) :
    negLnHi bits pb ≤ negLnLo bits pb + 1075 * enclosureWidth bits := by
  obtain ⟨_, _, hd⟩ := negExponent_eq h
  have hw := Nat.mul_le_mul_right (enclosureWidth bits) hd
  have e : negExponent pb * ln2Hi bits = negExponent pb * ln2Lo bits + negExponent pb * enclosureWidth bits := by
    rw [ln2Hi_eq, Nat.mul_add]
  unfold negLnHi negLnLo lnSignificandHi twiceAtanhHi
  change _ - lnSignificandLo bits pb ≤ _ - (lnSignificandLo bits pb + _) + _
  omega

/-! ### m -/

/-- m_real = -n ln(p) / (ln 2)^2, for a valid p (R153). -/
noncomputable def slotCountReal (n : Nat) (pb : Pattern) : ℝ :=
  n * -Real.log ((significand pb : ℝ) * (2 : ℝ) ^ binaryExponent pb) / Real.log 2 ^ 2

/-- The lower bound of m_real, as a real number. -/
noncomputable def slotCountRealLo (bits n : Nat) (pb : Pattern) : ℝ :=
  ((n * negLnLo bits pb * 2 ^ bits : ℕ) : ℝ) / ((ln2Hi bits ^ 2 : ℕ) : ℝ)

/-- The upper bound of m_real, as a real number. -/
noncomputable def slotCountRealHi (bits n : Nat) (pb : Pattern) : ℝ :=
  ((n * negLnHi bits pb * 2 ^ bits : ℕ) : ℝ) / ((ln2Lo bits ^ 2 : ℕ) : ℝ)

theorem slotCountLo_eq (bits n : Nat) (pb : Pattern) :
    slotCountLo bits n pb = max 1 ⌈slotCountRealLo bits n pb⌉₊ := by
  have := ln2Hi_pos bits
  rw [slotCountLo, ceilDiv_eq_ceil _ (by positivity), slotCountRealLo]

theorem slotCountHi_eq {bits : Nat} (hb : 2 ≤ bits) (n : Nat) (pb : Pattern) :
    slotCountHi bits n pb = max 1 ⌈slotCountRealHi bits n pb⌉₊ := by
  have := ln2Lo_pos hb
  rw [slotCountHi, ceilDiv_eq_ceil _ (by positivity), slotCountRealHi]

theorem slotCountReal_pos {n : Word} {pb : Pattern} (h : validInputs n pb = true) : 0 < slotCountReal n.toNat pb := by
  obtain ⟨v0, v1⟩ := valid_value_lt_one h
  have hn : (0 : ℝ) < n.toNat := by exact_mod_cast (valid_pattern h).1
  have := Real.log_neg v0 v1
  have hL : 0 < Real.log 2 := Real.log_pos (by norm_num)
  exact div_pos (mul_pos hn (by linarith)) (by positivity)

/-- m_real lies between its two bounds. -/
theorem slotCountReal_enclosed {bits : Nat} (hb : 2 ≤ bits) {n : Word} {pb : Pattern} (h : validInputs n pb = true) :
    slotCountRealLo bits n.toNat pb ≤ slotCountReal n.toNat pb ∧
    slotCountReal n.toNat pb ≤ slotCountRealHi bits n.toNat pb := by
  obtain ⟨b₁, b₂⟩ := negLn_bounds bits h
  obtain ⟨g₁, g₂⟩ := ln2_bounds bits
  unfold slotCountReal slotCountRealLo slotCountRealHi
  set X : ℝ := -Real.log ((significand pb : ℝ) * (2 : ℝ) ^ binaryExponent pb)
  set S : ℝ := 2 ^ bits
  have hS : 0 < S := enclosure_scale_pos bits
  have hL : 0 < Real.log 2 := Real.log_pos (by norm_num)
  have hn : (0 : ℝ) ≤ n.toNat := Nat.cast_nonneg _
  have hlo : (0 : ℝ) < ln2Lo bits := by exact_mod_cast ln2Lo_pos hb
  have e : (n.toNat : ℝ) * X / Real.log 2 ^ 2 = n.toNat * (S * X) * S / (S * Real.log 2) ^ 2 := by
    field_simp
  have hsq : 0 < (S * Real.log 2) ^ 2 := by positivity
  have hSX := (Nat.cast_nonneg (α := ℝ) (negLnLo bits pb)).trans b₁
  rw [e]
  push_cast
  constructor
  · exact div_le_div₀ (by positivity) (by gcongr) hsq (by gcongr)
  · exact div_le_div₀ (by positivity) (by gcongr) (by positivity) (by gcongr)

/-- The slot counts of the two bounds enclose the exact one. -/
theorem slotCount_enclosed {bits : Nat} (hb : 2 ≤ bits) {n : Word} {pb : Pattern} (h : validInputs n pb = true) :
    slotCountLo bits n.toNat pb ≤ max 1 ⌈slotCountReal n.toNat pb⌉₊ ∧
    max 1 ⌈slotCountReal n.toNat pb⌉₊ ≤ slotCountHi bits n.toNat pb := by
  obtain ⟨h₁, h₂⟩ := slotCountReal_enclosed hb h
  rw [slotCountLo_eq, slotCountHi_eq hb]
  exact ⟨max_le_max_left _ (Nat.ceil_mono h₁), max_le_max_left _ (Nat.ceil_mono h₂)⟩

/-- Where some number of bits decides, it decides for the exact value. -/
theorem slotCountLo_of_decided {bits : Nat} (hb : 2 ≤ bits) {n : Word} {pb : Pattern} (h : validInputs n pb = true)
    (hd : slotCountDecided bits n.toNat pb = true) :
    slotCountLo bits n.toNat pb = max 1 ⌈slotCountReal n.toNat pb⌉₊ := by
  obtain ⟨h₁, h₂⟩ := slotCount_enclosed hb h
  have : slotCountLo bits n.toNat pb = slotCountHi bits n.toNat pb := by simpa [slotCountDecided] using hd
  omega

/-! ### The enclosures tighten -/

theorem enclosureWidth_tendsto :
    Filter.Tendsto (fun bits : Nat => (enclosureWidth bits : ℝ) / 2 ^ bits) Filter.atTop (nhds 0) := by
  have h₁ := (tendsto_pow_const_div_const_pow_of_one_lt 1 (r := (2 : ℝ)) (by norm_num)).const_mul (2 : ℝ)
  have h₂ := (tendsto_pow_const_div_const_pow_of_one_lt 0 (r := (2 : ℝ)) (by norm_num)).const_mul (4 : ℝ)
  have h := h₁.add h₂
  simp only [mul_zero, add_zero, pow_one, pow_zero] at h
  refine squeeze_zero (fun b => by positivity) (fun b => ?_) h
  have hw : (enclosureWidth b : ℝ) ≤ 2 * b + 4 := by
    have : enclosureWidth b ≤ 2 * b + 4 := by unfold enclosureWidth enclosureTerms; omega
    exact_mod_cast this
  calc (enclosureWidth b : ℝ) / 2 ^ b ≤ (2 * b + 4) / 2 ^ b := by gcongr
    _ = 2 * (b / 2 ^ b) + 4 * (1 / 2 ^ b) := by ring

/-- Integers that stay within some widths of the scaled number x tend, scaled back, to x. -/
theorem tendsto_of_enclosed {f : Nat → Nat} {x C : ℝ}
    (h : ∀ b, |(f b : ℝ) - 2 ^ b * x| ≤ C * enclosureWidth b) :
    Filter.Tendsto (fun b => (f b : ℝ) / 2 ^ b) Filter.atTop (nhds x) := by
  have h0 := enclosureWidth_tendsto.const_mul C
  rw [mul_zero] at h0
  rw [tendsto_iff_dist_tendsto_zero]
  refine squeeze_zero (fun b => dist_nonneg) (fun b => ?_) h0
  have e : (f b : ℝ) / 2 ^ b - x = (f b - 2 ^ b * x) / 2 ^ b := by field_simp
  rw [Real.dist_eq, e, abs_div, abs_of_pos (enclosure_scale_pos b), ← mul_div_assoc]
  exact div_le_div_of_nonneg_right (h b) (enclosure_scale_pos b).le

/-- A quotient of the form both bounds of m_real have tends to m_real. -/
theorem tendsto_slotCountReal (n : Nat) (pb : Pattern) {f g : Nat → Nat}
    (hf : Filter.Tendsto (fun b => (f b : ℝ) / 2 ^ b) Filter.atTop
      (nhds (-Real.log ((significand pb : ℝ) * (2 : ℝ) ^ binaryExponent pb))))
    (hg : Filter.Tendsto (fun b => (g b : ℝ) / 2 ^ b) Filter.atTop (nhds (Real.log 2))) :
    Filter.Tendsto (fun b => ((n * f b * 2 ^ b : ℕ) : ℝ) / ((g b ^ 2 : ℕ) : ℝ)) Filter.atTop
      (nhds (slotCountReal n pb)) := by
  have hL : Real.log 2 ≠ 0 := (Real.log_pos (by norm_num)).ne'
  refine ((hf.const_mul (n : ℝ)).div (hg.pow 2) (pow_ne_zero 2 hL)).congr fun b => ?_
  have := enclosure_scale_pos b
  simp only [Pi.div_apply]
  push_cast
  rcases eq_or_ne (g b : ℝ) 0 with h0 | h0
  · simp [h0]
  · field_simp

/-- Both bounds of -ln p are within 1075 widths of it. -/
theorem negLn_near (bits : Nat) {n : Word} {pb : Pattern} (h : validInputs n pb = true) :
    let x := 2 ^ bits * -Real.log ((significand pb : ℝ) * (2 : ℝ) ^ binaryExponent pb)
    |(negLnLo bits pb : ℝ) - x| ≤ 1075 * enclosureWidth bits ∧
    |(negLnHi bits pb : ℝ) - x| ≤ 1075 * enclosureWidth bits := by
  obtain ⟨b₁, b₂⟩ := negLn_bounds bits h
  have hw : ((negLnHi bits pb : ℕ) : ℝ) ≤ ((negLnLo bits pb + 1075 * enclosureWidth bits : ℕ) : ℝ) := by
    exact_mod_cast negLnHi_le bits h
  push_cast at hw
  simp only [abs_le]
  refine ⟨⟨?_, ?_⟩, ?_, ?_⟩ <;> linarith [Nat.cast_nonneg (α := ℝ) (enclosureWidth bits)]

/-- Both bounds of ln 2 are within one width of it. -/
theorem ln2_near (bits : Nat) :
    |(ln2Lo bits : ℝ) - 2 ^ bits * Real.log 2| ≤ 1 * enclosureWidth bits ∧
    |(ln2Hi bits : ℝ) - 2 ^ bits * Real.log 2| ≤ 1 * enclosureWidth bits := by
  obtain ⟨g₁, g₂⟩ := ln2_bounds bits
  rw [ln2Hi_eq] at g₂ ⊢
  push_cast at g₂ ⊢
  simp only [abs_le]
  refine ⟨⟨?_, ?_⟩, ?_, ?_⟩ <;> linarith [Nat.cast_nonneg (α := ℝ) (enclosureWidth bits)]

theorem slotCountRealLo_tendsto {n : Word} {pb : Pattern} (h : validInputs n pb = true) :
    Filter.Tendsto (fun b => slotCountRealLo b n.toNat pb) Filter.atTop (nhds (slotCountReal n.toNat pb)) :=
  tendsto_slotCountReal n.toNat pb (tendsto_of_enclosed fun b => (negLn_near b h).1)
    (tendsto_of_enclosed fun b => (ln2_near b).2)

theorem slotCountRealHi_tendsto {n : Word} {pb : Pattern} (h : validInputs n pb = true) :
    Filter.Tendsto (fun b => slotCountRealHi b n.toNat pb) Filter.atTop (nhds (slotCountReal n.toNat pb)) :=
  tendsto_slotCountReal n.toNat pb (tendsto_of_enclosed fun b => (negLn_near b h).2)
    (tendsto_of_enclosed fun b => (ln2_near b).1)

/-- Unless m_real is an integer, every large enough number of bits decides. -/
theorem slotCount_eventually_decided {n : Word} {pb : Pattern} (h : validInputs n pb = true)
    (hne : slotCountReal n.toNat pb ≠ ⌈slotCountReal n.toNat pb⌉₊) :
    ∀ᶠ bits in Filter.atTop, slotCountDecided bits n.toNat pb = true := by
  have hpos := slotCountReal_pos h
  have hc : 1 ≤ ⌈slotCountReal n.toNat pb⌉₊ := Nat.one_le_ceil_iff.2 hpos
  obtain ⟨c, hcc⟩ : ∃ c, ⌈slotCountReal n.toNat pb⌉₊ = c + 1 := ⟨_, (Nat.succ_pred_eq_of_pos hc).symm⟩
  have hlt : slotCountReal n.toNat pb < (c + 1 : ℕ) := by
    have := Nat.le_ceil (slotCountReal n.toNat pb)
    rw [hcc] at this hne
    exact lt_of_le_of_ne this hne
  have hgt : (c : ℝ) < slotCountReal n.toNat pb := Nat.lt_ceil.1 (by omega)
  filter_upwards [(slotCountRealLo_tendsto h).eventually (lt_mem_nhds hgt),
    (slotCountRealHi_tendsto h).eventually (gt_mem_nhds hlt), Filter.eventually_ge_atTop 2] with bits h₁ h₂ hb
  obtain ⟨g₁, g₂⟩ := slotCountReal_enclosed hb h
  have e₁ : ⌈slotCountRealLo bits n.toNat pb⌉₊ = c + 1 :=
    le_antisymm (Nat.ceil_le.2 (g₁.trans hlt.le)) (Nat.lt_ceil.2 h₁)
  have e₂ : ⌈slotCountRealHi bits n.toNat pb⌉₊ = c + 1 :=
    le_antisymm (Nat.ceil_le.2 h₂.le) (Nat.lt_ceil.2 (hgt.trans_le g₂))
  simp [slotCountDecided, slotCountLo_eq, slotCountHi_eq hb, e₁, e₂]

/-! ### The refinement -/

/-- A refined slot count is the exact one. -/
theorem slotCountRefined_eq_some {n : Word} {pb : Pattern} (h : validInputs n pb = true) {bits m : Nat}
    (hb : 2 ≤ bits) (hm : slotCountRefined n.toNat pb bits = some m) :
    m = max 1 ⌈slotCountReal n.toNat pb⌉₊ := by
  refine slotCountRefined.partial_correctness n.toNat pb
    (fun bits m => 2 ≤ bits → m = max 1 ⌈slotCountReal n.toNat pb⌉₊) (fun rec ih bits m hm hb => ?_) bits m hm hb
  split_ifs at hm with hd
  · rw [← slotCountLo_of_decided hb h hd]
    simpa using hm.symm
  · exact ih _ _ hm (by omega)

/-- No slot count is found only when m_real is an integer. -/
theorem slotCountRefined_eq_none {n : Word} {pb : Pattern} (h : validInputs n pb = true) {bits : Nat}
    (hb : 2 ≤ bits) (hm : slotCountRefined n.toNat pb bits = none) :
    slotCountReal n.toNat pb = ⌈slotCountReal n.toNat pb⌉₊ := by
  by_contra hne
  obtain ⟨N, hN⟩ := Filter.eventually_atTop.1 (slotCount_eventually_decided h hne)
  have never : ∀ i, slotCountDecided (2 ^ i * bits) n.toNat pb = false ∧
      slotCountRefined n.toNat pb (2 ^ i * bits) = none := by
    have one : ∀ b, slotCountRefined n.toNat pb b = none → slotCountDecided b n.toNat pb = false ∧
        slotCountRefined n.toNat pb (2 * b) = none := fun b hn => by
      rw [slotCountRefined] at hn
      split_ifs at hn with hd
      exact ⟨by simpa using hd, hn⟩
    intro i
    induction i with
    | zero => exact ⟨by simpa using (one bits hm).1, by simpa using hm⟩
    | succ i ih =>
      have := (one _ ih.2).2
      rw [← mul_assoc, ← pow_succ'] at this
      exact ⟨(one _ this).1, this⟩
  have hle : N ≤ 2 ^ N * bits := Nat.lt_two_pow_self.le.trans (Nat.le_mul_of_pos_right _ (by omega))
  have := hN _ hle
  rw [(never N).1] at this
  cases this

theorem two_le_enclosureBits : 2 ≤ enclosureBits := by decide

/-- The numbers the first enclosure's width rests on: for every n below 2^32 and every p, below 1. -/
theorem first_enclosure_width :
    2 ^ 32 * 2 ^ enclosureBits * (1075 * enclosureWidth enclosureBits * ln2Hi enclosureBits ^ 2 +
      1074 * ln2Hi enclosureBits * (ln2Hi enclosureBits ^ 2 - ln2Lo enclosureBits ^ 2)) ≤
    ln2Lo enclosureBits ^ 2 * ln2Hi enclosureBits ^ 2 ∧ ln2Lo enclosureBits ^ 2 ≤ ln2Hi enclosureBits ^ 2 := by
  constructor <;> decide +kernel

/-- The first enclosure of m_real is narrower than 1. -/
theorem slotCountRealHi_lt {n : Word} {pb : Pattern} (h : validInputs n pb = true) :
    slotCountRealHi enclosureBits n.toNat pb < slotCountRealLo enclosureBits n.toNat pb + 1 := by
  obtain ⟨hw, hle⟩ := first_enclosure_width
  obtain ⟨_, _, hd⟩ := negExponent_eq h
  have h₁ := negLnHi_le enclosureBits h
  have h₂ : negLnLo enclosureBits pb ≤ 1074 * ln2Hi enclosureBits :=
    (Nat.sub_le _ _).trans (Nat.mul_le_mul hd (Nat.le_add_right _ _))
  have hlo : 0 < ln2Lo enclosureBits ^ 2 := Nat.pow_pos (ln2Lo_pos two_le_enclosureBits)
  have hhi : 0 < ln2Hi enclosureBits ^ 2 := Nat.pow_pos (ln2Hi_pos enclosureBits)
  have hn := n.isLt
  have hS : 0 < 2 ^ enclosureBits := by positivity
  unfold slotCountRealHi slotCountRealLo
  generalize n.toNat = N at *
  generalize enclosureWidth enclosureBits = w at *
  generalize negLnHi enclosureBits pb = U at *
  generalize negLnLo enclosureBits pb = u at *
  generalize 2 ^ enclosureBits = S at *
  obtain ⟨δ, hδ⟩ := Nat.exists_eq_add_of_le hle
  rw [hδ, Nat.add_sub_cancel_left] at hw
  generalize ln2Hi enclosureBits ^ 2 = B at *
  generalize ln2Lo enclosureBits ^ 2 = A at *
  generalize ln2Hi enclosureBits = V at *
  subst hδ
  have key : N * U * S * (A + δ) < (N * u * S + (A + δ)) * A := by
    have step₁ : U * (A + δ) ≤ u * A + (1075 * w * (A + δ) + 1074 * V * δ) := by
      calc U * (A + δ) ≤ (u + 1075 * w) * (A + δ) := Nat.mul_le_mul_right _ h₁
        _ = u * A + (1075 * w * (A + δ) + u * δ) := by ring
        _ ≤ _ := by gcongr
    have step₂ : N * S * (1075 * w * (A + δ) + 1074 * V * δ) < A * (A + δ) := by
      rcases Nat.eq_zero_or_pos (1075 * w * (A + δ) + 1074 * V * δ) with h0 | h0
      · rw [h0, Nat.mul_zero]; positivity
      · refine lt_of_lt_of_le ?_ hw
        exact Nat.mul_lt_mul_of_pos_right (Nat.mul_lt_mul_of_pos_right hn hS) h0
    calc N * U * S * (A + δ) = N * S * (U * (A + δ)) := by ring
      _ ≤ N * S * (u * A + (1075 * w * (A + δ) + 1074 * V * δ)) := Nat.mul_le_mul_left _ step₁
      _ = N * u * S * A + N * S * (1075 * w * (A + δ) + 1074 * V * δ) := by ring
      _ < N * u * S * A + A * (A + δ) := by omega
      _ = (N * u * S + (A + δ)) * A := by ring
  have hA : (0 : ℝ) < (A : ℕ) := by exact_mod_cast hlo
  have hB : (0 : ℝ) < ((A + δ : ℕ) : ℝ) := by exact_mod_cast hhi
  rw [div_add_one hB.ne', div_lt_div_iff₀ hA hB]
  exact_mod_cast key

/-- The two slot counts of the first enclosure are equal or neighbours. -/
theorem slotCountHi_le {n : Word} {pb : Pattern} (h : validInputs n pb = true) :
    slotCountHi enclosureBits n.toNat pb ≤ slotCountLo enclosureBits n.toNat pb + 1 := by
  have h₁ := slotCountRealHi_lt h
  rw [slotCountLo_eq, slotCountHi_eq two_le_enclosureBits]
  have : ⌈slotCountRealHi enclosureBits n.toNat pb⌉₊ ≤ ⌈slotCountRealLo enclosureBits n.toNat pb⌉₊ + 1 := by
    rw [Nat.ceil_le]
    push_cast
    linarith [Nat.le_ceil (slotCountRealLo enclosureBits n.toNat pb)]
  omega

/-- m is max(1, ceil(m_real)), for every valid input (R153). -/
theorem slotCount_exact {n : Word} {pb : Pattern} (h : validInputs n pb = true) :
    slotCount n.toNat pb = max 1 ⌈slotCountReal n.toNat pb⌉₊ := by
  have hb := two_le_enclosureBits
  unfold slotCount
  split_ifs with hd
  · exact slotCountLo_of_decided hb h hd
  · cases hr : slotCountRefined n.toNat pb (2 * enclosureBits) with
    | some m => exact slotCountRefined_eq_some h (by omega) hr
    | none =>
      have hint := slotCountRefined_eq_none h (by omega) hr
      obtain ⟨g₁, g₂⟩ := slotCountReal_enclosed hb h
      have hw := slotCountRealHi_lt h
      generalize ⌈slotCountReal n.toNat pb⌉₊ = J at hint ⊢
      rw [Option.getD_none, slotCountLo_eq]
      congr 1
      rw [hint] at g₁ g₂
      refine le_antisymm (Nat.ceil_le.2 g₁) ?_
      rcases Nat.eq_zero_or_pos J with rfl | hJ
      · exact Nat.zero_le _
      · obtain ⟨j, rfl⟩ : ∃ j, J = j + 1 := ⟨J - 1, by omega⟩
        refine Nat.lt_ceil.2 ?_
        push_cast at g₂
        linarith

/-! ### k -/

/-- Two neighbouring fractions around ln 2, with the enclosure of ln 2 between them: a fraction strictly between them has
a denominator of at least the sum of theirs, which is above 2^46. -/
theorem ln2_neighbours :
    50847120240416 * 2 ^ enclosureBits < 73356888214333 * ln2Lo enclosureBits ∧
    16413504057361 * ln2Hi enclosureBits < 11376974060469 * 2 ^ enclosureBits ∧
    (11376974060469 * 73356888214333 = 50847120240416 * 16413504057361 + 1) := by
  refine ⟨?_, ?_, ?_⟩ <;> decide +kernel

/-- No fraction of a small denominator lies in the enclosure of ln 2. -/
theorem no_fraction_near_ln2 {x y : Nat} (hy : y < 2 ^ 46) (h₁ : y * ln2Lo enclosureBits ≤ x * 2 ^ enclosureBits)
    (h₂ : x * 2 ^ enclosureBits ≤ y * ln2Hi enclosureBits) (hy0 : 0 < y) : False := by
  obtain ⟨n₁, n₂, n₃⟩ := ln2_neighbours
  generalize 2 ^ enclosureBits = S at *
  have hS : 0 < S := by
    rcases Nat.eq_zero_or_pos S with rfl | h
    · simp at n₂
    · exact h
  have a₁ : 50847120240416 * y < 73356888214333 * x := by
    by_contra hc
    have hc : 73356888214333 * x ≤ 50847120240416 * y := by omega
    nlinarith
  have a₂ : 16413504057361 * x < 11376974060469 * y := by
    by_contra hc
    have hc : 11376974060469 * y ≤ 16413504057361 * x := by omega
    nlinarith
  omega

/-- k is max(1, ceil(k_real)) with k_real = (m/n) ln 2 (R153), for every m below 2^46. -/
theorem hashCount_exact {n m : Nat} (hn : 1 ≤ n) (hm0 : 1 ≤ m) (hm : m < 2 ^ 46) :
    hashCount n m = max 1 ⌈(m : ℝ) / n * Real.log 2⌉₊ := by
  obtain ⟨g₁, g₂⟩ := ln2_bounds enclosureBits
  have hS : (0 : ℝ) < 2 ^ enclosureBits := enclosure_scale_pos enclosureBits
  have hn' : (0 : ℝ) < n := by exact_mod_cast hn
  have hm' : (0 : ℝ) < m := by exact_mod_cast hm0
  have hd : 0 < n * 2 ^ enclosureBits := by positivity
  unfold hashCount
  rw [ceilDiv_eq_ceil _ hd]
  congr 1
  set lo : ℝ := ((m * ln2Lo enclosureBits : ℕ) : ℝ) / ((n * 2 ^ enclosureBits : ℕ) : ℝ) with hlo
  have lo_le : lo ≤ (m : ℝ) / n * Real.log 2 := by
    rw [hlo, div_le_iff₀ (by exact_mod_cast hd)]
    push_cast
    have e : (m : ℝ) / n * Real.log 2 * (n * 2 ^ enclosureBits) = m * (2 ^ enclosureBits * Real.log 2) := by
      field_simp
    rw [e]
    exact mul_le_mul_of_nonneg_left g₁ hm'.le
  refine le_antisymm (Nat.ceil_mono lo_le) ?_
  by_contra hc
  have hc : ⌈lo⌉₊ < ⌈(m : ℝ) / n * Real.log 2⌉₊ := by omega
  have h₁ : lo ≤ (⌈lo⌉₊ : ℝ) := Nat.le_ceil lo
  have h₂ : ((⌈lo⌉₊ : ℕ) : ℝ) < (m : ℝ) / n * Real.log 2 := Nat.lt_ceil.1 hc
  generalize ⌈lo⌉₊ = j at h₁ h₂
  refine no_fraction_near_ln2 (x := j * n) (y := m) hm ?_ ?_ hm0
  · rw [hlo, div_le_iff₀ (by exact_mod_cast hd)] at h₁
    have : ((m * ln2Lo enclosureBits : ℕ) : ℝ) ≤ ((j * n * 2 ^ enclosureBits : ℕ) : ℝ) := by
      push_cast at h₁ ⊢
      linarith
    exact_mod_cast this
  · have h₃ : (j : ℝ) * n * 2 ^ enclosureBits ≤ m * ln2Hi enclosureBits := by
      have h₄ : (j : ℝ) * n ≤ m * Real.log 2 := by
        have := mul_lt_mul_of_pos_right h₂ hn'
        have e : (m : ℝ) / n * Real.log 2 * n = m * Real.log 2 := by field_simp
        linarith
      calc (j : ℝ) * n * 2 ^ enclosureBits ≤ m * Real.log 2 * 2 ^ enclosureBits :=
            mul_le_mul_of_nonneg_right h₄ hS.le
        _ = m * (2 ^ enclosureBits * Real.log 2) := by ring
        _ ≤ m * ln2Hi enclosureBits := mul_le_mul_of_nonneg_left g₂ hm'.le
    exact_mod_cast h₃

/-! ### Bounds -/

/-- The clamp of m never acts, and m grows linearly with n: n c(p) <= m < n c(p) + 1 (R154, R155). -/
theorem slotCount_linear {n : Word} {pb : Pattern} (h : validInputs n pb = true) :
    slotCountReal n.toNat pb ≤ slotCount n.toNat pb ∧ (slotCount n.toNat pb : ℝ) < slotCountReal n.toNat pb + 1 := by
  have hpos := slotCountReal_pos h
  rw [slotCount_exact h, max_eq_right (Nat.one_le_ceil_iff.2 hpos)]
  exact ⟨Nat.le_ceil _, Nat.ceil_lt_add_one hpos.le⟩

/-- 1074 ln 2 / (ln 2)^2 is below 1549.46, on the enclosures (R155). -/
theorem ln2_ratio : 100 * (1074 * ln2Hi enclosureBits * 2 ^ enclosureBits) ≤ 154946 * ln2Lo enclosureBits ^ 2 := by decide +kernel

/-- m <= 1549.46 n + 1 (R155). -/
theorem slotCount_le {n : Word} {pb : Pattern} (h : validInputs n pb = true) :
    1 ≤ slotCount n.toNat pb ∧ 100 * slotCount n.toNat pb ≤ 154946 * n.toNat + 100 := by
  obtain ⟨hn, _⟩ := valid_pattern h
  obtain ⟨_, _, hd⟩ := negExponent_eq h
  have hle := (slotCount_enclosed two_le_enclosureBits h).2
  have hhi : 100 * slotCountHi enclosureBits n.toNat pb ≤ 154946 * n.toNat + 100 := by
    have hneg : negLnHi enclosureBits pb ≤ 1074 * ln2Hi enclosureBits :=
      (Nat.sub_le _ _).trans (Nat.mul_le_mul_right _ hd)
    have hr := ln2_ratio
    unfold slotCountHi ceilDiv
    have hpos : 0 < ln2Lo enclosureBits ^ 2 := Nat.pow_pos (ln2Lo_pos two_le_enclosureBits)
    generalize ln2Lo enclosureBits ^ 2 = D at *
    have hnum : 100 * (n.toNat * negLnHi enclosureBits pb * 2 ^ enclosureBits) ≤ 154946 * n.toNat * D := by
      calc 100 * (n.toNat * negLnHi enclosureBits pb * 2 ^ enclosureBits)
          ≤ 100 * (n.toNat * (1074 * ln2Hi enclosureBits) * 2 ^ enclosureBits) := by gcongr
        _ = n.toNat * (100 * (1074 * ln2Hi enclosureBits * 2 ^ enclosureBits)) := by ring
        _ ≤ n.toNat * (154946 * D) := Nat.mul_le_mul_left _ hr
        _ = 154946 * n.toNat * D := by ring
    generalize n.toNat * negLnHi enclosureBits pb * 2 ^ enclosureBits = A at *
    have hq := Nat.div_mul_le_self (A + D - 1) D
    by_contra hc
    generalize (A + D - 1) / D = q at *
    have hc : 154946 * n.toNat + 101 ≤ 100 * q := by omega
    have h₁ : (154946 * n.toNat + 101) * D ≤ 100 * q * D := Nat.mul_le_mul_right D hc
    have h₂ : q * D + 1 ≤ A + D := by omega
    linarith [h₁, h₂, hnum]
  rw [slotCount_exact h]
  omega

theorem slotCount_lt {n : Word} {pb : Pattern} (h : validInputs n pb = true) :
    slotCount n.toNat pb < 2 ^ 43 := by
  have := (slotCount_le h).2
  have := n.isLt
  omega

/-- (1549.46 + 1) ln 2 and 1549.46 ln 2 are at most 1075, on the enclosure (R155). -/
theorem ln2_hash_ratio :
    154946 * ln2Lo enclosureBits + 100 * ln2Lo enclosureBits ≤ 107500 * 2 ^ enclosureBits ∧
    154946 * ln2Lo enclosureBits ≤ 107500 * 2 ^ enclosureBits := by
  constructor <;> decide +kernel

/-- 1 <= k <= 1075 (R155). -/
theorem hashCount_le {n : Word} {pb : Pattern} (h : validInputs n pb = true) :
    1 ≤ hashCount n.toNat (slotCount n.toNat pb) ∧ hashCount n.toNat (slotCount n.toNat pb) ≤ 1075 := by
  obtain ⟨hn, _⟩ := valid_pattern h
  obtain ⟨_, hm⟩ := slotCount_le h
  obtain ⟨r₁, r₂⟩ := ln2_hash_ratio
  refine ⟨le_max_left _ _, max_le (by norm_num) ?_⟩
  generalize slotCount n.toNat pb = m at *
  generalize n.toNat = N at *
  have hS : 0 < 2 ^ enclosureBits := by positivity
  generalize 2 ^ enclosureBits = S at *
  generalize ln2Lo enclosureBits = L at *
  have hnum : m * L ≤ 1075 * (N * S) := by
    have h₁ : 100 * m * L ≤ (154946 * N + 100) * L := Nat.mul_le_mul_right _ hm
    obtain ⟨q, rfl⟩ : ∃ q, N = q + 1 := ⟨N - 1, by omega⟩
    have h₂ : q * (154946 * L) ≤ q * (107500 * S) := Nat.mul_le_mul_left _ r₂
    nlinarith
  have hpos : 0 < N * S := by positivity
  unfold ceilDiv
  generalize N * S = D at *
  rw [Nat.div_le_iff_le_mul_add_pred hpos]
  omega

end Sys2Proof.Machine
end

