-- ==== Sys2Proof/Machine/Parametric.lean ====
section
/-! DEFINITION. The same machine with the configuration as an argument (spec rule R17): for running it on a configuration
that is known, such as REF of rule R7. `exec` and `step` are these at `Config.impl` (Laws/Parametric.lean). -/

namespace Sys2Proof.Machine

/-- A command run on the configuration `c`. -/
def execAt (c : Config) (i : Instr) (s : State) : Result :=
  match i with
  | .nop => nopAt c s
  | .configure => configureAt c s
  | .readSlot => readSlotAt c s
  | .incSlot => incSlotAt c s
  | .decSlot => decSlotAt c s
  | .readByte => readByteAt c s
  | .hashSlot => hashSlotAt c s
  | .map => mapAt c s
  | .insert => insertAt c s
  | .delete => deleteAt c s
  | .lookup => lookupCommandAt c s

/-- One step on the configuration `c`. -/
def stepAt (c : Config) (s : State) : Result :=
  stepWith c (execAt c) s

/-- `k` steps on the configuration `c`, stopping at the first fault or refusal. -/
def runAt (c : Config) : Nat → State → Result
  | 0, s => .next s
  | k + 1, s =>
    match stepAt c s with
    | .next s' => runAt c k s'
    | .fault f => .fault f
    | .refused r => .refused r

end Sys2Proof.Machine
end

