-- ==== Sys2Proof/Laws/Parametric.lean ====
section
/-! SUPPORT. The machine at hand is the parametric machine at `Config.impl` (spec rule R17). -/

namespace Sys2Proof.Machine

theorem exec_eq_execAt (i : Instr) (s : State) : exec i s = execAt Config.impl i s := by
  cases i <;> rfl

theorem step_eq_stepAt (s : State) : step s = stepAt Config.impl s := by
  have h : exec = execAt Config.impl := by
    funext i s
    exact exec_eq_execAt i s
  unfold step stepAt
  rw [h]

end Sys2Proof.Machine
end

