-- ==== Sys2Proof/Laws/Machine.lean ====
section
/-! SUPPORT. What any command and any step can do, said once: the inversion lemmas from which the invariants and the
whole-machine rules follow, and what the updates of the counter RAM keep. -/

namespace Sys2Proof.Machine

/-! ### Commands -/

/-- Every way a command can answer a next state: it fails; it is CONFIGURE and makes an instance; it completes after
increments; or it is DEC_SLOT or DELETE and completes after decrements. A command that changes no counter is the
third case with an empty list. -/
theorem execAt_next {c : Config} {i : Instr} {s t : State} (h : execAt c i s = .next t) :
    (∃ e, t = cmdError s e) ∨
    (i = .configure ∧ firstError (configureChecks c s) = none ∧
      t = complete (newInstance s (derive s.n (stagedPattern s))) 0 0 0) ∨
    (i ≠ .configure ∧ ∃ (S : List Nat) (r : Nat), (∀ j ∈ S, j < s.m.toNat) ∧
      (i ≠ .incSlot ∧ i ≠ .insert → S = []) ∧
      t = complete (incrementAll s S).1 r (incrementAll s S).2 0) ∨
    ((i = .decSlot ∨ i = .delete) ∧ ∃ (S : List Nat) (r : Nat), (∀ j ∈ S, j < s.m.toNat) ∧
      t = complete (decrementAll s s.ctrl.decFloor0 S).1 r 0 (decrementAll s s.ctrl.decFloor0 S).2) := by
  have argument_lt : ∀ {l : List (Bool × ErrCode)}, firstError l = none →
      (decide (s.m.toNat ≤ argument s), ErrCode.indexRange) ∈ l → argument s < s.m.toNat := by
    intro l hl hm
    have := firstError_eq_none_iff.1 hl _ hm
    simpa using this
  have m_pos : instanceInRange c s = true → 1 ≤ s.m.toNat := fun h => ((instanceInRange_iff c s).1 h).1
  cases i with
  | nop => exact .inr (.inr (.inl ⟨by simp, [], 0, by simp, by simp, by simpa [execAt, nopAt] using h.symm⟩))
  | configure =>
    rcases configureAt_next h with ⟨e, _, rfl⟩ | ⟨hn, rfl⟩
    · exact .inl ⟨e, rfl⟩
    · exact .inr (.inl ⟨rfl, hn, rfl⟩)
  | readSlot =>
    rcases readSlotAt_next h with ⟨e, _, rfl⟩ | ⟨_, _, rfl⟩
    · exact .inl ⟨e, rfl⟩
    · exact .inr (.inr (.inl ⟨by simp, [], _, by simp, by simp, rfl⟩))
  | incSlot =>
    rcases incSlotAt_next h with ⟨e, _, rfl⟩ | ⟨hn, _, rfl⟩
    · exact .inl ⟨e, rfl⟩
    · refine .inr (.inr (.inl ⟨by simp, [argument s], _, ?_, by simp, rfl⟩))
      simpa using argument_lt hn (by simp [incSlotChecks])
  | decSlot =>
    rcases decSlotAt_next h with ⟨e, _, rfl⟩ | ⟨hn, _, rfl⟩
    · exact .inl ⟨e, rfl⟩
    · refine .inr (.inr (.inr ⟨by simp, [argument s], _, ?_, rfl⟩))
      simpa using argument_lt hn (by simp [decSlotChecks])
  | readByte =>
    rcases readByteAt_next h with ⟨e, _, rfl⟩ | ⟨_, _, rfl⟩
    · exact .inl ⟨e, rfl⟩
    · exact .inr (.inr (.inl ⟨by simp, [], _, by simp, by simp, rfl⟩))
  | hashSlot =>
    rcases hashSlotAt_next h with ⟨e, _, rfl⟩ | ⟨_, _, _, rfl⟩
    · exact .inl ⟨e, rfl⟩
    · exact .inr (.inr (.inl ⟨by simp, [], _, by simp, by simp, rfl⟩))
  | map =>
    rcases mapAt_next h with ⟨e, _, rfl⟩ | ⟨_, _, _, rfl⟩
    · exact .inl ⟨e, rfl⟩
    · exact .inr (.inr (.inl ⟨by simp, [], _, by simp, by simp, rfl⟩))
  | insert =>
    rcases insertAt_next h with ⟨e, _, rfl⟩ | ⟨_, hi, _, rfl⟩
    · exact .inl ⟨e, rfl⟩
    · exact .inr (.inr (.inl ⟨by simp, _, _, mem_slotsOf_lt (m_pos hi), by simp, rfl⟩))
  | delete =>
    rcases deleteAt_next h with ⟨e, _, rfl⟩ | ⟨_, hi, _, ⟨_, rfl⟩ | ⟨_, rfl⟩⟩
    · exact .inl ⟨e, rfl⟩
    · exact .inr (.inr (.inl ⟨by simp, [], _, by simp, by simp, rfl⟩))
    · exact .inr (.inr (.inr ⟨by simp, _, _, mem_slotsOf_lt (m_pos hi), rfl⟩))
  | lookup =>
    rcases lookupCommandAt_next h with ⟨e, _, rfl⟩ | ⟨_, _, _, rfl⟩
    · exact .inl ⟨e, rfl⟩
    · exact .inr (.inr (.inl ⟨by simp, [], _, by simp, by simp, rfl⟩))

/-- The fields no counter update touches, by the state the update leaves. -/
theorem SameButCram.fields {s t : State} (h : SameButCram s t) :
    t.ctrl = s.ctrl ∧ t.status = s.status ∧ t.arg0 = s.arg0 ∧ t.result = s.result ∧ t.n = s.n ∧ t.pLo = s.pLo ∧
    t.pHi = s.pHi ∧ t.m = s.m ∧ t.k = s.k ∧ t.cfgN = s.cfgN ∧ t.cfgPLo = s.cfgPLo ∧ t.cfgPHi = s.cfgPHi ∧
    t.keyLen = s.keyLen ∧ t.satCnt = s.satCnt ∧ t.floorCnt = s.floorCnt ∧ t.digest = s.digest ∧ t.key = s.key ∧
    t.script = s.script ∧ t.responses = s.responses := by
  rw [h]; simp

/-- The fields the host writes, its script and the responses: no command writes them (R132). -/
def SameHostFields (s t : State) : Prop :=
  t.ctrl = s.ctrl ∧ t.arg0 = s.arg0 ∧ t.n = s.n ∧ t.pLo = s.pLo ∧ t.pHi = s.pHi ∧ t.keyLen = s.keyLen ∧
    t.digest = s.digest ∧ t.key = s.key ∧ t.script = s.script ∧ t.responses = s.responses

/-- The fields of the instance but for the counters. -/
def SameInstance (s t : State) : Prop :=
  t.status.configured = s.status.configured ∧ t.m = s.m ∧ t.k = s.k ∧ t.cfgN = s.cfgN ∧ t.cfgPLo = s.cfgPLo ∧
    t.cfgPHi = s.cfgPHi

theorem execAt_sameHostFields {c : Config} {i : Instr} {s t : State} (h : execAt c i s = .next t) :
    SameHostFields s t := by
  rcases execAt_next h with ⟨e, rfl⟩ | ⟨_, _, rfl⟩ | ⟨_, S, r, _, _, rfl⟩ | ⟨_, S, r, _, rfl⟩
  · simp [SameHostFields]
  · simp [SameHostFields]
  · have := (sameButCram_incrementAll S s).fields
    simp [SameHostFields, this]
  · have := (sameButCram_decrementAll s.ctrl.decFloor0 S s).fields
    simp [SameHostFields, this]

theorem execAt_sameInstance {c : Config} {i : Instr} {s t : State} (h : execAt c i s = .next t)
    (hi : i ≠ .configure) : SameInstance s t := by
  rcases execAt_next h with ⟨e, rfl⟩ | ⟨h, _, _⟩ | ⟨_, S, r, _, _, rfl⟩ | ⟨_, S, r, _, rfl⟩
  · simp [SameInstance]
  · exact absurd h hi
  · have := (sameButCram_incrementAll S s).fields
    simp [SameInstance, this]
  · have := (sameButCram_decrementAll s.ctrl.decFloor0 S s).fields
    simp [SameInstance, this]

/-! ### The counter RAM through the updates -/

/-- The counter RAM of an instance of m slots: canonical, nothing from byte ceil(m/2) on, the pad nibble 0. -/
structure CramOk (m : Nat) (mem : List Host.Cell) : Prop where
  canonical : memWf mem = true
  within : ∀ j, ceilDiv m 2 ≤ j → memRead mem j = 0x00#8
  padClear : m % 2 = 1 → memRead mem ((m - 1) / 2) >>> 4 = 0x00#8

theorem cramOk_clear (m : Nat) : CramOk m memClear :=
  ⟨memWf_memClear, fun j _ => memRead_memClear j, fun _ => by simp⟩

theorem withNibble_even_high (b : Byte) {i : Nat} (v : Nibble) (h : i % 2 = 0) (hb : b >>> 4 = 0x00#8) :
    withNibble b i v >>> 4 = 0x00#8 := by
  rw [withNibble_congr b (j := 0) v (by simpa using h)]
  revert b v; decide

theorem cramOk_setCounter {m : Nat} {s : State} {i : Nat} (v : Nibble) (hi : i < m) (h : CramOk m s.cram) :
    CramOk m (setCounter s i v).cram := by
  refine ⟨memWf_setCounter i v h.canonical, fun j hj => ?_, fun hm => ?_⟩
  · unfold ceilDiv at hj
    rw [memRead_setCounter_other s v (by omega)]
    exact h.within j hj
  · by_cases hb : (m - 1) / 2 = i / 2
    · have hodd : i % 2 = 0 := by omega
      rw [hb, setCounter_cram, memRead_memWrite_same]
      exact withNibble_even_high _ v hodd (hb ▸ h.padClear hm)
    · rw [memRead_setCounter_other s v hb]
      exact h.padClear hm

theorem cramOk_incrementAll {m : Nat} (S : List Nat) {s : State} (hS : ∀ i ∈ S, i < m) (h : CramOk m s.cram) :
    CramOk m (incrementAll s S).1.cram := by
  induction S generalizing s with
  | nil => exact h
  | cons i S ih =>
    have first : CramOk m (increment s i).1.cram := by
      rw [increment_eq]
      exact cramOk_setCounter _ (hS i (by simp)) h
    exact ih (fun j hj => hS j (by simp [hj])) first

theorem cramOk_decrementAll {m : Nat} (pol : Bool) (S : List Nat) {s : State} (hS : ∀ i ∈ S, i < m)
    (h : CramOk m s.cram) : CramOk m (decrementAll s pol S).1.cram := by
  induction S generalizing s with
  | nil => exact h
  | cons i S ih =>
    have first : CramOk m (decrement s pol i).1.cram := by
      rw [decrement_eq]
      exact cramOk_setCounter _ (hS i (by simp)) h
    exact ih (fun j hj => hS j (by simp [hj])) first

/-! ### Steps -/

/-- Every way a step can answer a next state. -/
theorem stepWith_next {c : Config} {run : Instr → State → Result} {s t : State} (h : stepWith c run s = .next t) :
    (s.script = [] ∧ t = s) ∨
    (∃ a rest, s.script = .reset a :: rest ∧ t = afterReset { s with script := rest }) ∨
    (∃ x rest, s.script = .request x :: rest ∧ isLegal x = false ∧
      t = respond { s with script := rest } busError) ∨
    (∃ x rest v, s.script = .request x :: rest ∧ isLegal x = true ∧ x.dir = .read ∧
      readReg c { s with script := rest } (regAt x.addr) = .ok v ∧
      t = respond { s with script := rest } (readDone v)) ∨
    (∃ x rest, s.script = .request x :: rest ∧ isLegal x = true ∧ x.dir = .write ∧ x.addr ≠ cmdOffset ∧
      t = respond (writeReg c { s with script := rest } (regAt x.addr) x.wdata) writeDone) ∨
    (∃ x rest e, s.script = .request x :: rest ∧ isLegal x = true ∧ x.dir = .write ∧ x.addr = cmdOffset ∧
      decode x.wdata = .error e ∧
      t = respond (cmdError { s with script := rest } .illegalCommand) writeDone) ∨
    (∃ x rest i u, s.script = .request x :: rest ∧ isLegal x = true ∧ x.dir = .write ∧ x.addr = cmdOffset ∧
      decode x.wdata = .ok i ∧ run i { s with script := rest } = .next u ∧ t = respond u writeDone) := by
  unfold stepWith at h
  split at h
  · rename_i hs
    exact .inl ⟨hs, by simpa using h.symm⟩
  · rename_i ev rest hs
    cases ev with
    | reset a => exact .inr (.inl ⟨a, rest, hs, by simpa [perform] using h.symm⟩)
    | request x =>
      simp only [perform, transact] at h
      split at h
      · rename_i hl
        split at h
        · rename_i hd
          split at h
          · rename_i v hv
            exact .inr (.inr (.inr (.inl ⟨x, rest, v, hs, hl, hd, hv, by simpa using h.symm⟩)))
          · cases h
        · rename_i hd
          split at h
          · rename_i ha
            unfold runCommand at h
            split at h
            · rename_i e he
              exact .inr (.inr (.inr (.inr (.inr (.inl
                ⟨x, rest, e, hs, hl, hd, ha, he, by simpa [afterCommand] using h.symm⟩)))))
            · rename_i i hi
              unfold afterCommand at h
              split at h
              · rename_i u hu
                exact .inr (.inr (.inr (.inr (.inr (.inr
                  ⟨x, rest, i, u, hs, hl, hd, ha, hi, hu, by simpa using h.symm⟩)))))
              · cases h
              · cases h
          · rename_i ha
            exact .inr (.inr (.inr (.inr (.inl ⟨x, rest, hs, hl, hd, ha, by simpa using h.symm⟩))))
      · rename_i hl
        exact .inr (.inr (.inl ⟨x, rest, hs, by simpa using hl, by simpa using h.symm⟩))

/-- What a write of a register leaves alone, whatever stands at the offset: every field the host does not write. -/
theorem writeReg_fields (c : Config) (s : State) (r : Reg) (v : Word) :
    (writeReg c s r v).status = s.status ∧ (writeReg c s r v).result = s.result ∧ (writeReg c s r v).m = s.m ∧
    (writeReg c s r v).k = s.k ∧ (writeReg c s r v).cfgN = s.cfgN ∧ (writeReg c s r v).cfgPLo = s.cfgPLo ∧
    (writeReg c s r v).cfgPHi = s.cfgPHi ∧ (writeReg c s r v).satCnt = s.satCnt ∧
    (writeReg c s r v).floorCnt = s.floorCnt ∧ (writeReg c s r v).cram = s.cram ∧
    (writeReg c s r v).script = s.script ∧ (writeReg c s r v).responses = s.responses := by
  cases r <;> simp [writeReg] <;> split_ifs <;> simp

/-! ### The command the next step runs -/

theorem nextCommand_of {s : State} {x : Transaction} {rest : List PortEvent} {i : Instr}
    (hs : s.script = .request x :: rest) (hl : isLegal x = true) (hd : x.dir = .write) (ha : x.addr = cmdOffset)
    (hi : decode x.wdata = .ok i) : nextCommand s = some i := by
  simp [nextCommand, nextRequest, hs, hl, hd, ha, hi]

theorem nextIsReset_of {s : State} {a : Option Transaction} {rest : List PortEvent}
    (hs : s.script = .reset a :: rest) : nextIsReset s = true := by
  simp [nextIsReset, hs]

/-- A step that runs a command is that command and its answer, on the state with the event taken off. -/
theorem step_of_nextCommand {s : State} {i : Instr} (h : nextCommand s = some i) :
    ∃ rest, step s = afterCommand (exec i { s with script := rest }) := by
  unfold nextCommand at h
  split at h
  · rename_i x hx
    unfold nextRequest at hx
    split at hx
    · rename_i y rest hs
      cases hx
      refine ⟨rest, ?_⟩
      split at h
      · rename_i hc
        simp only [Bool.and_eq_true, beq_iff_eq] at hc
        split at h
        · rename_i j hj
          cases h
          simp [step, stepWith, hs, perform, transact, hc.1.1, hc.1.2, hc.2, runCommand, hj]
        · cases h
      · cases h
    · cases hx
  · cases h

/-! ### Runs -/

/-- A run of no step ends where it starts. -/
theorem run_zero {s t : State} (h : Host.Core.run Sys2Proof.core 0 s = .next t) : t = s := by
  have h' : (.next s : Result) = .next t := h
  simpa using h'.symm

/-- A run of k + 1 steps is one step and then, if that answers a next state, a run of k steps. -/
theorem core_run_succ (M : Host.Core) (k : Nat) (s : M.State) :
    M.run (k + 1) s = match M.step s with
      | .next u => M.run k u
      | .fault f => .fault f
      | .refused r => .refused r := rfl

theorem core_run_succ_next {M : Host.Core} {k : Nat} {s t : M.State} (h : M.run (k + 1) s = .next t) :
    ∃ u, M.step s = .next u ∧ M.run k u = .next t := by
  rw [core_run_succ] at h
  split at h
  · exact ⟨_, ‹_›, h⟩
  · cases h
  · cases h

theorem core_run_succ_of {M : Host.Core} {k : Nat} {s u t : M.State} (hs : M.step s = .next u)
    (h : M.run k u = .next t) : M.run (k + 1) s = .next t := by
  rw [core_run_succ, hs]
  exact h

/-- A run of k + 1 steps that ends is one step and a run of k steps that ends. -/
theorem run_succ {k : Nat} {s t : State} (h : Host.Core.run Sys2Proof.core (k + 1) s = .next t) :
    ∃ u, step s = .next u ∧ Host.Core.run Sys2Proof.core k u = .next t :=
  core_run_succ_next (M := Sys2Proof.core) h

/-- The other way round. -/
theorem run_succ_of {k : Nat} {s u t : State} (hs : step s = .next u)
    (h : Host.Core.run Sys2Proof.core k u = .next t) : Host.Core.run Sys2Proof.core (k + 1) s = .next t :=
  core_run_succ_of (M := Sys2Proof.core) hs h

/-- A condition along a run holds now and along the rest of the run. -/
theorem alongRun_succ {P : State → Prop} {k : Nat} {s u : State} (hu : step s = .next u)
    (h : alongRun P (k + 1) s) : P s ∧ alongRun P k u := by
  rw [alongRun, hu] at h
  exact h

end Sys2Proof.Machine
end

