-- ==== Sys2Proof/Laws/PerInstr.lean ====
section
/-! SUPPORT. One law per command about its word: the reserved bits are 0, no other command has the same word, and the
opcode table's bits of it decode to the command (spec rules R90, R94). -/

namespace Sys2Proof.Laws.Encoding

/-- The word of a command keeps the form CMDW, is its own, and is read back from the table's numbering of its bits. -/
def Statement (i : Instr) : Prop :=
  reservedClear (encode i) = true ∧ (∀ j : Instr, encode j = encode i → j = i) ∧
    decodeTableWord 32 (encode i).toNat = some i

theorem own {i j : Instr} (h : encode j = encode i) : j = i := by
  cases i <;> cases j <;> first | rfl | exact absurd h (by decide)

theorem nop : Statement .nop := ⟨by decide, fun _ => own, by decide⟩

theorem configure : Statement .configure := ⟨by decide, fun _ => own, by decide⟩

theorem readSlot : Statement .readSlot := ⟨by decide, fun _ => own, by decide⟩

theorem incSlot : Statement .incSlot := ⟨by decide, fun _ => own, by decide⟩

theorem decSlot : Statement .decSlot := ⟨by decide, fun _ => own, by decide⟩

theorem readByte : Statement .readByte := ⟨by decide, fun _ => own, by decide⟩

theorem hashSlot : Statement .hashSlot := ⟨by decide, fun _ => own, by decide⟩

theorem map : Statement .map := ⟨by decide, fun _ => own, by decide⟩

theorem insert : Statement .insert := ⟨by decide, fun _ => own, by decide⟩

theorem delete : Statement .delete := ⟨by decide, fun _ => own, by decide⟩

theorem lookup : Statement .lookup := ⟨by decide, fun _ => own, by decide⟩

end Sys2Proof.Laws.Encoding
end

