-- ==== Sys2Proof/Tests/Slice0.lean ====
section
/-! SUPPORT. The model's own tests. The expected results are those of spec/95_test_vectors.md, named by their vectors, on the
configuration REF with INST-MD5 (R7); and for each obligation with hypotheses a witness that meets them. -/

namespace Sys2Proof.Tests

open Sys2Proof.Machine

/-! ### The configuration REF with INST-MD5 (R7): the digests are the table of vector SM-0 -/

/-- Seeds as ASCII decimals without padding. -/
def seedAscii (j : Nat) : List Byte :=
  if j < 10 then [BitVec.ofNat 8 (0x30 + j)] else [BitVec.ofNat 8 (0x30 + j / 10), BitVec.ofNat 8 (0x30 + j % 10)]

/-- The keys "42", "7", "hello" and "". -/
def key42 : List Byte := [0x34, 0x32]
def key7 : List Byte := [0x37]
def keyHello : List Byte := [0x68, 0x65, 0x6C, 0x6C, 0x6F]

/-- SM-0, by key and seed. -/
def digestTable : List (List Byte × Nat) :=
  [(key42 ++ [0x31], 0xE0C641195B27425BB056AC56F8953D24), (key42 ++ [0x32], 0xF85454E8279BE180185CAC7D243C5EB3),
   (key42 ++ [0x33], 0xFAA9AFEA49EF2FF029A833CCCC778FD0), (key7 ++ [0x31], 0xE2C420D928D4BF8CE0FF2EC19B371514),
   (key7 ++ [0x32], 0x32BB90E8976AAB5298D5DA10FE66F21D), (key7 ++ [0x33], 0xD2DDEA18F00665CE8623E36BD4E3C7C5),
   (keyHello ++ [0x31], 0x203AD5FFA1D7C650AD681FDFF3965CD2),
   (keyHello ++ [0x32], 0x6E809CBDA0732AC4845916A59016F954),
   (keyHello ++ [0x33], 0x7CE8BE0FA3932E840F6A19C2B83E11AE), ([0x31], 0xC4CA4238A0B923820DCC509A6F75849B),
   ([0x32], 0xC81E728D9D4C2F636F067F89CC14862C), ([0x33], 0xECCBC87E4B5CE2FE28308FD9F2A7BAF3)]

/-- REF: M_MAX = 2^20, K_MAX = 32, KEY_MAX = 64, DW = 128. -/
def ref : Config where
  mMaxPred := 1048575
  kMaxPred := 31
  keyWordsPred := 15
  digestWordsExtra := 0
  digestRaw := fun x => ((digestTable.find? fun p => p.1 == x).map fun p => p.2).getD 0
  seedEnc := seedAscii

/-- The fresh instance I9 (PD-14): M = 9, K = 3. -/
def i9 : State :=
  { State.reset with
    status := { configured := true, err := .noError, sat := false, floor := false }
    m := 9, k := 3, n := 3, pHi := 0x3FD00000, cfgN := 3, cfgPHi := 0x3FD00000 }

/-- A state with a key in the key buffer, packed by hand (EN-19, EN-20). -/
def holding42 (s : State) : State := { s with key := [(0, 0x00003234)], keyLen := 2 }
def holding7 (s : State) : State := { s with key := [(0, 0x00000037)], keyLen := 1 }

/-- A command's RESULT and STATUS, as the host reads them. -/
def seen : Result → Option (Word × Word)
  | .next s => some (s.result, statusWord s.status)
  | _ => none

/-- The counter bytes and the two debug counters. -/
def counted : Result → Option (List Host.Cell × Word × Word)
  | .next s => some (s.cram, s.satCnt, s.floorCnt)
  | _ => none

/-- The next state. -/
def after : Result → Option State
  | .next s => some s
  | _ => none

/-- The fault. -/
def faulted : Result → Option Fault
  | .fault f => some f
  | _ => none

/-- The last response of a step. -/
def answered : Result → Option Response
  | .next s => s.responses.getLast?
  | _ => none

/-- A state whose next event is a legal write or read, or a transaction of another size. -/
def before (x : Transaction) (s : State) : State := { s with script := [.request x] }
def writing (a : Offset) (v : Word) : State → State := before { dir := .write, addr := a, size := .word, wdata := v }
def reading (a : Offset) : State → State := before { dir := .read, addr := a, size := .word, wdata := 0 }

/-! ### WellFormed: an ill-formed word for each check -/

theorem test_reserved_bit_refused : wordWellFormed 0x00000100#32 = false ∧ opcodeDefined 0x00000100#32 = true := by decide

theorem test_undefined_opcode_refused : wordWellFormed 0x0000000B#32 = false ∧ reservedClear 0x0000000B#32 = true := by
  decide

theorem test_last_opcode_well_formed : wordWellFormed 0x0000000A#32 = true := by decide

/-! ### Decoding, from the encodings written out in the rules -/

theorem test_decode_nop : decode 0b00000000000000000000000000000000#32 = .ok .nop := by decide
theorem test_decode_configure : decode 0b00000000000000000000000000000001#32 = .ok .configure := by decide
theorem test_decode_readSlot : decode 0b00000000000000000000000000000010#32 = .ok .readSlot := by decide
theorem test_decode_incSlot : decode 0b00000000000000000000000000000011#32 = .ok .incSlot := by decide
theorem test_decode_decSlot : decode 0b00000000000000000000000000000100#32 = .ok .decSlot := by decide
theorem test_decode_readByte : decode 0b00000000000000000000000000000101#32 = .ok .readByte := by decide
theorem test_decode_hashSlot : decode 0b00000000000000000000000000000110#32 = .ok .hashSlot := by decide
theorem test_decode_map : decode 0b00000000000000000000000000000111#32 = .ok .map := by decide
theorem test_decode_insert : decode 0b00000000000000000000000000001000#32 = .ok .insert := by decide
theorem test_decode_delete : decode 0b00000000000000000000000000001001#32 = .ok .delete := by decide
theorem test_decode_lookup : decode 0b00000000000000000000000000001010#32 = .ok .lookup := by decide

/-- EN-12 to EN-17. -/
theorem test_decode_illegal :
    decode 0x0000000B#32 = .error .undefinedOpcode ∧ decode 0x000000FF#32 = .error .undefinedOpcode ∧
    decode 0x00000100#32 = .error .reservedBitsSet ∧ decode 0x80000008#32 = .error .reservedBitsSet ∧
    decode 0xFFFFFFFF#32 = .error .reservedBitsSet ∧ decode 0x00010001#32 = .error .reservedBitsSet := by decide

theorem test_decodeTableWord : decodeTableWord 32 0x0A = some .lookup ∧ decodeTableWord 32 0x0B = none := by decide

/-- The fetched word runs first after reset: LOOKUP there fails with NOT_CONFIGURED (RS-3). -/
theorem test_withFetchWord : seen (step (State.reset.withFetchWord 32 0x0A)) = some (0, 0x00000020) := by decide

/-! ### The host script notation -/

/-- The offset and data of each write of a script. -/
def writes : List PortEvent → List (Nat × Nat)
  | [] => []
  | .request x :: rest => (x.addr.toNat, x.wdata.toNat) :: writes rest
  | .reset _ :: rest => writes rest

/-- EN-23. -/
theorem test_setKey : writes (setKey keyHello) = [(0x400, 0x6C6C6568), (0x404, 0x0000006F), (0x044, 5)] := by decide

/-- EN-25. -/
theorem test_setKey_empty : writes (setKey []) = [(0x044, 0)] := by decide

/-- EN-26. -/
theorem test_setP : writes (setP 0x3F50624DD2F1A9FC) = [(0x028, 0xD2F1A9FC), (0x02C, 0x3F50624D)] := by decide

/-- EN-27. -/
theorem test_setDigest : writes (setDigest ref 0x203AD5FFA1D7C650AD681FDFF3965CD2) =
    [(0x080, 0xF3965CD2), (0x084, 0xAD681FDF), (0x088, 0xA1D7C650), (0x08C, 0x203AD5FF)] := by decide

/-- P1, statement 1. -/
theorem test_newFilter : writes (newFilter 3 0x3FD0000000000000) =
    [(0x024, 3), (0x028, 0), (0x02C, 0x3FD00000), (0x018, 1)] := by decide

/-- EN-28 and REPEAT. -/
theorem test_slotOp : writes (repeated 2 (slotOp .incSlot 8)) = [(0x01C, 8), (0x018, 3), (0x01C, 8), (0x018, 3)] := by
  decide

/-! ### The register window (BUS) -/

/-- BUS-1 to BUS-4. -/
theorem test_constants :
    answered (stepAt ref (reading 0x000 State.reset)) = some (readDone 0x43424631) ∧
    answered (stepAt ref (reading 0x004 State.reset)) = some (readDone 0x00100000) ∧
    answered (stepAt ref (reading 0x008 State.reset)) = some (readDone 0x00400020) ∧
    answered (stepAt ref (reading 0x00C State.reset)) = some (readDone 0x00000080) := by decide

/-- BUS-7: the reserved bits of CTRL are dropped. -/
theorem test_ctrl_write :
    after (stepAt ref (writing 0x010 0xFFFFFFFF State.reset)) = some { State.reset with ctrl := { diagEn := true, decFloor0 := true }, responses := [writeDone] } ∧
    answered (stepAt ref (reading 0x010 { State.reset with ctrl := { diagEn := true, decFloor0 := true } })) =
      some (readDone 3) := by decide

/-- BUS-21's STATUS, read. -/
theorem test_status_read :
    answered (stepAt ref (reading 0x014 { i9 with
      status := { configured := true, err := .indexRange, sat := false, floor := false } })) =
      some (readDone 0x00000061) := by decide

/-- BUS-8, BUS-9, BUS-10, BUS-11, BUS-12: ignored writes. -/
theorem test_ignored_writes :
    ∀ a ∈ [0x000#11, 0x014#11, 0x050#11, 0x440#11, 0x090#11],
      after (stepAt ref (writing a 0x12345678 State.reset)) = some { State.reset with responses := [writeDone] } := by decide

/-- BUS-11 and BUS-12: RAZ words beyond capacity. -/
theorem test_beyond_capacity_reads :
    answered (stepAt ref (reading 0x440 State.reset)) = some (readDone 0) ∧
    answered (stepAt ref (reading 0x090 State.reset)) = some (readDone 0) := by decide

/-- BUS-13, BUS-14, RS-6. -/
theorem test_key_words :
    after (stepAt ref (writing 0x400 0x11223344 State.reset)) = some { State.reset with key := [(0, 0x11223344)], responses := [writeDone] } ∧
    answered (stepAt ref (reading 0x400 { State.reset with key := [(0, 0x11223344)] })) = some (readDone 0x11223344) ∧
    faulted (stepAt ref (reading 0x404 { State.reset with key := [(0, 0x11223344)] })) = some (.readUnwrittenKey 1) := by decide

/-- BUS-16 to BUS-20. -/
theorem test_bus_errors :
    after (stepAt ref (reading 0x019 i9)) = some { i9 with responses := [busError] } ∧
    after (stepAt ref (writing 0x01A 0x0000000A i9)) = some { i9 with responses := [busError] } ∧
    after (stepAt ref (before { dir := .write, addr := 0x044, size := .byte, wdata := 1 } i9)) = some { i9 with responses := [busError] } ∧
    after (stepAt ref (before { dir := .read, addr := 0x044, size := .half, wdata := 0 } i9)) = some { i9 with responses := [busError] } ∧
    after (stepAt ref (before { dir := .read, addr := 0x000, size := .double, wdata := 0 } i9)) = some { i9 with responses := [busError] } := by decide

/-- R120: the codes of `req_size`. -/
theorem test_sizes : [0#2, 1#2, 2#2, 3#2].map (fun z => bytesOfSize (sizeOfSignal z)) = [1, 2, 4, 8] := by decide

/-- EN-18: ILLEGAL_COMMAND comes before NOT_CONFIGURED. -/
theorem test_illegal_word : seen (stepAt ref (writing 0x018 0x0000000B State.reset)) = some (0, 0x00000010) := by decide

/-- RS-4: reset gives the reset values, and an abandoned transaction gets no response. -/
theorem test_reset_event :
    after (stepAt ref { holding42 i9 with
      satCnt := 15, script := [.reset (some { dir := .read, addr := 0, size := .word, wdata := 0 })] }) = some State.reset := by decide

/-! ### NOP, CONFIGURE -/

/-- ER-9. -/
theorem test_nop : seen (execAt ref .nop { i9 with
    result := 1, status := { configured := true, err := .indexRange, sat := false, floor := false } }) =
    some (0, 0x00000001) := by decide

/-- PD-1, PD-9, PD-10, PD-11, PD-20, PD-21, PD-22 of the derivation. -/
theorem test_derive :
    [(10000#32, 0x3F50624DD2F1A9FC#64, 143776, 10), (1000000#32, 0x3F847AE147AE147B#64, 9585059, 7),
     (4294967295#32, 0x3FE0000000000000#64, 6196328018, 2), (1#32, 0x0000000000000001#64, 1550, 1075),
     (1#32, 0x3FEFFFFFFFFFFFFF#64, 1, 1), (1#32, 0x3E00000000000000#64, 45, 32),
     (726817#32, 0x3FE0000000000000#64, 1048576, 2), (726818#32, 0x3FE0000000000000#64, 1048577, 2)].all
      (fun v => derive v.1 v.2.1 == v.2.2) = true := by decide +kernel

/-- PD-C1. -/
theorem test_configure_success : after (execAt ref .configure { State.reset with n := 3, pHi := 0x3FD00000 }) = some i9 := by
  decide +kernel

/-- PD-C2 (INVALID_PARAMETER, the instance kept) and PD-C3 (CAPACITY). -/
theorem test_configure_errors :
    after (execAt ref .configure { i9 with pHi := 0x3FF00000, cram := [(0, 0xFF)] }) = some { i9 with
        pHi := 0x3FF00000, cram := [(0, 0xFF)]
        status := { configured := true, err := .invalidParameter, sat := false, floor := false } } ∧
    seen (execAt ref .configure { i9 with n := 1000000, pHi := 0x3F847AE1, pLo := 0x47AE147B }) =
      some (0, 0x00000041) := by decide +kernel

/-! ### READ_SLOT, INC_SLOT, DEC_SLOT, READ_BYTE (CA) -/

/-- R92: none of the commands without the operand K reads it. -/
theorem test_k_is_no_operand :
    let s := { i9 with k := 0, ctrl := { diagEn := true, decFloor0 := false }, digest := [(0, 10), (1, 0), (2, 0), (3, 0)] }
    [Instr.readSlot, .incSlot, .decSlot, .readByte, .map].map (fun i => seen (execAt ref i s)) =
      [some (0, 1), some (1, 1), some (1, 0x00000201), some (0, 1), some (1, 1)] := by decide

/-- CA-14's last reads. -/
theorem test_readSlot :
    seen (execAt ref .readSlot { i9 with cram := [(0, 0x3A)], arg0 := 0 }) = some (0xA, 1) ∧
    seen (execAt ref .readSlot { i9 with cram := [(0, 0x3A)], arg0 := 1 }) = some (0x3, 1) := by decide

/-- CA-2, CA-3. -/
theorem test_readSlot_range :
    seen (execAt ref .readSlot { i9 with arg0 := 8 }) = some (0, 1) ∧
    seen (execAt ref .readSlot { i9 with arg0 := 9 }) = some (0, 0x00000061) := by decide

/-- CA-16. -/
theorem test_incSlot :
    let s := { i9 with ctrl := { diagEn := true, decFloor0 := false }, cram := [(0, 0x0F)] }
    seen (execAt ref .incSlot { s with arg0 := 0 }) = some (15, 0x00000101) ∧
    counted (execAt ref .incSlot { s with arg0 := 0 }) = some ([(0, 0x0F)], 1, 0) ∧
    counted (execAt ref .incSlot { s with arg0 := 1 }) = some ([(0, 0x1F)], 0, 0) := by decide

/-- CA-10, CA-11. -/
theorem test_incSlot_checks :
    seen (execAt ref .incSlot i9) = some (0, 0x00000071) ∧
    seen (execAt ref .incSlot State.reset) = some (0, 0x00000070) ∧
    seen (execAt ref .incSlot { State.reset with ctrl := { diagEn := true, decFloor0 := false } }) =
      some (0, 0x00000020) := by decide

/-- CA-17. -/
theorem test_decSlot :
    let s := { i9 with ctrl := { diagEn := true, decFloor0 := false } }
    counted (execAt ref .decSlot { s with cram := [(1, 0x20)], arg0 := 2 }) = some ([(1, 0x21)], 0, 1) ∧
    seen (execAt ref .decSlot { s with cram := [(1, 0x20)], arg0 := 2 }) = some (1, 0x00000201) ∧
    counted (execAt ref .decSlot { s with cram := [(1, 0x21)], arg0 := 3 }) = some ([(1, 0x11)], 0, 0) := by decide

/-- CA-7, CA-8: the floor at 0. -/
theorem test_decSlot_floor0 :
    let s := { i9 with ctrl := { diagEn := true, decFloor0 := true } }
    seen (execAt ref .decSlot s) = some (0, 0x00000201) ∧
    counted (execAt ref .decSlot { s with cram := [(0, 0x01)] }) = some ([], 0, 0) := by decide

/-- CA-18, CA-13. -/
theorem test_readByte :
    seen (execAt ref .readByte { i9 with cram := [(2, 0x27)], arg0 := 2 }) = some (0x27, 1) ∧
    seen (execAt ref .readByte { i9 with arg0 := 5 }) = some (0, 0x00000061) := by decide

/-! ### HASH_SLOT, MAP (SM) -/

/-- SM-1. -/
theorem test_hashSlot : [1#32, 2#32, 3#32].map (fun j => seen (execAt ref .hashSlot { holding42 i9 with arg0 := j })) =
    [some (1, 1), some (3, 1), some (0, 1)] := by decide

/-- SM-4a, SM-4b, SM-4c. -/
theorem test_hashSlot_checks :
    seen (execAt ref .hashSlot { holding42 i9 with arg0 := 0 }) = some (0, 0x00000061) ∧
    seen (execAt ref .hashSlot { holding42 i9 with arg0 := 4 }) = some (0, 0x00000061) ∧
    seen (execAt ref .hashSlot { holding42 i9 with arg0 := 0, keyLen := 65 }) = some (0, 0x00000051) := by decide

/-- SM-7, SM-11 at I9. -/
theorem test_map :
    seen (execAt ref .map { i9 with
      digest := [(0, 0xF3965CD2), (1, 0xAD681FDF), (2, 0xA1D7C650), (3, 0x203AD5FF)] }) = some (2, 1) ∧
    seen (execAt ref .map { i9 with digest := [(0, 0x0A), (1, 1), (2, 0), (3, 0)] }) = some (5, 1) := by decide

/-- SM-12. -/
theorem test_map_checks :
    seen (execAt ref .map State.reset) = some (0, 0x00000020) ∧
    faulted (execAt ref .map { i9 with digest := [(0, 0), (1, 0), (2, 0)] }) = some (.consumedUnwrittenDigest 3) := by decide

/-! ### INSERT, DELETE, LOOKUP (FO) -/

/-- FO-2, FO-3, FO-15. -/
theorem test_insert :
    counted (execAt ref .insert (holding42 i9)) = some ([(0, 0x11), (1, 0x10)], 0, 0) ∧
    counted (execAt ref .insert (holding7 i9)) = some ([(1, 0x20), (3, 0x01)], 0, 0) ∧
    counted (execAt ref .insert i9) = some ([(0, 0x10), (1, 0x10), (2, 0x01)], 0, 0) := by decide

/-- FO-8's sixteenth INSERT, FO-18. -/
theorem test_insert_saturates :
    let s := { holding42 i9 with cram := [(0, 0xFF), (1, 0xF0)] }
    counted (execAt ref .insert s) = some ([(0, 0xFF), (1, 0xF0)], 3, 0) ∧
    seen (execAt ref .insert s) = some (0, 0x00000101) ∧
    seen (execAt ref .insert { s with keyLen := 65 }) = some (0, 0x00000051) := by decide

/-- FO-5. -/
theorem test_delete :
    let s := { holding7 i9 with cram := [(1, 0x20), (3, 0x01)] }
    counted (execAt ref .delete s) = some ([(1, 0x10), (3, 0x01)], 0, 2) ∧
    seen (execAt ref .delete s) = some (1, 0x00000201) := by decide

/-- FO-7, and an absent key (FO-6's outcome, for "42" at FO-3's counters). -/
theorem test_delete_floor0_and_absent :
    let s := { holding7 i9 with cram := [(1, 0x20), (3, 0x01)] }
    counted (execAt ref .delete { s with ctrl := { diagEn := false, decFloor0 := true } }) = some ([], 0, 0) ∧
    counted (execAt ref .delete (holding42 s)) = some ([(1, 0x20), (3, 0x01)], 0, 0) ∧
    seen (execAt ref .delete (holding42 s)) = some (0, 1) := by decide

/-- FO-4, FO-1. -/
theorem test_lookup :
    seen (execAt ref .lookup { holding7 i9 with cram := [(1, 0x20), (3, 0x01)] }) = some (1, 1) ∧
    seen (execAt ref .lookup (holding42 i9)) = some (0, 1) := by decide

/-- FO-20. -/
theorem test_lookup_unwritten :
    faulted (execAt ref .lookup { i9 with key := [(0, 0x6C6C6568)], keyLen := 5 }) = some (.consumedUnwrittenKey 1) := by decide

/-! ### Witnesses: for each obligation with hypotheses, states and operands that meet them, on any configuration

Each witness theorem is named after its obligation, or its docstring names the obligations it serves. -/

/-- An instance with one slot and one hash function: it fits every configuration. -/
def one : State :=
  { State.reset with
    status := { configured := true, err := .noError, sat := false, floor := false }
    m := 1, k := 1, cfgN := 1, cfgPHi := 0x3FEFFFFF, cfgPLo := 0xFFFFFFFF }

/-- `one` with its counter at 1, and at 15. -/
def one1 : State := { one with cram := [(0, 0x01)] }
def one15 : State := { one with cram := [(0, 0x0F)] }

/-- The event of a `CMD` write of the word of a command, or of any word. -/
def cmd (w : Word) : PortEvent := .request { dir := .write, addr := 0x018#11, size := .word, wdata := w }

theorem holds_one : HoldsInstance one := by
  simp [HoldsInstance, one, Config.mMax, Config.kMax]

theorem holdsSlots_one : HoldsSlots one := ⟨holds_one.1, holds_one.2.1, holds_one.2.2.1⟩

theorem keyWritten_one : KeyIsWritten one := by
  simp [KeyIsWritten, one, State.reset]

theorem inRange_one : instanceInRange Config.impl one = true :=
  (instanceInRange_iff _ _).2 holds_one.2

theorem slots_one (x : List Byte) : slotsOf Config.impl one x = [0] := by
  simp [slotsOf, slotOf, one, Nat.mod_one]

/-- A DIGEST whose words are those of the number D. -/
def digestOf (D : Nat) (count : Nat) : List (Nat × Word) :=
  (List.range count).map fun w => (w, BitVec.ofNat 32 (D / 2 ^ (32 * w)))

theorem lookupAt_range (f : Nat → Word) (count start : Nat) (w : Nat) (h : w < count) :
    lookupAt ((List.range' start count).map fun v => (v, f v)) (start + w) = some (f (start + w)) := by
  induction count generalizing start w with
  | zero => omega
  | succ n ih =>
    rw [List.range'_succ, List.map_cons, lookupAt_cons]
    rcases Nat.eq_zero_or_pos w with rfl | hw
    · simp
    · rw [if_neg (by dsimp only; omega)]
      have := ih (start + 1) (w - 1) (by omega)
      rwa [show start + 1 + (w - 1) = start + w by omega] at this

theorem lookupAt_digestOf (D count w : Nat) (h : w < count) :
    lookupAt (digestOf D count) w = some (BitVec.ofNat 32 (D / 2 ^ (32 * w))) := by
  have := lookupAt_range (fun v => BitVec.ofNat 32 (D / 2 ^ (32 * v))) count 0 w h
  simpa [digestOf, List.range_eq_range'] using this

theorem sum_words (D : Nat) (n : Nat) :
    (∑ w ∈ Finset.range n, D / 2 ^ (32 * w) % 2 ^ 32 * 2 ^ (32 * w)) = D % 2 ^ (32 * n) := by
  induction n with
  | zero => simp [Nat.mod_one]
  | succ n ih =>
    rw [Finset.sum_range_succ, ih, show 32 * (n + 1) = 32 * n + 32 by ring, pow_add, Nat.mod_mul]
    ring

theorem witness_DecodeIsTheOpcodeMap :
    (0x00000100#32).toNat / 256 ≠ 0 ∧ 0x0A < (0x0000000B#32).toNat % 256 ∧ ¬ 0x0A < (0x0000000A#32).toNat % 256 := by
  decide

theorem witness_EncodeDecodeRoundTrip : wordWellFormed 0x0000000A#32 = true := by decide

theorem witness_StepRunsDecodedCommand :
    ({ one with script := [cmd 0x00000008] } : State).script = cmd 0x00000008 :: [] ∧
    decode 0x00000008#32 = .ok .insert := by decide

theorem witness_IdleStepChangesNothing : State.reset.script = [] := rfl

theorem witness_IllegalWordFails :
    ({ one with script := [cmd 0x80000008] } : State).script = cmd 0x80000008 :: [] ∧
    (0x80000008#32).toNat / 256 ≠ 0 ∧ 0x0A < (0x0000000B#32).toNat % 256 := by decide

theorem witness_BusErrorChangesNothing :
    (before { dir := .read, addr := 0x019, size := .word, wdata := 0 } one).script =
      .request { dir := .read, addr := 0x019, size := .word, wdata := 0 } :: [] ∧
    (0x019#11).toNat % 4 ≠ 0 ∧ AccessSize.byte ≠ .word ∧ (0x7FC#11).toNat % 4 = 0 ∧
    ∃ t, step (reading 0x000 one) = .next t := ⟨rfl, by decide, by decide, by decide, _, rfl⟩

/-- A transaction, and the first and the last address of each range; the words a capacity always holds. -/
theorem witness_LegalReadReturnsTheRegister :
    (reading 0x07C one).script = .request { dir := .read, addr := 0x07C, size := .word, wdata := 0 } :: [] ∧
    (0x050#11).toNat % 4 = 0 ∧ 0x050 ≤ (0x050#11).toNat ∧ (0x07C#11).toNat % 4 = 0 ∧ (0x07C#11).toNat < 0x080 ∧
    0x100 ≤ (0x100#11).toNat ∧ (0x3FC#11).toNat % 4 = 0 ∧ (0x3FC#11).toNat < 0x400 ∧
    (0x080#11).toNat = 0x080 + 4 * 0 ∧ (0x0FC#11).toNat = 0x080 + 4 * 31 ∧
    (0x400#11).toNat = 0x400 + 4 * 0 ∧ (0x7FC#11).toNat = 0x400 + 4 * 255 ∧
    lookupAt [(0, 5#32)] 0 = some 5#32 ∧ lookupAt [(0, 5#32)] 1 = none := by decide

theorem witness_words_inside_capacity : 3 < Config.impl.digestWords ∧ 0 < Config.impl.keyWords := by
  unfold Config.digestWords Config.keyWords; omega

theorem witness_words_beyond_capacity : ¬ 4 < ref.digestWords ∧ ¬ 16 < ref.keyWords := by decide

theorem witness_LegalWriteHasItsEffect :
    (writing 0x010 5 one).script = .request { dir := .write, addr := 0x010, size := .word, wdata := 5 } :: [] ∧
    (0x010#11).toNat % 4 = 0 ∧ (0x0FC#11).toNat = 0x080 + 4 * 31 ∧ (0x7FC#11).toNat = 0x400 + 4 * 255 ∧
    decode 0x00000000#32 = .ok .nop ∧ decode 0x0000000B#32 = .error .undefinedOpcode ∧
    (0x00C#11).toNat < 0x010 ∧ 0x030 ≤ (0x030#11).toNat ∧ (0x040#11).toNat < 0x044 ∧ 0x048 ≤ (0x048#11).toNat ∧
    (0x07C#11).toNat < 0x080 ∧ 0x100 ≤ (0x100#11).toNat ∧ (0x3FC#11).toNat < 0x400 := by decide

theorem witness_ResetStepGivesResetValues :
    ({ one with script := [.reset none] } : State).script = .reset none :: [] := rfl

/-- Invalid inputs of both kinds, and the least and the greatest valid p. -/
theorem witness_ConfigureFollowsItsRule_inputs :
    ¬ 1 ≤ State.reset.n.toNat ∧ ¬ (0x3FF00000#32 ++ 0#32).toNat ≤ 0x3FEFFFFFFFFFFFFF ∧
    (0x3FEFFFFF#32 ++ 0xFFFFFFFF#32).toNat ≤ 0x3FEFFFFFFFFFFFFF ∧ 1 ≤ (0#32 ++ 1#32).toNat := by decide

/-- n = 1 with the greatest p gives (1, 1), within every capacity. -/
theorem derive_least : derive 1#32 (0x3FEFFFFF#32 ++ 0xFFFFFFFF#32) = (1, 1) := by decide +kernel

theorem witness_ConfigureFollowsItsRule_success :
    (derive 1#32 (0x3FEFFFFF#32 ++ 0xFFFFFFFF#32)).1 ≤ Config.impl.mMax ∧
    (derive 1#32 (0x3FEFFFFF#32 ++ 0xFFFFFFFF#32)).2 ≤ Config.impl.kMax := by
  rw [derive_least]
  simp [Config.mMax, Config.kMax]

/-- The greatest n with the least p gives an m above 2^32, above every capacity. -/
theorem witness_ConfigureFollowsItsRule_capacity :
    Config.impl.mMax < (derive 0xFFFFFFFF#32 (0#32 ++ 1#32)).1 := by
  have hm : 4294967295 < (derive 0xFFFFFFFF#32 (0#32 ++ 1#32)).1 := by decide +kernel
  have := Config.impl.mMaxPred.isLt
  unfold Config.mMax
  omega

/-- ReadSlotFollowsItsRule, IncSlotFollowsItsRule, DecSlotFollowsItsRule, ReadByteFollowsItsRule: no instance, the first
index out of range, the last index in range, and both values of DIAG_EN; K is no operand, and 0 here. -/
theorem witness_slot_commands :
    State.reset.status.configured = false ∧ State.reset.ctrl.diagEn = false ∧
    (let on : Ctrl := { diagEn := true, decFloor0 := false }
     let s : State := { one with k := 0, ctrl := on }
     ({ State.reset with ctrl := on } : State).status.configured = false ∧
     s.status.configured = true ∧ s.m.toNat ≤ ({ s with arg0 := 1 } : State).arg0.toNat ∧
     (s.m.toNat + 1) / 2 ≤ ({ s with arg0 := 1 } : State).arg0.toNat ∧
     HoldsSlots s ∧ s.ctrl.diagEn = true ∧ s.arg0.toNat < s.m.toNat ∧ s.arg0.toNat < (s.m.toNat + 1) / 2) :=
  ⟨rfl, rfl, rfl, rfl, by decide, by decide, holdsSlots_one, rfl, by decide, by decide⟩

theorem keyLen_over : Config.impl.keyMax < ({ one with keyLen := 0xFFFFFFFF } : State).keyLen.toNat := by
  have := Config.impl.keyWordsPred.isLt
  have e : ({ one with keyLen := 0xFFFFFFFF } : State).keyLen.toNat = 4294967295 := by decide
  rw [e]
  unfold Config.keyMax Config.keyWords
  omega

/-- HASH_SLOT: a key too long; the seeds 0 and K + 1; the seed K with a written key. -/
theorem witness_HashSlotFollowsItsRule :
    ({ one with keyLen := 0xFFFFFFFF } : State).status.configured = true ∧
    Config.impl.keyMax < ({ one with keyLen := 0xFFFFFFFF } : State).keyLen.toNat ∧
    one.keyLen.toNat ≤ Config.impl.keyMax ∧ one.arg0.toNat < 1 ∧
    one.k.toNat < ({ one with arg0 := 2 } : State).arg0.toNat ∧
    HoldsInstance { one with arg0 := 1 } ∧ KeyIsWritten { one with arg0 := 1 } ∧
    1 ≤ ({ one with arg0 := 1 } : State).arg0.toNat ∧ ({ one with arg0 := 1 } : State).arg0.toNat ≤ one.k.toNat :=
  ⟨rfl, keyLen_over, by simp [one, State.reset], by decide, by decide, holds_one, keyWritten_one, by decide, by decide⟩

/-- MAP: no instance; a digest written whole, and one without a word; K is no operand, and 0 here. -/
theorem witness_MapFollowsItsRule :
    State.reset.status.configured = false ∧
    HoldsSlots { one with k := 0, digest := digestOf 7 Config.impl.digestWords } ∧
    DigestIsWritten { one with k := 0, digest := digestOf 7 Config.impl.digestWords } ∧
    HoldsSlots one ∧ ¬ DigestIsWritten one := by
  refine ⟨rfl, holdsSlots_one, fun w hw => ?_, holdsSlots_one, fun h => ?_⟩
  · simp [lookupAt_digestOf 7 _ w hw]
  · exact h 0 (by unfold Config.digestWords; omega) rfl

/-- InsertFollowsItsRule, DeleteFollowsItsRule, LookupFollowsItsRule: no instance, a key too long, and a written key; a
counter at 0, and none at 0. -/
theorem witness_filter_commands :
    State.reset.status.configured = false ∧
    Config.impl.keyMax < ({ one with keyLen := 0xFFFFFFFF } : State).keyLen.toNat ∧
    HoldsInstance one ∧ KeyIsWritten one ∧
    (∃ i ∈ slotsOf Config.impl one (keyBytes one), counter one i = 0#4) ∧
    HoldsInstance one1 ∧ KeyIsWritten one1 ∧ ∀ i ∈ slotsOf Config.impl one1 (keyBytes one1), counter one1 i ≠ 0#4 := by
  refine ⟨rfl, keyLen_over, holds_one, keyWritten_one, ⟨0, ?_, by decide⟩, holds_one, keyWritten_one, fun i hi => ?_⟩
  · simp [slots_one]
  · have : slotsOf Config.impl one1 (keyBytes one1) = [0] := slots_one _
    rw [this, List.mem_singleton] at hi
    subst hi
    decide

/-- Unwritten words: read by the host, and consumed. -/
theorem witness_UnwrittenWordsFault :
    (0x400#11).toNat = 0x400 + 4 * 0 ∧ 0 < Config.impl.keyWords ∧ lookupAt one.key 0 = none ∧
    (0x080#11).toNat = 0x080 + 4 * 0 ∧ 0 < Config.impl.digestWords ∧ lookupAt one.digest 0 = none ∧
    HoldsInstance { one with keyLen := 1, arg0 := 1 } ∧
    ({ one with keyLen := 1, arg0 := 1 } : State).keyLen.toNat ≤ Config.impl.keyMax ∧
    4 * 0 < ({ one with keyLen := 1, arg0 := 1 } : State).keyLen.toNat ∧
    HoldsSlots { one with k := 0 } ∧ (∀ v < 0, lookupAt one.key v ≠ none) ∧ ({ one with keyLen := 1, arg0 := 1 } : State).arg0.toNat ≤ one.k.toNat := by
  refine ⟨by decide, by unfold Config.keyWords; omega, rfl, by decide, by unfold Config.digestWords; omega, rfl, holds_one,
    ?_, by decide, holdsSlots_one, by simp, by decide⟩
  have e : ({ one with keyLen := 1, arg0 := 1 } : State).keyLen.toNat = 1 := by decide
  rw [e]
  unfold Config.keyMax Config.keyWords
  omega

theorem witness_FailedCommandChangesOnlyStatus :
    (exec .lookup State.reset = .next (failed State.reset .notConfigured) ∧
      (failed State.reset .notConfigured).status.err ≠ .noError) ∧
    ∃ t, step { State.reset with script := [cmd 0x0000000A] } = .next t ∧ t.status.err ≠ .noError :=
  ⟨⟨rfl, by decide⟩, _, rfl, by decide⟩

theorem insert_one : exec .insert one =
    .next (complete (incrementAll one [0]).1 0 (incrementAll one [0]).2 0) := by
  have h := insertAt_runs (c := Config.impl) (s := one) rfl inRange_one keyWritten_one.1 keyWritten_one.2
  rw [slots_one] at h
  exact h

/-- READ_SLOT with the K of the instance and with another; MAP with a word unwritten in both states. -/
theorem witness_CommandsReadOnlyTheirOperands :
    (let s' : State := { one with k := 0, keyLen := 7, digest := [(0, 1)], n := 5 }
     s'.status.configured = one.status.configured ∧ s'.arg0 = one.arg0 ∧ s'.m = one.m ∧
     (∀ j, memRead s'.cram j = memRead one.cram j) ∧ s' ≠ one) ∧
    (let s' : State := { one with k := 0 }
     s'.m = one.m ∧ ∀ w < Config.impl.digestWords, lookupAt s'.digest w = lookupAt one.digest w) :=
  ⟨⟨rfl, rfl, rfl, fun _ => rfl, by decide⟩, rfl, fun _ _ => rfl⟩

theorem witness_CommandsKeepHostRegisters : ∃ t, exec .insert one = .next t := ⟨_, insert_one⟩

/-- OnlyConfigureChangesTheInstance, DebugCountersNeverWrap, OnlyCmdWritesChangeResultAndStatus: a step that runs INSERT,
and one that runs no command. -/
theorem witness_steps_without_configure :
    (∃ t, step { one with script := [cmd 0x00000008] } = .next t) ∧
    nextCommand { one with script := [cmd 0x00000008] } = some .insert ∧
    nextCommand { one with script := [cmd 0x00000008] } ≠ some .configure ∧
    nextIsReset { one with script := [cmd 0x00000008] } = false ∧
    (∃ t, step (writing 0x024 7 one) = .next t) ∧ nextWritesCmd (writing 0x024 7 one) = false ∧
    nextIsReset (writing 0x024 7 one) = false := by
  refine ⟨?_, rfl, by decide, rfl, ⟨_, rfl⟩, rfl, rfl⟩
  have h : step { one with script := [cmd 0x00000008] } = afterCommand (exec .insert one) :=
    step_command (x := { dir := .write, addr := 0x018#11, size := .word, wdata := 0x00000008 }) rfl rfl rfl rfl
  rw [h, insert_one]
  exact ⟨_, rfl⟩

/-- The state before the CONFIGURE of n = 1 with the greatest p, which succeeds on every configuration. -/
def staged : State := { State.reset with n := 1, pHi := 0x3FEFFFFF, pLo := 0xFFFFFFFF }

theorem configure_staged : exec .configure staged = .next (complete (newInstance staged (1, 1)) 0 0 0) := by
  have e : derive staged.n (stagedPattern staged) = (1, 1) := derive_least
  have h := configureAt_runs (c := Config.impl) (s := staged) (by decide)
    (by simp [e, overCapacity, Config.mMax, Config.kMax])
  rw [e] at h
  exact h

theorem witness_ConfiguredIsClearedOnlyByReset :
    (one.status.configured = true ∧ nextIsReset one = false ∧ step one = .next one) ∧
    ∃ t, step { staged with script := [cmd 0x00000001] } = .next t ∧
      ({ staged with script := [cmd 0x00000001] } : State).status.configured = false ∧ t.status.configured = true := by
  refine ⟨⟨rfl, rfl, rfl⟩, ?_⟩
  have h : step { staged with script := [cmd 0x00000001] } = afterCommand (exec .configure staged) :=
    step_command (x := { dir := .write, addr := 0x018#11, size := .word, wdata := 0x00000001 }) rfl rfl rfl rfl
  rw [h, configure_staged]
  exact ⟨_, rfl, rfl, rfl⟩

theorem witness_BeforeConfigureCommandsFail :
    State.reset.status.configured = false ∧ Instr.incSlot ≠ .nop ∧ Instr.incSlot ≠ .configure := by decide

theorem witness_CounterRamIsUnobservableBeforeConfigure :
    staged.status.configured = false ∧
    ∃ t, exec .configure staged = .next t ∧ t.status.configured = true := ⟨rfl, _, configure_staged, rfl⟩

/-- The values 15, 1, 0 of a counter. -/
theorem witness_CounterPrimitivesObeyTheirLaws :
    (counter one15 0).toNat = 15 ∧ (counter one1 0).toNat = 1 ∧ (counter one 0).toNat = 0 := by decide

theorem witness_UpdateOrderDoesNotMatter : memWf one15.cram = true ∧ [0, 1, 0].Perm [1, 0, 0] := by decide

/-- A state whose DIGEST is the digest of the empty key with seed 1. -/
theorem witness_SlotsObeyTheirLaws :
    let D := Config.impl.digestFn (Config.impl.seedEnc 1)
    let s := { one with arg0 := 1, digest := digestOf D Config.impl.digestWords }
    HoldsInstance s ∧ KeyIsWritten s ∧ DigestIsWritten s ∧ 1 ≤ s.arg0.toNat ∧ s.arg0.toNat ≤ s.k.toNat ∧
    (∑ w ∈ Finset.range Config.impl.digestWords, ((lookupAt s.digest w).getD 0).toNat * 2 ^ (32 * w)) =
      Config.impl.digestFn (keyBytes s ++ Config.impl.seedEnc s.arg0.toNat) := by
  intro D s
  have hl : ∀ w < Config.impl.digestWords, lookupAt s.digest w = some (BitVec.ofNat 32 (D / 2 ^ (32 * w))) :=
    fun w hw => lookupAt_digestOf D _ w hw
  have hk : keyBytes s = [] := rfl
  have ha : s.arg0.toNat = 1 := by decide
  refine ⟨holds_one, keyWritten_one, fun w hw => by simp [hl w hw], by rw [ha], by rw [ha]; decide, ?_⟩
  rw [hk, ha, Finset.sum_congr rfl fun w hw => by
    rw [hl w (Finset.mem_range.1 hw), Option.getD_some, BitVec.toNat_ofNat], sum_words]
  exact Nat.mod_eq_of_lt (Nat.mod_lt _ (by positivity))

theorem witness_LookupValueIsTheMinimum : [0] ≠ ([] : List Nat) ∧ ∃ i ∈ [0], counter one i = 0#4 :=
  ⟨by decide, 0, by decide, by decide⟩

/-- The empty key, a key that fills one word, and the longest key. -/
theorem witness_SetKeyWritesTheKey :
    ([] : List Byte).length ≤ Config.impl.keyMax ∧ [0x61#8, 0x62#8, 0x63#8, 0x64#8].length ≤ Config.impl.keyMax ∧
    (List.replicate Config.impl.keyMax 0#8).length ≤ Config.impl.keyMax ∧
    ({ one with script := setKey keyHello ++ [] } : State).script = setKey keyHello ++ [] := by
  refine ⟨Nat.zero_le _, ?_, by simp, rfl⟩
  unfold Config.keyMax Config.keyWords
  simp

/-- DerivationIsExactRealArithmetic, ClampsNeverAct, DerivedValuesAreBounded: the least and the greatest p, with the least
and the greatest n. -/
theorem witness_derivation :
    validInputs 1#32 0x0000000000000001#64 = true ∧ (∃ p, binary64Value 0x0000000000000001#64 = some p) ∧
    validInputs 0xFFFFFFFF#32 0x3FEFFFFFFFFFFFFF#64 = true ∧ ∃ p, binary64Value 0x3FEFFFFFFFFFFFFF#64 = some p :=
  ⟨by decide, ⟨_, rfl⟩, by decide, ⟨_, rfl⟩⟩

/-- An instance that fits every configuration, and one that fits none. -/
theorem witness_ConfigureMakesTheExactInstance :
    validInputs staged.n (staged.pHi ++ staged.pLo) = true ∧
    (∃ p, binary64Value (staged.pHi ++ staged.pLo) = some p) ∧
    validInputs 0xFFFFFFFF#32 (0#32 ++ 1#32) = true ∧ (∃ p, binary64Value (0#32 ++ 1#32) = some p) ∧
    Config.impl.mMax < (derive 0xFFFFFFFF#32 (0#32 ++ 1#32)).1 :=
  ⟨by decide, ⟨_, rfl⟩, by decide, ⟨_, rfl⟩, witness_ConfigureFollowsItsRule_capacity⟩

theorem invariant_one : Invariant Config.impl one where
  noInstance h := absurd h (by decide)
  inRange _ := holds_one.2
  validParameters _ := by decide
  derived _ := derive_least
  events h := absurd h (by decide)
  cramCanonical := rfl
  cramWithin _ _ _ := rfl
  padClear _ _ := rfl
  keyCanonical := ⟨rfl, by simp [one, State.reset]⟩
  digestCanonical := ⟨rfl, by simp [one, State.reset]⟩

theorem witness_StepKeepsTheInvariant : Invariant Config.impl one ∧ step one = .next one := ⟨invariant_one, rfl⟩

theorem witness_StepsFaultOnlyOnUnwrittenWords : Invariant Config.impl one := invariant_one

theorem run_idle (k : Nat) {s : State} (h : s.script = []) : Host.Core.run Sys2Proof.core k s = .next s := by
  induction k with
  | zero => rfl
  | succ k ih => exact run_succ_of (by simp [step, stepWith, h]) ih

/-- INSERT, and one idle step after it. -/
theorem witness_InsertedKeyIsFound :
    ∃ t u, exec .insert one = .next t ∧ t.status.err = .noError ∧ alongRun FloorsAtOne 1 t ∧
      Host.Core.run Sys2Proof.core 1 t = .next u := by
  refine ⟨_, _, insert_one, rfl, ⟨⟨rfl, by decide, by decide⟩, ?_⟩, run_idle 1 rfl⟩
  split <;> trivial

/-- A run of one step that inserts the empty key. -/
def inserting : State := { one with script := [cmd 0x00000008] }

theorem step_inserting : step inserting =
    .next (respond (complete (incrementAll one [0]).1 0 (incrementAll one [0]).2 0) writeDone) := by
  have h : step inserting = afterCommand (exec .insert one) :=
    step_command (x := { dir := .write, addr := 0x018#11, size := .word, wdata := 0x00000008 }) rfl rfl rfl rfl
  rw [h, insert_one]
  rfl

theorem onlyInserts_inserting : OnlyInserts inserting := by
  refine ⟨rfl, ?_, ?_, ?_, ?_⟩ <;> decide

theorem witness_LookupCountsInserts :
    HoldsInstance inserting ∧ ([] : List Byte).length ≤ Config.impl.keyMax ∧ alongRun OnlyInserts 1 inserting ∧
    (∃ t, Host.Core.run Sys2Proof.core 1 inserting = .next t) ∧ insertsOf [] 1 inserting = 1 := by
  refine ⟨holds_one, Nat.zero_le _, ⟨onlyInserts_inserting, ?_⟩, ⟨_, run_succ_of step_inserting rfl⟩, ?_⟩
  · split <;> trivial
  · rw [insertsOf, step_inserting]
    rfl

theorem witness_LookupIsExactWithoutCollisions :
    HoldsInstance inserting ∧ ([] : List Byte).length ≤ Config.impl.keyMax ∧
    (∀ i ∈ slotsOf Config.impl inserting [], counter inserting i = 0#4) ∧
    (∃ i, (slotsOf Config.impl inserting []).count i = 1) ∧
    alongRun (fun u => OnlyInserts u ∧ (nextCommand u = some .insert → keyBytes u = [] ∨
      ∀ i ∈ slotsOf Config.impl u (keyBytes u), i ∉ slotsOf Config.impl u [])) 1 inserting ∧
    (∃ t, Host.Core.run Sys2Proof.core 1 inserting = .next t) ∧ insertsOf [] 1 inserting ≤ 15 := by
  have hs : slotsOf Config.impl inserting [] = [0] := slots_one []
  obtain ⟨h₁, h₂, _, h₄, h₅⟩ := witness_LookupCountsInserts
  refine ⟨h₁, h₂, fun i hi => ?_, ⟨0, by rw [hs]; rfl⟩, ⟨⟨onlyInserts_inserting, fun _ => .inl rfl⟩, ?_⟩, h₄, by omega⟩
  · rw [hs, List.mem_singleton] at hi
    subst hi
    decide
  · split <;> trivial

theorem witness_DeleteAfterOneInsert :
    HoldsInstance one ∧ KeyIsWritten one ∧ (slotsOf Config.impl one (keyBytes one)).Nodup ∧
    ∀ i ∈ slotsOf Config.impl one (keyBytes one), counter one i = 0#4 := by
  refine ⟨holds_one, keyWritten_one, by simp [slots_one], fun i hi => ?_⟩
  rw [slots_one, List.mem_singleton] at hi
  subst hi
  decide

theorem witness_CountersNeverReturnToZero :
    alongRun FloorsAtOne 1 one1 ∧ (∃ t, Host.Core.run Sys2Proof.core 1 one1 = .next t) ∧ counter one1 0 ≠ 0#4 := by
  refine ⟨⟨⟨rfl, by decide, by decide⟩, ?_⟩, ⟨_, run_idle 1 rfl⟩, by decide⟩
  split <;> trivial

end Sys2Proof.Tests
end

section
/-! PROOFS. The step of an idle host port (spec rule R16). -/

namespace Sys2Proof.Proofs

open Sys2Proof.Machine

/-- R16 for every configuration and every meaning of the commands: the core starts nothing of its own accord. -/
theorem stepWith_idle (c : Config) (run : Instr → State → Result) {s : State} (hs : s.script = []) :
    stepWith c run s = .next s := by
  simp only [stepWith, hs]

theorem step_idle {s : State} (hs : s.script = []) : step s = .next s :=
  stepWith_idle Config.impl exec hs

/-- Settles O5: the step on the hardware at hand is the general step, which leaves a state without events as it is. -/
theorem idleStepChangesNothing : Obligations.IdleStepChangesNothing := fun _ hs => step_idle hs

end Sys2Proof.Proofs
end

section
/-! PROOFS. What a step that neither runs CONFIGURE nor resets keeps (spec rules R27, R33 to R38). -/

namespace Sys2Proof.Proofs

open Sys2Proof.Machine

/-! ### Steps that neither run CONFIGURE nor reset -/

/-- The fields no host write reaches: all that R49 speaks of but the KEY and DIGEST words, with RESULT, SATCNT and FLOORCNT. -/
def SameCoreFields (s t : State) : Prop :=
  t.status = s.status ∧ t.result = s.result ∧ t.m = s.m ∧ t.k = s.k ∧ t.cfgN = s.cfgN ∧ t.cfgPLo = s.cfgPLo ∧
    t.cfgPHi = s.cfgPHi ∧ t.satCnt = s.satCnt ∧ t.floorCnt = s.floorCnt ∧ t.cram = s.cram

theorem SameCoreFields.refl (s : State) : SameCoreFields s s := by simp [SameCoreFields]

theorem sameCoreFields_writeReg (c : Config) (s : State) (r : Reg) (v : Word) :
    SameCoreFields s (writeReg c s r v) := by
  obtain ⟨hst, hres, hm, hk, hn, hlo, hhi, hsat, hfl, hcram, _, _⟩ := writeReg_fields c s r v
  exact ⟨hst, hres, hm, hk, hn, hlo, hhi, hsat, hfl, hcram⟩

/-- A step that is no reset is an idle step, a bus error, a read or a write of a register, which keep the core's fields; or
the failure of an illegal command word; or a command. -/
theorem step_next_cases {s t : State} (h : step s = .next t) (hr : nextIsReset s = false) :
    SameCoreFields s t ∨
    (∃ rest, t = respond (cmdError { s with script := rest } .illegalCommand) writeDone) ∨
    ∃ rest i u, nextCommand s = some i ∧ execAt Config.impl i { s with script := rest } = .next u ∧
      t = respond u writeDone := by
  rcases stepWith_next h with ⟨_, rfl⟩ | ⟨_, _, hs, _⟩ | ⟨_, rest, _, _, rfl⟩ | ⟨_, rest, _, _, _, _, _, rfl⟩ |
    ⟨x, rest, _, _, _, _, rfl⟩ | ⟨_, rest, _, _, _, _, _, _, rfl⟩ | ⟨_, rest, i, u, hs, hl, hd, ha, hi, hu, rfl⟩
  · exact .inl (.refl _)
  · simp [nextIsReset_of hs] at hr
  · exact .inl (SameCoreFields.refl s)
  · exact .inl (SameCoreFields.refl s)
  · exact .inl (sameCoreFields_writeReg Config.impl { s with script := rest } (regAt x.addr) x.wdata)
  · exact .inr (.inl ⟨rest, rfl⟩)
  · exact .inr (.inr ⟨rest, i, u, nextCommand_of hs hl hd ha hi, exec_eq_execAt i _ ▸ hu, rfl⟩)

theorem step_sameInstance {s t : State} (h : step s = .next t) (hc : nextCommand s ≠ some .configure)
    (hr : nextIsReset s = false) : SameInstance s t := by
  rcases step_next_cases h hr with ⟨hst, _, hm, hk, hn, hlo, hhi, _⟩ | ⟨rest, rfl⟩ | ⟨rest, i, u, hi, hu, rfl⟩
  · exact ⟨congrArg Status.configured hst, hm, hk, hn, hlo, hhi⟩
  · simp [SameInstance]
  · exact (execAt_sameInstance hu fun e => hc (e ▸ hi) :)

/-- Settles O27: the instance is kept by every step but a reset and CONFIGURE. -/
theorem onlyConfigureChangesTheInstance : Obligations.OnlyConfigureChangesTheInstance := by
  intro s t h hc hr
  obtain ⟨_, hfields⟩ := step_sameInstance h hc hr
  exact hfields

theorem step_of_nextIsReset {s t : State} (h : step s = .next t) (hr : nextIsReset s = true) :
    ∃ rest, t = afterReset { s with script := rest } := by
  unfold nextIsReset at hr
  split at hr
  · rename_i a rest hs
    exact ⟨rest, by simpa [step, stepWith, hs, perform] using h.symm⟩
  · cases hr

/-- No command clears CONFIGURED. -/
theorem execAt_configured {c : Config} {i : Instr} {s t : State} (h : execAt c i s = .next t)
    (hs : s.status.configured = true) : t.status.configured = true := by
  by_cases hi : i = .configure
  · subst hi
    rcases configureAt_next h with ⟨e, _, rfl⟩ | ⟨_, rfl⟩
    · exact hs
    · rfl
  · obtain ⟨hconf, _⟩ := execAt_sameInstance h hi
    exact hconf.trans hs

/-- Settles O28: CONFIGURE, which makes an instance or keeps the one there is, is the one step besides reset that writes
CONFIGURED. -/
theorem configuredIsClearedOnlyByReset : Obligations.ConfiguredIsClearedOnlyByReset := by
  intro s t h
  constructor
  · intro hs hr
    rcases step_next_cases h hr with ⟨hst, _⟩ | ⟨rest, rfl⟩ | ⟨rest, i, u, _, hu, rfl⟩
    · rw [hst, hs]
    · exact hs
    · exact (execAt_configured hu hs :)
  · intro hs ht
    by_contra hc
    cases hr : nextIsReset s with
    | true =>
      obtain ⟨rest, rfl⟩ := step_of_nextIsReset h hr
      cases ht
    | false =>
      obtain ⟨hconf, _⟩ := step_sameInstance h hc hr
      rw [hconf, hs] at ht
      cases ht

/-! ### The debug counters -/

/-- The debug counters are at least what they were. -/
def DebugCountersRise (s t : State) : Prop :=
  s.satCnt.toNat ≤ t.satCnt.toNat ∧ s.floorCnt.toNat ≤ t.floorCnt.toNat

/-- Counting saturates, so it never lowers the count (R37, R38). -/
theorem le_countEvents (cnt : Word) (events : Nat) : cnt.toNat ≤ (countEvents cnt events).toNat := by
  have hcnt := cnt.isLt
  rw [countEvents, BitVec.toNat_ofNat, Nat.mod_eq_of_lt (by omega)]
  omega

/-- A completion raises the debug counters of the state it completes. -/
theorem debugCountersRise_complete {s u : State} (h : SameButCram s u) (result sat floor : Nat) :
    DebugCountersRise s (complete u result sat floor) := by
  rw [h]
  exact ⟨le_countEvents _ _, le_countEvents _ _⟩

theorem execAt_debugCountersRise {c : Config} {i : Instr} {s t : State} (h : execAt c i s = .next t)
    (hi : i ≠ .configure) : DebugCountersRise s t := by
  rcases execAt_next h with ⟨e, rfl⟩ | ⟨h, _, _⟩ | ⟨_, S, r, _, _, rfl⟩ | ⟨_, S, r, _, rfl⟩
  · exact ⟨le_rfl, le_rfl⟩
  · exact absurd h hi
  · exact debugCountersRise_complete (sameButCram_incrementAll S s) _ _ _
  · exact debugCountersRise_complete (sameButCram_decrementAll s.ctrl.decFloor0 S s) _ _ _

/-- Settles O31: a step leaves the debug counters alone, or is a command's completion, which counts up to the greatest
value and no further. -/
theorem debugCountersNeverWrap : Obligations.DebugCountersNeverWrap := by
  intro s t h hc hr
  rcases step_next_cases h hr with ⟨_, _, _, _, _, _, _, hsat, hfl, _⟩ | ⟨rest, rfl⟩ | ⟨rest, i, u, hi, hu, rfl⟩
  · rw [hsat, hfl]
    exact ⟨le_rfl, le_rfl⟩
  · exact ⟨le_rfl, le_rfl⟩
  · exact (execAt_debugCountersRise hu fun e => hc (e ▸ hi) :)

end Sys2Proof.Proofs
end

section
/-! PROOFS. The commands before the first CONFIGURE, and the contents of the counter RAM there (spec rules R47, R324). -/

namespace Sys2Proof.Proofs

open Sys2Proof.Machine

/-- R324 for every configuration: without an instance, every command but NOP and CONFIGURE fails, with a code that
only DIAG_EN decides. -/
theorem execAt_unconfigured (c : Config) {i : Instr} {s : State} (hs : s.status.configured = false) (hn : i ≠ .nop)
    (hc : i ≠ .configure) :
    execAt c i s = .next (cmdError s
      (if (i = .incSlot ∨ i = .decSlot) ∧ s.ctrl.diagEn = false then .diagDisabled else .notConfigured)) := by
  cases i with
  | nop => exact absurd rfl hn
  | configure => exact absurd rfl hc
  | readSlot => exact afterChecks_fail s _ (by simp [readSlotChecks, firstError_cons, hs])
  | incSlot => exact afterChecks_fail s _ (by simp [incSlotChecks, firstError_cons, hs, apply_ite some])
  | decSlot => exact afterChecks_fail s _ (by simp [decSlotChecks, firstError_cons, hs, apply_ite some])
  | readByte => exact afterChecks_fail s _ (by simp [readByteChecks, firstError_cons, hs])
  | hashSlot => exact afterChecks_fail s _ (by simp [hashSlotChecks, firstError_cons, hs])
  | map => exact afterChecks_fail s _ (by simp [mapChecks, firstError_cons, hs])
  | insert => exact afterChecks_fail s _ (by simp [insertChecks, firstError_cons, hs])
  | delete => exact afterChecks_fail s _ (by simp [deleteChecks, firstError_cons, hs])
  | lookup => exact afterChecks_fail s _ (by simp [lookupChecks, firstError_cons, hs])

/-- CONFIGURE reads no counter: its checks do not, and the new instance clears them all. So it fails in the same way, or
makes the same instance. -/
theorem configureAt_cram (c : Config) (s : State) (mem : List Host.Cell) :
    (∃ e, configureAt c s = .next (cmdError s e) ∧
      configureAt c { s with cram := mem } = .next (cmdError { s with cram := mem } e)) ∨
    ∃ t, configureAt c s = .next t ∧ configureAt c { s with cram := mem } = .next t := by
  have same : configureChecks c { s with cram := mem } = configureChecks c s := rfl
  cases hf : firstError (configureChecks c s) with
  | some e => exact .inl ⟨e, afterChecks_fail s _ hf, afterChecks_fail _ _ (same ▸ hf)⟩
  | none => exact .inr ⟨_, afterChecks_pass s _ hf, afterChecks_pass _ _ (same ▸ hf)⟩

/-- Settles O32: NOP reads no counter, CONFIGURE clears them, and every other command fails before it reads one. -/
theorem counterRamIsUnobservableBeforeConfigure : Obligations.CounterRamIsUnobservableBeforeConfigure := by
  intro s mem i hs
  have no_instance : ∀ {p : Prop}, s.status.configured = true → p := fun h => absurd h (by simp [hs])
  rw [exec_eq_execAt, exec_eq_execAt]
  by_cases hn : i = .nop
  · subst hn
    exact ⟨_, _, rfl, rfl, rfl, no_instance⟩
  by_cases hc : i = .configure
  · subst hc
    rcases configureAt_cram Config.impl s mem with ⟨e, h, h'⟩ | ⟨t, h, h'⟩
    · exact ⟨_, _, h, h', rfl, no_instance⟩
    · exact ⟨t, t, h, h', rfl, fun _ => rfl⟩
  · exact ⟨_, _, execAt_unconfigured Config.impl hs hn hc, execAt_unconfigured Config.impl hs hn hc, rfl,
      no_instance⟩

end Sys2Proof.Proofs
end

section
/-! PROOFS. The reset values and the invariant of the reachable states (spec rules R44, R47, R49). -/

namespace Sys2Proof.Proofs

open Sys2Proof.Machine

/-! ### At reset -/

/-- Settles O10: each field holds the value of R47, and the tables of written words are empty. -/
theorem resetValues : Obligations.ResetValues := by
  refine ⟨rfl, rfl, rfl, rfl, rfl, rfl, rfl, rfl, rfl, rfl, rfl, rfl, rfl, rfl, rfl, fun w => ?_, fun w => ?_⟩
  · exact lookupAt_nil w
  · exact lookupAt_nil w

theorem invariant_reset (c : Config) : Invariant c State.reset where
  noInstance _ := ⟨rfl, rfl, rfl, rfl, rfl⟩
  inRange h := absurd h (by decide)
  validParameters h := absurd h (by decide)
  derived h := absurd h (by decide)
  events _ := rfl
  cramCanonical := memWf_memClear
  cramWithin h := absurd h (by decide)
  padClear h := absurd h (by decide)
  keyCanonical := ⟨rfl, fun _ hp => absurd hp List.not_mem_nil⟩
  digestCanonical := ⟨rfl, fun _ hp => absurd hp List.not_mem_nil⟩

/-- Settles O44: no instance, no event, and empty lists. -/
theorem resetMeetsTheInvariant : Obligations.ResetMeetsTheInvariant := invariant_reset Config.impl

/-! ### What a table, a response, a write and a failure keep -/

/-- The canonical form of a table of written words of `words` words (R39, R40). -/
def WordsOk (words : Nat) (t : List (Nat × Word)) : Prop :=
  tableRises t = true ∧ ∀ p ∈ t, p.1 < words

theorem wordsOk_putAt {words w : Nat} {t : List (Nat × Word)} (v : Word) (hw : w < words) (h : WordsOk words t) :
    WordsOk words (putAt t w v) := by
  obtain ⟨hrises, hwithin⟩ := h
  refine ⟨tableRises_putAt w v hrises, fun p hp => ?_⟩
  rcases mem_putAt hp with rfl | hp
  · exact hw
  · exact hwithin p hp

theorem cramOk_of_invariant {c : Config} {s : State} (h : Invariant c s) (hs : s.status.configured = true) :
    CramOk s.m.toNat s.cram :=
  ⟨h.cramCanonical, h.cramWithin hs, h.padClear hs⟩

/-- The conditions on the instance are those of the state before; the others are on what may change. -/
theorem invariant_of_sameInstance {c : Config} {s t : State} (h : Invariant c s) (hi : SameInstance s t)
    (events : t.status.sat = true ∨ t.status.floor = true → t.status.err = .noError)
    (canonical : memWf t.cram = true) (cram : s.status.configured = true → CramOk s.m.toNat t.cram)
    (key : WordsOk c.keyWords t.key) (digest : WordsOk c.digestWords t.digest) : Invariant c t := by
  obtain ⟨hconf, hm, hk, hn, hlo, hhi⟩ := hi
  have hp : instancePattern t = instancePattern s := by rw [instancePattern, hlo, hhi, instancePattern]
  constructor
  case noInstance => rw [hconf, hm, hk, hn, hlo, hhi]; exact h.noInstance
  case inRange => rw [hconf, hm, hk]; exact h.inRange
  case validParameters => rw [hconf, hn, hp]; exact h.validParameters
  case derived => rw [hconf, hm, hk, hn, hp]; exact h.derived
  case events => exact events
  case cramCanonical => exact canonical
  case cramWithin => rw [hconf, hm]; exact fun hs => (cram hs).within
  case padClear => rw [hconf, hm]; exact fun hs => (cram hs).padClear
  case keyCanonical => exact key
  case digestCanonical => exact digest

/-- A state with the same status, instance and counters, and canonical tables. -/
theorem invariant_of_sameCoreFields {c : Config} {s t : State} (h : Invariant c s) (hf : SameCoreFields s t)
    (key : WordsOk c.keyWords t.key) (digest : WordsOk c.digestWords t.digest) : Invariant c t := by
  obtain ⟨hst, _, hm, hk, hn, hlo, hhi, _, _, hcram⟩ := hf
  refine invariant_of_sameInstance h ⟨by rw [hst], hm, hk, hn, hlo, hhi⟩ ?_ ?_ ?_ key digest
  · rw [hst]; exact h.events
  · rw [hcram]; exact h.cramCanonical
  · rw [hcram]; exact cramOk_of_invariant h

theorem invariant_withScript {c : Config} {s : State} (script : List PortEvent) (h : Invariant c s) :
    Invariant c { s with script := script } :=
  invariant_of_sameCoreFields h (.refl s) h.keyCanonical h.digestCanonical

theorem invariant_respond {c : Config} {s : State} (r : Response) (h : Invariant c s) :
    Invariant c (respond s r) :=
  invariant_of_sameCoreFields h (.refl s) h.keyCanonical h.digestCanonical

theorem invariant_afterReset (c : Config) (s : State) : Invariant c (afterReset s) :=
  invariant_of_sameCoreFields (invariant_reset c) (.refl State.reset) (invariant_reset c).keyCanonical
    (invariant_reset c).digestCanonical

theorem invariant_cmdError {c : Config} {s : State} (e : ErrCode) (h : Invariant c s) :
    Invariant c (cmdError s e) :=
  invariant_of_sameInstance h ⟨rfl, rfl, rfl, rfl, rfl, rfl⟩ (by simp) h.cramCanonical (cramOk_of_invariant h)
    h.keyCanonical h.digestCanonical

/-- A write of a register changes the tables at a word inside capacity alone (R125). -/
theorem wordsOk_writeReg {c : Config} {s : State} (r : Reg) (v : Word) (hk : WordsOk c.keyWords s.key)
    (hd : WordsOk c.digestWords s.digest) :
    WordsOk c.keyWords (writeReg c s r v).key ∧ WordsOk c.digestWords (writeReg c s r v).digest := by
  cases r with
  | key w =>
    by_cases hw : w < c.keyWords
    · simpa [writeReg, hw] using ⟨wordsOk_putAt v hw hk, hd⟩
    · simpa [writeReg, hw] using ⟨hk, hd⟩
  | digest w =>
    by_cases hw : w < c.digestWords
    · simpa [writeReg, hw] using ⟨hk, wordsOk_putAt v hw hd⟩
    · simpa [writeReg, hw] using ⟨hk, hd⟩
  | _ => exact ⟨hk, hd⟩

theorem invariant_writeReg {c : Config} {s : State} (r : Reg) (v : Word) (h : Invariant c s) :
    Invariant c (writeReg c s r v) := by
  obtain ⟨hk, hd⟩ := wordsOk_writeReg r v h.keyCanonical h.digestCanonical
  exact invariant_of_sameCoreFields h (sameCoreFields_writeReg c s r v) hk hd

/-! ### What a command keeps -/

/-- A command that completes after counter updates keeps the invariant when its updates keep the counter RAM's form. -/
theorem invariant_complete {c : Config} {s u : State} (result sat floor : Nat) (h : Invariant c s)
    (hu : SameButCram s u) (canonical : memWf u.cram = true)
    (cram : s.status.configured = true → CramOk s.m.toNat u.cram) : Invariant c (complete u result sat floor) := by
  rw [hu]
  exact invariant_of_sameInstance h ⟨rfl, rfl, rfl, rfl, rfl, rfl⟩ (fun _ => rfl) canonical cram h.keyCanonical
    h.digestCanonical

/-- The checks of CONFIGURE passed: the derived (m, k) is in range, so that M and K hold it (R155, R157). -/
theorem derive_inRange {c : Config} {n : Word} {pb : Pattern} (hv : validInputs n pb = true)
    (ho : overCapacity c (derive n pb) = false) :
    1 ≤ (derive n pb).1 ∧ (derive n pb).1 ≤ c.mMax ∧ 1 ≤ (derive n pb).2 ∧ (derive n pb).2 ≤ c.kMax := by
  have hm : 1 ≤ (derive n pb).1 := (slotCount_le hv).1
  have hk : 1 ≤ (derive n pb).2 := (hashCount_le hv).1
  simp only [overCapacity, Bool.or_eq_false_iff, decide_eq_false_iff_not, not_lt] at ho
  exact ⟨hm, ho.1, hk, ho.2⟩

theorem mMax_lt (c : Config) : c.mMax < 2 ^ 32 := by
  have := c.mMaxPred.isLt
  unfold Config.mMax
  omega

theorem kMax_lt (c : Config) : c.kMax < 2 ^ 32 := by
  have := c.kMaxPred.isLt
  unfold Config.kMax
  omega

theorem newInstance_toNat {c : Config} (s : State) {mk : Nat × Nat} (hm : mk.1 ≤ c.mMax) (hk : mk.2 ≤ c.kMax) :
    (newInstance s mk).m.toNat = mk.1 ∧ (newInstance s mk).k.toNat = mk.2 := by
  constructor
  · exact (BitVec.toNat_ofNat _ _).trans (Nat.mod_eq_of_lt (hm.trans_lt (mMax_lt c)))
  · exact (BitVec.toNat_ofNat _ _).trans (Nat.mod_eq_of_lt (hk.trans_lt (kMax_lt c)))

/-- The new instance meets R49: it is the derivation of the valid staged parameters, in range, with every counter 0. -/
theorem invariant_configured {c : Config} {s : State} (result : Nat) (h : Invariant c s)
    (hf : firstError (configureChecks c s) = none) :
    Invariant c (complete (newInstance s (derive s.n (stagedPattern s))) result 0 0) := by
  have hv : validInputs s.n (stagedPattern s) = true := by
    simpa using firstError_eq_none_iff.1 hf _ List.mem_cons_self
  have ho : overCapacity c (derive s.n (stagedPattern s)) = false :=
    firstError_eq_none_iff.1 hf _ (List.mem_cons_of_mem _ List.mem_cons_self)
  obtain ⟨hm₁, hm₂, hk₁, hk₂⟩ := derive_inRange hv ho
  obtain ⟨hm, hk⟩ := newInstance_toNat s hm₂ hk₂
  constructor
  case noInstance => exact fun hc => absurd hc (by simp)
  case inRange => intro _; rw [complete_m, complete_k, hm, hk]; exact ⟨hm₁, hm₂, hk₁, hk₂⟩
  case validParameters => exact fun _ => hv
  case derived => intro _; rw [complete_m, complete_k, hm, hk]; rfl
  case events => exact fun _ => rfl
  case cramCanonical => exact memWf_memClear
  case cramWithin => exact fun _ => (cramOk_clear _).within
  case padClear => exact fun _ => (cramOk_clear _).padClear
  case keyCanonical => exact h.keyCanonical
  case digestCanonical => exact h.digestCanonical

theorem invariant_execAt {c : Config} {i : Instr} {s t : State} (h : Invariant c s) (ht : execAt c i s = .next t) :
    Invariant c t := by
  rcases execAt_next ht with ⟨e, rfl⟩ | ⟨_, hf, rfl⟩ | ⟨_, S, r, hS, _, rfl⟩ | ⟨_, S, r, hS, rfl⟩
  · exact invariant_cmdError e h
  · exact invariant_configured 0 h hf
  · exact invariant_complete r _ 0 h (sameButCram_incrementAll S s) (memWf_incrementAll S h.cramCanonical)
      fun hs => cramOk_incrementAll S hS (cramOk_of_invariant h hs)
  · exact invariant_complete r 0 _ h (sameButCram_decrementAll _ S s) (memWf_decrementAll _ S h.cramCanonical)
      fun hs => cramOk_decrementAll _ S hS (cramOk_of_invariant h hs)

/-! ### What a step keeps -/

/-- R49 for every configuration: what the step does, in each of the ways it can go, keeps the invariant. -/
theorem invariant_stepAt {c : Config} {s t : State} (h : Invariant c s) (ht : stepAt c s = .next t) :
    Invariant c t := by
  rcases stepWith_next ht with ⟨_, rfl⟩ | ⟨_, rest, _, rfl⟩ | ⟨_, rest, _, _, rfl⟩ | ⟨_, rest, _, _, _, _, _, rfl⟩ |
    ⟨_, rest, _, _, _, _, rfl⟩ | ⟨_, rest, _, _, _, _, _, _, rfl⟩ | ⟨_, rest, i, u, _, _, _, _, _, hu, rfl⟩
  · exact h
  · exact invariant_afterReset c _
  · exact invariant_respond _ (invariant_withScript rest h)
  · exact invariant_respond _ (invariant_withScript rest h)
  · exact invariant_respond _ (invariant_writeReg _ _ (invariant_withScript rest h))
  · exact invariant_respond _ (invariant_cmdError _ (invariant_withScript rest h))
  · exact invariant_respond _ (invariant_execAt (invariant_withScript rest h) hu)

/-- Settles O45: the step on the hardware at hand is the general one. -/
theorem stepKeepsTheInvariant : Obligations.StepKeepsTheInvariant := by
  intro s t h ht
  exact invariant_stepAt h (step_eq_stepAt s ▸ ht)

end Sys2Proof.Proofs
end

section
/-! PROOFS. What a step without a `CMD` write and without a reset keeps (spec rules R60, R71, R123, R125, R341). -/

namespace Sys2Proof.Proofs

open Sys2Proof.Machine

theorem nextWritesCmd_of {s : State} {x : Transaction} {rest : List PortEvent} (hs : s.script = .request x :: rest)
    (hl : isLegal x = true) (hd : x.dir = .write) (ha : x.addr = cmdOffset) : nextWritesCmd s = true := by
  simp [nextWritesCmd, nextRequest, hs, hl, hd, ha]

/-- R341 for every configuration and every meaning of the commands: all that is left are an idle step, a bus error, a read
and a write of another register. -/
theorem stepWith_sameCoreFields {c : Config} {run : Instr → State → Result} {s t : State}
    (h : stepWith c run s = .next t) (hw : nextWritesCmd s = false) (hr : nextIsReset s = false) :
    SameCoreFields s t := by
  rcases stepWith_next h with ⟨_, rfl⟩ | ⟨_, _, hs, _⟩ | ⟨_, _, _, _, rfl⟩ | ⟨_, _, _, _, _, _, _, rfl⟩ |
    ⟨x, rest, _, _, _, _, rfl⟩ | ⟨_, _, _, hs, hl, hd, ha, _⟩ | ⟨_, _, _, _, hs, hl, hd, ha, _⟩
  · exact .refl _
  · simp [nextIsReset_of hs] at hr
  · exact SameCoreFields.refl s
  · exact SameCoreFields.refl s
  · exact sameCoreFields_writeReg c { s with script := rest } (regAt x.addr) x.wdata
  · simp [nextWritesCmd_of hs hl hd ha] at hw
  · simp [nextWritesCmd_of hs hl hd ha] at hw

/-- Settles O30: the fields it names are among those no host write but that of `CMD` reaches. -/
theorem onlyCmdWritesChangeResultAndStatus : Obligations.OnlyCmdWritesChangeResultAndStatus := by
  intro s t h hw hr
  obtain ⟨hstatus, hresult, _, _, _, _, _, hsat, hfloor, hcram⟩ := stepWith_sameCoreFields h hw hr
  exact ⟨hresult, hstatus, hcram, hsat, hfloor⟩

end Sys2Proof.Proofs
end

section
/-! PROOFS. The transactions of SETKEY: the KEY words they write, and that the key read back from them is the one they were
packed from (spec rules R40, R64, R98, R127). -/

namespace Sys2Proof.Proofs

open Sys2Proof.Machine

/-! ### Packing a key into words and reading it back -/

/-- A byte of a word put together from four. -/
theorem byteOfWord_append (b₃ b₂ b₁ b₀ : Byte) :
    byteOfWord (b₃ ++ b₂ ++ b₁ ++ b₀) 0 = b₀ ∧ byteOfWord (b₃ ++ b₂ ++ b₁ ++ b₀) 1 = b₁ ∧
    byteOfWord (b₃ ++ b₂ ++ b₁ ++ b₀) 2 = b₂ ∧ byteOfWord (b₃ ++ b₂ ++ b₁ ++ b₀) 3 = b₃ := by
  have skip : ∀ {n start : Nat} {hi : BitVec n} {lo b : Byte}, 8 ≤ start → hi.extractLsb' (start - 8) 8 = b →
      (hi ++ lo).extractLsb' start 8 = b := fun hle h => (BitVec.extractLsb'_append_eq_of_le hle).trans h
  refine ⟨BitVec.extractLsb'_append_eq_right, ?_, ?_, ?_⟩
  · exact skip (by decide) BitVec.extractLsb'_append_eq_right
  · exact skip (by decide) (skip (by decide) BitVec.extractLsb'_append_eq_right)
  · exact skip (by decide) (skip (by decide) BitVec.extractLsb'_append_eq_left)

/-- R64 and R98 agree: byte `j` of packed word `w` is byte `4w + j` of the key. -/
theorem byteOfWord_packedKeyWord (x : List Byte) (w : Nat) {j : Nat} (hj : j < 4) :
    byteOfWord (packedKeyWord x w) j = x.getD (4 * w + j) 0 := by
  obtain ⟨h₀, h₁, h₂, h₃⟩ :=
    byteOfWord_append (x.getD (4 * w + 3) 0) (x.getD (4 * w + 2) 0) (x.getD (4 * w + 1) 0) (x.getD (4 * w) 0)
  match j, hj with
  | 0, _ => exact h₀
  | 1, _ => exact h₁
  | 2, _ => exact h₂
  | 3, _ => exact h₃

/-- The key of a state whose KEY words hold the packed words of `x` is `x`. -/
theorem keyBytes_of_packed {s : State} {x : List Byte} (hlen : s.keyLen.toNat = x.length)
    (hkey : ∀ w, 4 * w < x.length → lookupAt s.key w = some (packedKeyWord x w)) : keyBytes s = x := by
  refine List.ext_getElem (by rw [keyBytes_length, hlen]) fun b _ hb => ?_
  have hword : wordAt s.key (b / 4) = packedKeyWord x (b / 4) := wordAt_of_lookupAt (hkey _ (by omega))
  calc (keyBytes s)[b] = byteOfWord (wordAt s.key (b / 4)) (b % 4) := by simp [keyBytes, keyByte]
    _ = x.getD (4 * (b / 4) + b % 4) 0 := by rw [hword, byteOfWord_packedKeyWord x _ (Nat.mod_lt b (by decide))]
    _ = x[b] := by rw [Nat.div_add_mod, List.getD_eq_getElem x 0 hb]

/-! ### The table of KEY words that SETKEY leaves -/

/-- The KEY words after the first `n` packed words of `x` are written. -/
def putKeyWords (t : List (Nat × Word)) (x : List Byte) : Nat → List (Nat × Word)
  | 0 => t
  | n + 1 => putAt (putKeyWords t x n) n (packedKeyWord x n)

theorem lookupAt_putKeyWords (t : List (Nat × Word)) (x : List Byte) {n w : Nat} (hw : w < n) :
    lookupAt (putKeyWords t x n) w = some (packedKeyWord x w) := by
  induction n with
  | zero => exact absurd hw (Nat.not_lt_zero w)
  | succ n ih =>
    by_cases h : w = n
    · subst h
      exact lookupAt_putAt_same _ _ _
    · rw [putKeyWords, lookupAt_putAt_other _ _ h]
      exact ih (by omega)

/-! ### Running writes -/

/-- A run that ends, followed by one more step. -/
theorem run_succ_last {k : Nat} {s u t : State} (h : Host.Core.run Sys2Proof.core k s = .next u)
    (hu : step u = .next t) : Host.Core.run Sys2Proof.core (k + 1) s = .next t := by
  induction k generalizing s with
  | zero =>
    rw [run_zero h] at hu
    exact run_succ_of hu rfl
  | succ k ih =>
    obtain ⟨v, hv, hrest⟩ := run_succ h
    exact run_succ_of hv (ih hrest)

/-- `WR` at an aligned offset other than that of `CMD` (R97, R125). -/
theorem step_wr {s : State} {a : Offset} {v : Word} {rest : List PortEvent} (hs : s.script = wr a v ++ rest)
    (hl : a.toNat % 4 = 0) (ha : a ≠ cmdOffset) :
    step s = .next (respond (writeReg Config.impl { s with script := rest } (regAt a) v) writeDone) :=
  step_write hs ((isLegal_iff _).2 ⟨rfl, hl⟩) rfl ha

/-- The window of KEY holds every KEY word inside capacity (R40). -/
theorem keyOffset_toNat {w : Nat} (hw : w < Config.impl.keyWords) : (keyOffset w).toNat = 0x400 + 4 * w := by
  have := Config.impl.keyWordsPred.isLt
  unfold Config.keyWords at hw
  exact (BitVec.toNat_ofNat _ _).trans (Nat.mod_eq_of_lt (by omega))

theorem step_wr_keyOffset {s : State} {w : Nat} {v : Word} {rest : List PortEvent} (hw : w < Config.impl.keyWords)
    (hs : s.script = wr (keyOffset w) v ++ rest) :
    step s = .next (respond { s with key := putAt s.key w v, script := rest } writeDone) := by
  have hoff := keyOffset_toNat hw
  have hcmd : keyOffset w ≠ cmdOffset := fun h => by
    rw [h, show cmdOffset.toNat = 0x018 from rfl] at hoff
    omega
  rw [step_wr hs (by omega) hcmd, regAt_key hoff]
  simp [writeReg, hw]

theorem step_wr_keyLen {s : State} {v : Word} {rest : List PortEvent} (hs : s.script = wr 0x044#11 v ++ rest) :
    step s = .next (respond { s with keyLen := v, script := rest } writeDone) :=
  step_wr hs rfl (by decide)

/-! ### Running SETKEY -/

/-- The writes of the first `n` words of the key. -/
def keyWrites (x : List Byte) (n : Nat) : List PortEvent :=
  (List.range n).flatMap fun w => wr (keyOffset w) (packedKeyWord x w)

theorem keyWrites_succ (x : List Byte) (n : Nat) :
    keyWrites x (n + 1) = keyWrites x n ++ wr (keyOffset n) (packedKeyWord x n) := by
  simp [keyWrites, List.range_succ]

theorem setKey_eq (x : List Byte) :
    setKey x = keyWrites x (ceilDiv x.length 4) ++ wr 0x044#11 (BitVec.ofNat 32 x.length) := rfl

theorem setKey_length (x : List Byte) : (setKey x).length = ceilDiv x.length 4 + 1 := by
  simp [setKey, wr]

theorem run_keyWrites {s : State} (x : List Byte) {n : Nat} {rest : List PortEvent} (hn : n ≤ Config.impl.keyWords)
    (hs : s.script = keyWrites x n ++ rest) :
    ∃ responses, Host.Core.run Sys2Proof.core n s =
      .next { s with key := putKeyWords s.key x n, script := rest, responses := responses } := by
  induction n generalizing rest with
  | zero => exact ⟨s.responses, by rw [← show s.script = rest from hs]; rfl⟩
  | succ n ih =>
    rw [keyWrites_succ, List.append_assoc] at hs
    obtain ⟨responses, hrun⟩ := ih (by omega) hs
    exact ⟨_, run_succ_last hrun (step_wr_keyOffset (by omega) rfl)⟩

/-- R98: SETKEY leaves the packed words in KEY and the length in KEYLEN. -/
theorem run_setKey {s : State} {x : List Byte} {rest : List PortEvent} (hx : x.length ≤ Config.impl.keyMax)
    (hs : s.script = setKey x ++ rest) :
    ∃ responses, Host.Core.run Sys2Proof.core (setKey x).length s =
      .next { s with key := putKeyWords s.key x (ceilDiv x.length 4), keyLen := BitVec.ofNat 32 x.length,
                     script := rest, responses := responses } := by
  have hn : ceilDiv x.length 4 ≤ Config.impl.keyWords := by
    unfold Config.keyMax at hx
    unfold ceilDiv
    omega
  rw [setKey_eq, List.append_assoc] at hs
  obtain ⟨responses, hrun⟩ := run_keyWrites x hn hs
  rw [setKey_length]
  exact ⟨_, run_succ_last hrun (step_wr_keyLen rfl)⟩

/-- KEYLEN holds every legal length (R36). -/
theorem toNat_keyLength {n : Nat} (hn : n ≤ Config.impl.keyMax) : (BitVec.ofNat 32 n).toNat = n := by
  have := Config.impl.keyWordsPred.isLt
  unfold Config.keyMax Config.keyWords at hn
  exact (BitVec.toNat_ofNat _ _).trans (Nat.mod_eq_of_lt (by omega))

/-- Settles O38: the run leaves the packed words of the key, all of them written, and these read back as the key. -/
theorem setKeyWritesTheKey : Obligations.SetKeyWritesTheKey := by
  intro s x rest hx hs
  obtain ⟨responses, hrun⟩ := run_setKey hx hs
  have hlen := toNat_keyLength hx
  have hkey : ∀ w, 4 * w < x.length →
      lookupAt (putKeyWords s.key x (ceilDiv x.length 4)) w = some (packedKeyWord x w) := fun w hw =>
    lookupAt_putKeyWords s.key x (by unfold ceilDiv; omega)
  refine ⟨_, hrun, keyBytes_of_packed hlen hkey, ⟨hlen.le.trans hx, fun w hw => ?_⟩, rfl⟩
  simp [hkey w (hw.trans_eq hlen)]

end Sys2Proof.Proofs
end

section
/-! PROOFS. The decoder and the opcode map (spec rules R90, R94 to R96): which words decode, to which command, and that
the encoder is its inverse. -/

namespace Sys2Proof.Proofs

/-! ### The two fields of a command word -/

theorem toNat_reservedField (w : Word) : (w.extractLsb' 8 24).toNat = w.toNat / 256 := by
  have hw := w.isLt
  rw [BitVec.extractLsb'_toNat, Nat.shiftRight_eq_div_pow]
  exact Nat.mod_eq_of_lt (by omega)

theorem toNat_opcodeField (w : Word) : (w.extractLsb' 0 8).toNat = w.toNat % 256 :=
  BitVec.extractLsb'_toNat 0 8 w

/-- The well-formed words by their value as a number. -/
theorem wordWellFormed_iff (w : Word) :
    wordWellFormed w = true ↔ w.toNat / 256 = 0 ∧ w.toNat % 256 ≤ 0x0A := by
  rw [wordWellFormed, reservedClear, opcodeDefined, Bool.and_eq_true, beq_iff_eq, decide_eq_true_iff,
    ← BitVec.toNat_inj, toNat_reservedField, toNat_opcodeField]
  rfl

/-- A word without a reserved bit is its opcode, widened. -/
theorem setWidth_opcodeField {w : Word} (h : w.extractLsb' 8 24 = 0#24) : (w.extractLsb' 0 8).setWidth 32 = w := by
  have hres : w.toNat / 256 = 0 := toNat_reservedField w ▸ congrArg BitVec.toNat h
  refine BitVec.eq_of_toNat_eq ?_
  rw [BitVec.toNat_setWidth, toNat_opcodeField]
  omega

/-! ### The opcode map -/

/-- An opcode the map holds is the one of the command's own word (R94). -/
theorem encode_of_commandOfOpcode {b : BitVec 8} {i : Instr} (h : commandOfOpcode b = some i) :
    encode i = b.setWidth 32 := by
  unfold commandOfOpcode at h
  split at h <;> cases h <;> rfl

/-- The map holds exactly the opcodes 0x00 to 0x0A (R95). -/
theorem commandOfOpcode_eq_none_iff (b : BitVec 8) : commandOfOpcode b = none ↔ 0x0A < b.toNat := by
  revert b
  decide

/-! ### Decoding -/

theorem decode_eq_ok_iff_fields (w : Word) (i : Instr) :
    decode w = .ok i ↔ w.extractLsb' 8 24 = 0#24 ∧ commandOfOpcode (w.extractLsb' 0 8) = some i := by
  unfold decode
  split_ifs with hres
  · simp [hres]
  · cases commandOfOpcode (w.extractLsb' 0 8) <;> simp [not_not.1 hres]

theorem decode_encode (i : Instr) : decode (encode i) = .ok i := by
  cases i <;> rfl

/-- R96: a word decodes to a command exactly when it is the command's word. -/
theorem decode_eq_ok_iff (w : Word) (i : Instr) : decode w = .ok i ↔ w = encode i := by
  constructor
  · intro h
    obtain ⟨hres, hop⟩ := (decode_eq_ok_iff_fields w i).1 h
    rw [encode_of_commandOfOpcode hop, setWidth_opcodeField hres]
  · rintro rfl
    exact decode_encode i

/-- R95: the illegal words are those that are not well-formed. -/
theorem decode_eq_error_iff (w : Word) : (∃ e, decode w = .error e) ↔ wordWellFormed w = false := by
  unfold decode
  split_ifs with hres
  · simp [wordWellFormed, reservedClear, hres]
  · have hop := commandOfOpcode_eq_none_iff (w.extractLsb' 0 8)
    cases hc : commandOfOpcode (w.extractLsb' 0 8) <;>
      simpa [wordWellFormed, reservedClear, opcodeDefined, hc, not_not.1 hres] using hop

theorem wordWellFormed_iff_decode (w : Word) : wordWellFormed w = true ↔ ∃ i, decode w = .ok i := by
  have herr := decode_eq_error_iff w
  cases hd : decode w with
  | error e => simpa [hd] using herr
  | ok i => simpa [hd] using herr

/-- Settles O1: each legal sample is the word of its command. -/
theorem decodesSampleWords : Obligations.DecodesSampleWords :=
  ⟨decode_encode .nop, decode_encode .configure, decode_encode .readSlot, decode_encode .readByte,
    decode_encode .hashSlot, decode_encode .delete, rfl, rfl⟩

/-- Settles O2: the words of the commands decode, and the words that are not well-formed do not. -/
theorem decodeIsTheOpcodeMap : Obligations.DecodeIsTheOpcodeMap := by
  intro w
  refine ⟨decode_eq_ok_iff w .nop, decode_eq_ok_iff w .configure, decode_eq_ok_iff w .readSlot,
    decode_eq_ok_iff w .incSlot, decode_eq_ok_iff w .decSlot, decode_eq_ok_iff w .readByte,
    decode_eq_ok_iff w .hashSlot, decode_eq_ok_iff w .map, decode_eq_ok_iff w .insert, decode_eq_ok_iff w .delete,
    decode_eq_ok_iff w .lookup, ?_⟩
  rw [decode_eq_error_iff, ← Bool.not_eq_true, wordWellFormed_iff, not_and_or, not_le]

/-- Settles O3: a well-formed word decodes to a command, whose word it is. -/
theorem encodeDecodeRoundTrip : Obligations.EncodeDecodeRoundTrip := by
  refine ⟨fun i => ⟨decode_encode i, (wordWellFormed_iff_decode _).2 ⟨i, decode_encode i⟩⟩, fun w hw => ?_⟩
  obtain ⟨i, hi⟩ := (wordWellFormed_iff_decode w).1 hw
  exact ⟨i, ((decode_eq_ok_iff w i).1 hi).symm⟩

end Sys2Proof.Proofs
end

section
/-! PROOFS. The operands of the commands (spec rules R64, R92): two states that agree on them give the same answer. -/

namespace Sys2Proof.Proofs

open Sys2Proof.Machine

/-! ### Counter RAMs that read the same -/

/-- The counter RAMs of the two states hold the same bytes. -/
def SameBytes (s s' : State) : Prop :=
  ∀ j, memRead s'.cram j = memRead s.cram j

theorem SameBytes.counter {s s' : State} (h : SameBytes s s') (i : Nat) : counter s' i = counter s i := by
  rw [counter_eq, counter_eq, h]

theorem SameBytes.setCounter {s s' : State} (h : SameBytes s s') (i : Nat) (v : Nibble) :
    SameBytes (setCounter s i v) (setCounter s' i v) := by
  intro j
  simp only [setCounter_cram, memRead_memWrite, h _]

theorem SameBytes.increment {s s' : State} (h : SameBytes s s') (i : Nat) :
    SameBytes (increment s i).1 (increment s' i).1 ∧ (increment s' i).2 = (increment s i).2 := by
  rw [increment_eq, increment_eq, h.counter]
  exact ⟨h.setCounter i _, rfl⟩

theorem SameBytes.decrement {s s' : State} (h : SameBytes s s') (pol : Bool) (i : Nat) :
    SameBytes (decrement s pol i).1 (decrement s' pol i).1 ∧ (decrement s' pol i).2 = (decrement s pol i).2 := by
  rw [decrement_eq, decrement_eq, h.counter]
  exact ⟨h.setCounter i _, rfl⟩

theorem SameBytes.incrementAll {s s' : State} (h : SameBytes s s') (S : List Nat) :
    SameBytes (incrementAll s S).1 (incrementAll s' S).1 ∧ (incrementAll s' S).2 = (incrementAll s S).2 := by
  induction S generalizing s s' with
  | nil => exact ⟨h, rfl⟩
  | cons i S ih =>
    obtain ⟨hfirst, he⟩ := h.increment i
    obtain ⟨hrest, hes⟩ := ih hfirst
    exact ⟨hrest, congrArg₂ (· + ·) he hes⟩

theorem SameBytes.decrementAll {s s' : State} (h : SameBytes s s') (pol : Bool) (S : List Nat) :
    SameBytes (decrementAll s pol S).1 (decrementAll s' pol S).1 ∧
      (decrementAll s' pol S).2 = (decrementAll s pol S).2 := by
  induction S generalizing s s' with
  | nil => exact ⟨h, rfl⟩
  | cons i S ih =>
    obtain ⟨hfirst, he⟩ := h.decrement pol i
    obtain ⟨hrest, hes⟩ := ih hfirst
    exact ⟨hrest, congrArg₂ (· + ·) he hes⟩

theorem SameBytes.lookupValue {s s' : State} (h : SameBytes s s') (S : List Nat) :
    lookupValue s' S = lookupValue s S :=
  lookupValue_congr S fun i _ => h.counter i

/-! ### The key and the digest -/

/-- The key is the same operand in both states: its bytes, and the `written` bits of the words it stands in
(R45, R64). -/
def SameKey (s s' : State) : Prop :=
  s'.keyLen = s.keyLen ∧ keyBytes s' = keyBytes s ∧
    ∀ w, 4 * w < s.keyLen.toNat → isWritten s'.key w = isWritten s.key w

theorem SameKey.keyLen {s s' : State} (h : SameKey s s') : s'.keyLen = s.keyLen := h.1

theorem firstUnwritten_congr {t t' : List (Nat × Word)} {count : Nat}
    (h : ∀ w < count, isWritten t' w = isWritten t w) : firstUnwritten t' count = firstUnwritten t count :=
  List.find?_congr fun w hw => by rw [h w (List.mem_range.1 hw)]

theorem digestSum_congr {s s' : State} {count : Nat} (h : ∀ w < count, lookupAt s'.digest w = lookupAt s.digest w) :
    digestSum s' count = digestSum s count := by
  induction count with
  | zero => rfl
  | succ w ih =>
    have hlast : wordAt s'.digest w = wordAt s.digest w := congrArg (·.getD unwrittenWord) (h w (Nat.lt_succ_self w))
    rw [digestSum, digestSum, ih fun v hv => h v (by omega), hlast]

/-! ### Answers that cannot be told apart -/

/-- The two outcomes, of a command run on `s` and on `s'`, are the same but for what the operands do not decide: both
fault alike, or both answer with the same ERR, SAT and FLOOR, with the same RESULT if there is no error, and with the
same counter RAM if it was the same before. -/
def AnswersAlike (s s' : State) (o o' : Result) : Prop :=
  (∃ t t', o = .next t ∧ o' = .next t' ∧ t'.status.err = t.status.err ∧ t'.status.sat = t.status.sat ∧
    t'.status.floor = t.status.floor ∧ (t.status.err = .noError → t'.result = t.result) ∧
    (SameBytes s s' → SameBytes t t')) ∨
  ∃ f, o = .fault f ∧ o' = .fault f

section
variable {c : Config} {s s' : State}

theorem answersAlike_cmdError {e : ErrCode} (he : e ≠ .noError) :
    AnswersAlike s s' (.next (cmdError s e)) (.next (cmdError s' e)) :=
  .inl ⟨_, _, rfl, rfl, rfl, rfl, rfl, fun h => absurd h he, id⟩

theorem answersAlike_complete {u u' : State} {result result' sat sat' floor floor' : Nat} (hr : result' = result)
    (hs : sat' = sat) (hf : floor' = floor) (hu : SameBytes s s' → SameBytes u u') :
    AnswersAlike s s' (.next (complete u result sat floor)) (.next (complete u' result' sat' floor')) := by
  subst hr hs hf
  exact .inl ⟨_, _, rfl, rfl, rfl, rfl, rfl, fun _ => rfl, hu⟩

/-- A completion without an event and without a change of a counter. -/
theorem answersAlike_completeQuiet {result result' : Nat} (hr : result' = result) :
    AnswersAlike s s' (.next (complete s result 0 0)) (.next (complete s' result' 0 0)) :=
  answersAlike_complete hr rfl rfl id

/-- A reported error is one of the ladder's codes. -/
theorem mem_of_firstError {l : List (Bool × ErrCode)} {e : ErrCode} (h : firstError l = some e) :
    e ∈ l.map Prod.snd := by
  induction l with
  | nil => cases h
  | cons p l ih =>
    rw [firstError_cons] at h
    split_ifs at h
    · cases h
      exact List.mem_cons_self
    · exact List.mem_cons_of_mem _ (ih h)

theorem answersAlike_afterChecks {l l' : List (Bool × ErrCode)} {body body' : Result} (hl : l' = l)
    (hcodes : .noError ∉ l.map Prod.snd) (hbody : AnswersAlike s s' body body') :
    AnswersAlike s s' (afterChecks l s body) (afterChecks l' s' body') := by
  subst hl
  cases hf : firstError l' with
  | none => rwa [afterChecks_pass s body hf, afterChecks_pass s' body' hf]
  | some e =>
    rw [afterChecks_fail s body hf, afterChecks_fail s' body' hf]
    exact answersAlike_cmdError fun he => hcodes (he ▸ mem_of_firstError hf)

theorem answersAlike_onSlots {body body' : Result} (hm : s'.m = s.m) (hbody : AnswersAlike s s' body body') :
    AnswersAlike s s' (onSlots c s body) (onSlots c s' body') := by
  have hrange : slotsInRange c s' = slotsInRange c s := by rw [slotsInRange, slotsInRange, hm]
  rw [onSlots, onSlots, hrange]
  split
  · exact hbody
  · exact .inr ⟨_, rfl, rfl⟩

theorem answersAlike_onInstance {body body' : Result} (hk : s'.k = s.k) (hm : s'.m = s.m)
    (hbody : AnswersAlike s s' body body') : AnswersAlike s s' (onInstance c s body) (onInstance c s' body') := by
  have hrange : instanceInRange c s' = instanceInRange c s := by
    rw [instanceInRange, instanceInRange, slotsInRange, slotsInRange, seedsInRange, seedsInRange, hm, hk]
  rw [onInstance, onInstance, hrange]
  split
  · exact hbody
  · exact .inr ⟨_, rfl, rfl⟩

theorem answersAlike_onKey {body body' : List Byte → Result} (hkey : SameKey s s')
    (hbody : ∀ x, AnswersAlike s s' (body x) (body' x)) : AnswersAlike s s' (onKey s body) (onKey s' body') := by
  obtain ⟨hlen, hbytes, hwritten⟩ := hkey
  have hused : keyWordsUsed s' = keyWordsUsed s := by rw [keyWordsUsed, keyWordsUsed, hlen]
  have hfirst : firstUnwritten s'.key (keyWordsUsed s) = firstUnwritten s.key (keyWordsUsed s) :=
    firstUnwritten_congr fun w hw => hwritten w ((keyWordsUsed_lt_iff s w).1 hw)
  rw [onKey, onKey, hused, hfirst, hbytes]
  split
  · exact .inr ⟨_, rfl, rfl⟩
  · exact hbody _

theorem answersAlike_onDigest {body body' : Nat → Result}
    (hdigest : ∀ w < c.digestWords, lookupAt s'.digest w = lookupAt s.digest w)
    (hbody : ∀ d, AnswersAlike s s' (body d) (body' d)) :
    AnswersAlike s s' (onDigest c s body) (onDigest c s' body') := by
  have hfirst : firstUnwritten s'.digest c.digestWords = firstUnwritten s.digest c.digestWords :=
    firstUnwritten_congr fun w hw => congrArg Option.isSome (hdigest w hw)
  rw [onDigest, onDigest, hfirst, digestSum_congr hdigest]
  split
  · exact .inr ⟨_, rfl, rfl⟩
  · exact hbody _

/-! ### The commands, on every configuration -/

theorem configureAt_alike (hn : s'.n = s.n) (hlo : s'.pLo = s.pLo) (hhi : s'.pHi = s.pHi) :
    AnswersAlike s s' (configureAt c s) (configureAt c s') := by
  have hp : stagedPattern s' = stagedPattern s := by rw [stagedPattern, stagedPattern, hlo, hhi]
  exact answersAlike_afterChecks (by rw [configureChecks, configureChecks, hn, hp]) (by simp [configureChecks])
    (answersAlike_complete rfl rfl rfl fun _ _ => by rw [newInstance_cram, newInstance_cram])

variable (hconf : s'.status.configured = s.status.configured) (hm : s'.m = s.m)
include hconf hm

theorem mapAt_alike (hdigest : ∀ w < c.digestWords, lookupAt s'.digest w = lookupAt s.digest w) :
    AnswersAlike s s' (mapAt c s) (mapAt c s') :=
  answersAlike_afterChecks (by rw [mapChecks, mapChecks, hconf]) (by simp [mapChecks]) <|
    answersAlike_onSlots hm <| answersAlike_onDigest hdigest fun _ => answersAlike_completeQuiet (by rw [hm])

section
variable (harg : s'.arg0 = s.arg0) (hbytes : SameBytes s s')
include harg hbytes

theorem readSlotAt_alike : AnswersAlike s s' (readSlotAt c s) (readSlotAt c s') := by
  have ha : argument s' = argument s := congrArg BitVec.toNat harg
  exact answersAlike_afterChecks (by rw [readSlotChecks, readSlotChecks, hconf, hm, ha]) (by simp [readSlotChecks]) <|
    answersAlike_onSlots hm <| answersAlike_completeQuiet (by rw [ha, hbytes.counter])

theorem readByteAt_alike : AnswersAlike s s' (readByteAt c s) (readByteAt c s') := by
  have ha : argument s' = argument s := congrArg BitVec.toNat harg
  exact answersAlike_afterChecks (by rw [readByteChecks, readByteChecks, hconf, hm, ha]) (by simp [readByteChecks]) <|
    answersAlike_onSlots hm <| answersAlike_completeQuiet (by rw [ha, hbytes])

theorem incSlotAt_alike (hdiag : s'.ctrl.diagEn = s.ctrl.diagEn) :
    AnswersAlike s s' (incSlotAt c s) (incSlotAt c s') := by
  have ha : argument s' = argument s := congrArg BitVec.toNat harg
  obtain ⟨hinc, he⟩ := hbytes.increment (argument s)
  refine answersAlike_afterChecks (by rw [incSlotChecks, incSlotChecks, hdiag, hconf, hm, ha])
    (by simp [incSlotChecks]) (answersAlike_onSlots hm ?_)
  rw [ha]
  exact answersAlike_complete (congrArg BitVec.toNat (hinc.counter _)) he rfl fun _ => hinc

theorem decSlotAt_alike (hctrl : s'.ctrl = s.ctrl) : AnswersAlike s s' (decSlotAt c s) (decSlotAt c s') := by
  have ha : argument s' = argument s := congrArg BitVec.toNat harg
  obtain ⟨hdec, he⟩ := hbytes.decrement s.ctrl.decFloor0 (argument s)
  refine answersAlike_afterChecks (by rw [decSlotChecks, decSlotChecks, hctrl, hconf, hm, ha])
    (by simp [decSlotChecks]) (answersAlike_onSlots hm ?_)
  rw [ha, hctrl]
  exact answersAlike_complete (congrArg BitVec.toNat (hdec.counter _)) rfl he fun _ => hdec

end

variable (hk : s'.k = s.k) (hkey : SameKey s s')
include hk hkey

theorem hashSlotAt_alike (harg : s'.arg0 = s.arg0) : AnswersAlike s s' (hashSlotAt c s) (hashSlotAt c s') := by
  have ha : argument s' = argument s := congrArg BitVec.toNat harg
  exact answersAlike_afterChecks (by rw [hashSlotChecks, hashSlotChecks, hconf, hkey.keyLen, ha, hk])
    (by simp [hashSlotChecks]) <| answersAlike_onInstance hk hm <| answersAlike_onKey hkey fun _ =>
      answersAlike_completeQuiet (by rw [slotOf, slotOf, hm, ha])

variable (hbytes : SameBytes s s')
include hbytes

theorem insertAt_alike : AnswersAlike s s' (insertAt c s) (insertAt c s') := by
  refine answersAlike_afterChecks (by rw [insertChecks, insertChecks, hconf, hkey.keyLen]) (by simp [insertChecks]) <|
    answersAlike_onInstance hk hm <| answersAlike_onKey hkey fun x => ?_
  obtain ⟨hall, hes⟩ := hbytes.incrementAll (slotsOf c s x)
  rw [slotsOf_congr x hm hk]
  exact answersAlike_complete rfl hes rfl fun _ => hall

theorem deleteAt_alike (hpol : s'.ctrl.decFloor0 = s.ctrl.decFloor0) :
    AnswersAlike s s' (deleteAt c s) (deleteAt c s') := by
  refine answersAlike_afterChecks (by rw [deleteChecks, deleteChecks, hconf, hkey.keyLen]) (by simp [deleteChecks]) <|
    answersAlike_onInstance hk hm <| answersAlike_onKey hkey fun x => ?_
  obtain ⟨hall, hes⟩ := hbytes.decrementAll s.ctrl.decFloor0 (slotsOf c s x)
  rw [slotsOf_congr x hm hk, hbytes.lookupValue, hpol]
  split_ifs
  · exact answersAlike_completeQuiet rfl
  · exact answersAlike_complete rfl rfl hes fun _ => hall

theorem lookupCommandAt_alike : AnswersAlike s s' (lookupCommandAt c s) (lookupCommandAt c s') :=
  answersAlike_afterChecks (by rw [lookupChecks, lookupChecks, hconf, hkey.keyLen]) (by simp [lookupChecks]) <|
    answersAlike_onInstance hk hm <| answersAlike_onKey hkey fun x =>
      answersAlike_completeQuiet (by rw [slotsOf_congr x hm hk, hbytes.lookupValue])

end

/-- Settles O26: each command's checks, its range check and its update use only what R92 lists for it. -/
theorem commandsReadOnlyTheirOperands : Obligations.CommandsReadOnlyTheirOperands := by
  intro i s s' hconf _ _ _ _ h
  rw [exec_eq_execAt, exec_eq_execAt]
  change AnswersAlike s s' (execAt Config.impl i s) (execAt Config.impl i s')
  cases i with
  | nop => exact answersAlike_completeQuiet rfl
  | configure =>
    obtain ⟨hn, hlo, hhi⟩ := h
    exact configureAt_alike hn hlo hhi
  | readSlot =>
    obtain ⟨harg, hm, hbytes⟩ := h
    exact readSlotAt_alike (hconf nofun nofun) hm harg hbytes
  | incSlot =>
    obtain ⟨hdiag, harg, hm, hbytes⟩ := h
    exact incSlotAt_alike (hconf nofun nofun) hm harg hbytes hdiag
  | decSlot =>
    obtain ⟨hctrl, harg, hm, hbytes⟩ := h
    exact decSlotAt_alike (hconf nofun nofun) hm harg hbytes hctrl
  | readByte =>
    obtain ⟨harg, hm, hbytes⟩ := h
    exact readByteAt_alike (hconf nofun nofun) hm harg hbytes
  | hashSlot =>
    obtain ⟨harg, hk, hm, hkey⟩ := h
    exact hashSlotAt_alike (hconf nofun nofun) hm hk hkey harg
  | map =>
    obtain ⟨hm, hdigest⟩ := h
    exact mapAt_alike (hconf nofun nofun) hm hdigest
  | insert =>
    obtain ⟨⟨hk, hm, hkey⟩, hbytes⟩ := h
    exact insertAt_alike (hconf nofun nofun) hm hk hkey hbytes
  | delete =>
    obtain ⟨hpol, ⟨hk, hm, hkey⟩, hbytes⟩ := h
    exact deleteAt_alike (hconf nofun nofun) hm hk hkey hbytes hpol
  | lookup =>
    obtain ⟨⟨hk, hm, hkey⟩, hbytes⟩ := h
    exact lookupCommandAt_alike (hconf nofun nofun) hm hk hkey hbytes

end Sys2Proof.Proofs
end

section
/-! PROOFS. The order of the counter updates of a command (spec rules R130, R185). -/

namespace Sys2Proof.Proofs

open Sys2Proof.Machine

/-! ### Counter writes commute -/

/-- In canonical form, counter RAMs with the same counters are the same data. -/
theorem cram_ext {s t : State} (hs : memWf s.cram = true) (ht : memWf t.cram = true)
    (h : ∀ i, counter s i = counter t i) : s.cram = t.cram :=
  mem_ext hs ht fun j => by rw [memRead_eq_counters, memRead_eq_counters, h, h]

theorem setCounter_comm {s : State} {i j : Nat} (v w : Nibble) (hij : i ≠ j) (hwf : memWf s.cram = true) :
    setCounter (setCounter s i v) j w = setCounter (setCounter s j w) i v := by
  have hcram : (setCounter (setCounter s i v) j w).cram = (setCounter (setCounter s j w) i v).cram := by
    refine cram_ext (memWf_setCounter _ _ (memWf_setCounter _ _ hwf))
      (memWf_setCounter _ _ (memWf_setCounter _ _ hwf)) fun a => ?_
    simp only [counter_setCounter]
    split_ifs with hj hi
    · exact absurd (hi.symm.trans hj) hij
    · rfl
    · rfl
    · rfl
  exact congrArg (fun mem => { s with cram := mem }) hcram

/-! ### The update of a counter by a function of its value -/

/-- What `inc` and `dec` have in common: the new value of the counter of slot `i`, and the number of events, are a
function of its old value. -/
def updateCounter (f : Nibble → Nibble × Nat) (s : State) (i : Nat) : State × Nat :=
  (setCounter s i (f (counter s i)).1, (f (counter s i)).2)

/-- The loop of such updates, with the sum of the events. -/
def updateAll (f : Nibble → Nibble × Nat) (s : State) : List Nat → State × Nat
  | [] => (s, 0)
  | i :: S => ((updateAll f (updateCounter f s i).1 S).1,
      (updateCounter f s i).2 + (updateAll f (updateCounter f s i).1 S).2)

/-- `inc` on the value of a counter. -/
def incNibble (v : Nibble) : Nibble × Nat :=
  (BitVec.ofNat 4 (incValue v.toNat), if v.toNat = 15 then 1 else 0)

/-- `dec` on the value of a counter. -/
def decNibble (pol : Bool) (v : Nibble) : Nibble × Nat :=
  (BitVec.ofNat 4 (decValue pol v.toNat), if v.toNat ≤ (if pol then 0 else 1) then 1 else 0)

theorem increment_eq_updateCounter (s : State) (i : Nat) : increment s i = updateCounter incNibble s i :=
  increment_eq s i

theorem decrement_eq_updateCounter (s : State) (pol : Bool) (i : Nat) :
    decrement s pol i = updateCounter (decNibble pol) s i :=
  decrement_eq s pol i

theorem incrementAll_eq_updateAll (s : State) (S : List Nat) : incrementAll s S = updateAll incNibble s S := by
  induction S generalizing s with
  | nil => rfl
  | cons i S ih => rw [incrementAll_cons, ih, increment_eq_updateCounter, updateAll]

theorem decrementAll_eq_updateAll (s : State) (pol : Bool) (S : List Nat) :
    decrementAll s pol S = updateAll (decNibble pol) s S := by
  induction S generalizing s with
  | nil => rfl
  | cons i S ih => rw [decrementAll_cons, ih, decrement_eq_updateCounter, updateAll]

section
variable (f : Nibble → Nibble × Nat) {s : State}

theorem memWf_updateCounter (i : Nat) (hwf : memWf s.cram = true) : memWf (updateCounter f s i).1.cram = true :=
  memWf_setCounter i _ hwf

/-- Updates of two slots commute: neither reads the counter the other writes. -/
theorem updateCounter_comm (i j : Nat) (hwf : memWf s.cram = true) :
    (updateCounter f (updateCounter f s i).1 j).1 = (updateCounter f (updateCounter f s j).1 i).1 ∧
    (updateCounter f s i).2 + (updateCounter f (updateCounter f s i).1 j).2 =
      (updateCounter f s j).2 + (updateCounter f (updateCounter f s j).1 i).2 := by
  by_cases hij : i = j
  · subst hij
    exact ⟨rfl, rfl⟩
  · simp only [updateCounter, counter_setCounter_other s _ hij, counter_setCounter_other s _ (Ne.symm hij)]
    exact ⟨setCounter_comm _ _ hij hwf, Nat.add_comm _ _⟩

/-- R130 for every such update: the loops over two orders of a slot list give the same state and events. -/
theorem updateAll_perm {S S' : List Nat} (hp : S.Perm S') (hwf : memWf s.cram = true) :
    updateAll f s S = updateAll f s S' := by
  induction hp generalizing s with
  | nil => rfl
  | cons i _ ih => rw [updateAll, updateAll, ih (memWf_updateCounter f i hwf)]
  | swap i j S =>
    obtain ⟨hstate, hevents⟩ := updateCounter_comm f j i hwf
    simp only [updateAll, ← Nat.add_assoc, hstate, hevents]
  | trans _ _ ih₁ ih₂ => exact (ih₁ hwf).trans (ih₂ hwf)

end

/-- Settles O35: both loops update counters by a function of their value, and such updates commute. -/
theorem updateOrderDoesNotMatter : Obligations.UpdateOrderDoesNotMatter := by
  intro s pol S S' hwf hp
  simp only [incrementAll_eq_updateAll, decrementAll_eq_updateAll]
  exact ⟨updateAll_perm _ hp hwf, updateAll_perm _ hp hwf⟩

end Sys2Proof.Proofs
end

section
/-! PROOFS. What no command writes, and NOP (spec rules R132, R133). -/

namespace Sys2Proof.Proofs

open Sys2Proof.Machine

/-- Settles O25: every next state of a command is a failure, or a completion after counter updates or after what
CONFIGURE writes, and these keep what the host writes. -/
theorem commandsKeepHostRegisters : Obligations.CommandsKeepHostRegisters := by
  intro i s t h
  rw [exec_eq_execAt] at h
  obtain ⟨hctrl, harg, hn, hlo, hhi, hlen, hdigest, hkey, _⟩ := execAt_sameHostFields h
  exact ⟨harg, hn, hlo, hhi, hlen, hctrl, hkey, hdigest⟩

/-- Settles O12: NOP is a completion with RESULT 0 and no event, on every state. -/
theorem nopFollowsItsRule : Obligations.NopFollowsItsRule :=
  ⟨decode_encode .nop, fun s => congrArg Host.Outcome.next (complete_quiet s 0)⟩

end Sys2Proof.Proofs
end

section
/-! PROOFS. The transactions of the host port: bus errors, legal reads, legal writes and the `CMD` write (spec rules R21 to
R41, R123 to R128). -/

namespace Sys2Proof.Proofs

open Sys2Proof.Machine

/-! ### The `CMD` write -/

theorem isLegal_of_cmdOffset {x : Transaction} (hz : x.size = .word) (ha : x.addr = cmdOffset) : isLegal x = true :=
  (isLegal_iff x).2 ⟨hz, by rw [ha]; decide⟩

section
variable {s : State} {rest : List PortEvent} {x : Transaction} (hs : s.script = .request x :: rest)
include hs

/-- R128 for an offset that is CMD's and a word that decodes. -/
theorem step_command_ok {i : Instr} (hl : isLegal x = true) (hd : x.dir = .write) (ha : x.addr = cmdOffset)
    (hi : decode x.wdata = .ok i) : step s = afterCommand (exec i { s with script := rest }) := by
  rw [step_command hs hl hd ha, runCommand, hi]

/-- R281 for an offset that is CMD's and an illegal word. -/
theorem step_command_illegal {e : DecodeError} (hl : isLegal x = true) (hd : x.dir = .write)
    (ha : x.addr = cmdOffset) (he : decode x.wdata = .error e) :
    step s = .next (respond (cmdError { s with script := rest } .illegalCommand) writeDone) := by
  rw [step_command hs hl hd ha, runCommand, he, afterCommand]

end

/-- Running a command word gives no response (R122): its answer comes after it. -/
theorem runCommand_responses {w : Word} {s t : State} (h : runCommand exec w s = .next t) :
    t.responses = s.responses := by
  unfold runCommand at h
  split at h
  · cases h
    rfl
  · rw [exec_eq_execAt] at h
    obtain ⟨_, _, _, _, _, _, _, _, _, hresponses⟩ := execAt_sameHostFields h
    exact hresponses

theorem afterCommand_next {o : Result} {t : State} (h : afterCommand o = .next t) :
    ∃ u, o = .next u ∧ t = respond u writeDone := by
  cases o with
  | next u => exact ⟨u, rfl, by simpa [afterCommand] using h.symm⟩
  | fault f => cases h
  | refused r => cases h

/-- Settles O4: the write is legal, so the step is the command's and its answer. -/
theorem stepRunsDecodedCommand : Obligations.StepRunsDecodedCommand := by
  intro s rest w i hs hi
  rw [step_command_ok hs (isLegal_of_cmdOffset rfl rfl) rfl rfl hi]
  cases exec i { s with script := rest } <;> rfl

/-! ### Bus errors -/

/-- A legal transaction that is answered is answered without an error, by one response. -/
theorem step_legal_responses {s t : State} {rest : List PortEvent} {x : Transaction}
    (hs : s.script = .request x :: rest) (hl : isLegal x = true) (h : step s = .next t) :
    ∃ v, t.responses = s.responses ++ [readDone v] := by
  cases hd : x.dir with
  | read =>
    rw [step_read hs hl hd] at h
    split at h
    · cases h
      exact ⟨_, rfl⟩
    · cases h
  | write =>
    by_cases ha : x.addr = cmdOffset
    · rw [step_command hs hl hd ha] at h
      obtain ⟨u, hu, rfl⟩ := afterCommand_next h
      have hresponses := runCommand_responses hu
      exact ⟨0, congrArg (· ++ [writeDone]) hresponses⟩
    · rw [step_write hs hl hd ha] at h
      cases h
      obtain ⟨_, _, _, _, _, _, _, _, _, _, _, hresponses⟩ :=
        writeReg_fields Config.impl { s with script := rest } (regAt x.addr) x.wdata
      exact ⟨0, congrArg (· ++ [writeDone]) hresponses⟩

/-- Settles O7: what is not legal is a bus error, and what is legal is answered without one. -/
theorem busErrorChangesNothing : Obligations.BusErrorChangesNothing := by
  intro s rest x hs
  constructor
  · intro hbad
    refine step_busError hs (Bool.eq_false_iff.2 fun hl => ?_)
    obtain ⟨hsize, halign⟩ := (isLegal_iff x).1 hl
    exact hbad.elim (absurd hsize) (absurd halign)
  · intro hsize halign t ht
    exact step_legal_responses hs ((isLegal_iff x).2 ⟨hsize, halign⟩) ht

/-! ### What the registers read as -/

theorem ofNat_append_ofNat (a : Nat) {b : Nat} (hb : b < 2 ^ 16) :
    BitVec.ofNat 16 a ++ BitVec.ofNat 16 b = BitVec.ofNat 32 (a * 2 ^ 16 + b) := by
  refine BitVec.eq_of_toNat_eq ?_
  rw [BitVec.toNat_append, BitVec.toNat_ofNat, BitVec.toNat_ofNat, BitVec.toNat_ofNat, Nat.mod_eq_of_lt hb,
    ← Nat.shiftLeft_add_eq_or_of_lt hb, Nat.shiftLeft_eq]
  omega

/-- `CAP_K` (R24): KEY_MAX above K_MAX. -/
theorem readReg_capK (c : Config) (s : State) :
    readReg c s .capK = .ok (BitVec.ofNat 32 (c.keyMax * 2 ^ 16 + c.kMax)) := by
  have hk : c.kMax < 2 ^ 16 := by
    have := c.kMaxPred.isLt
    unfold Config.kMax
    omega
  exact congrArg Except.ok (ofNat_append_ofNat c.keyMax hk)

/-- `CAP_D` (R25): DW, which is at most 1024. -/
theorem readReg_capD (c : Config) (s : State) : readReg c s .capD = .ok (BitVec.ofNat 32 c.dw) := by
  have hd : c.dw < 2 ^ 16 := by
    have := c.digestWordsExtra.isLt
    unfold Config.dw Config.digestWords
    omega
  have hword := ofNat_append_ofNat 0 hd
  rw [Nat.zero_mul, Nat.zero_add] at hword
  exact congrArg Except.ok hword

/-- `CTRL` as a number (R26). -/
theorem ctrlWord_eq_ofNat (ct : Ctrl) : ctrlWord ct = BitVec.ofNat 32 (ct.diagEn.toNat + 2 * ct.decFloor0.toNat) := by
  have table : ∀ diagEn decFloor0 : Bool,
      ctrlWord ⟨diagEn, decFloor0⟩ = BitVec.ofNat 32 (diagEn.toNat + 2 * decFloor0.toNat) := by decide
  exact table ct.diagEn ct.decFloor0

/-- `STATUS` as a number (R27). -/
theorem statusWord_eq_ofNat (st : Status) :
    statusWord st = BitVec.ofNat 32
      (st.configured.toNat + 16 * (errBits st.err).toNat + 256 * st.sat.toNat + 512 * st.floor.toNat) := by
  have table : ∀ (floor sat configured : Bool) (err : BitVec 4),
      0#22 ++ BitVec.ofBool floor ++ BitVec.ofBool sat ++ err ++ 0#3 ++ BitVec.ofBool configured =
        BitVec.ofNat 32 (configured.toNat + 16 * err.toNat + 256 * sat.toNat + 512 * floor.toNat) := by decide
  exact table st.floor st.sat st.configured (errBits st.err)

/-- No register reads the host's script. -/
theorem readReg_withScript (c : Config) (s : State) (script : List PortEvent) (r : Reg) :
    readReg c { s with script := script } r = readReg c s r := by
  cases r <;> rfl

theorem readReg_digest_written {c : Config} {s : State} {w : Nat} {v : Word} (hw : w < c.digestWords)
    (hv : lookupAt s.digest w = some v) : readReg c s (.digest w) = .ok v := by
  simp [readReg, hw, isWritten, wordAt, hv]

theorem readReg_digest_unwritten {c : Config} {s : State} {w : Nat} (hw : w < c.digestWords)
    (hv : lookupAt s.digest w = none) : readReg c s (.digest w) = .error (.readUnwrittenDigest w) := by
  simp [readReg, hw, isWritten, hv]

theorem readReg_digest_beyond {c : Config} (s : State) {w : Nat} (hw : ¬ w < c.digestWords) :
    readReg c s (.digest w) = .ok 0 := by
  simp [readReg, hw]

theorem readReg_key_written {c : Config} {s : State} {w : Nat} {v : Word} (hw : w < c.keyWords)
    (hv : lookupAt s.key w = some v) : readReg c s (.key w) = .ok v := by
  simp [readReg, hw, isWritten, wordAt, hv]

theorem readReg_key_unwritten {c : Config} {s : State} {w : Nat} (hw : w < c.keyWords)
    (hv : lookupAt s.key w = none) : readReg c s (.key w) = .error (.readUnwrittenKey w) := by
  simp [readReg, hw, isWritten, hv]

theorem readReg_key_beyond {c : Config} (s : State) {w : Nat} (hw : ¬ w < c.keyWords) :
    readReg c s (.key w) = .ok 0 := by
  simp [readReg, hw]

/-! ### Legal reads -/

section
variable {s : State} {rest : List PortEvent} {x : Transaction} (hs : s.script = .request x :: rest)
include hs

theorem step_read_ok {v : Word} (hl : isLegal x = true) (hd : x.dir = .read)
    (hr : readReg Config.impl s (regAt x.addr) = .ok v) :
    step s = .next (respond { s with script := rest } (readDone v)) := by
  rw [step_read hs hl hd, readReg_withScript, hr]

theorem step_read_error {f : Fault} (hl : isLegal x = true) (hd : x.dir = .read)
    (hr : readReg Config.impl s (regAt x.addr) = .error f) : step s = .fault f := by
  rw [step_read hs hl hd, readReg_withScript, hr]

end

/-- Settles O8: each offset reads the register that stands there, and a legal read is that and its response. -/
theorem legalReadReturnsTheRegister : Obligations.LegalReadReturnsTheRegister := by
  intro s rest x hs hd hz reads
  have legal : x.addr.toNat % 4 = 0 → isLegal x = true := fun halign => (isLegal_iff x).2 ⟨hz, halign⟩
  have read : ∀ {v : Word}, x.addr.toNat % 4 = 0 → readReg Config.impl s (regAt x.addr) = .ok v → reads v :=
    fun halign hr => step_read_ok hs (legal halign) hd hr
  have faults : ∀ {f : Fault}, x.addr.toNat % 4 = 0 → readReg Config.impl s (regAt x.addr) = .error f →
      step s = .fault f := fun halign hr => step_read_error hs (legal halign) hd hr
  have read_at : ∀ {a : Offset} {v : Word}, a.toNat % 4 = 0 → readReg Config.impl s (regAt a) = .ok v →
      x.addr = a → reads v := fun halign hr ha => read (ha ▸ halign) (ha ▸ hr)
  refine ⟨read_at rfl rfl, read_at rfl rfl, read_at rfl (readReg_capK _ s), read_at rfl (readReg_capD _ s),
    read_at rfl (congrArg Except.ok (ctrlWord_eq_ofNat s.ctrl)),
    read_at rfl (congrArg Except.ok (statusWord_eq_ofNat s.status)), read_at rfl rfl, read_at rfl rfl,
    read_at rfl rfl, read_at rfl rfl, read_at rfl rfl, read_at rfl rfl, read_at rfl rfl, read_at rfl rfl,
    read_at rfl rfl, read_at rfl rfl, read_at rfl rfl, read_at rfl rfl, read_at rfl rfl, read_at rfl rfl,
    fun halign hlo hhi => ?_, fun halign hlo hhi => ?_, fun w hw ha => ?_, fun w _ ha => ?_⟩
  · exact read halign (by rw [regAt_reserved (.inl ⟨hlo, hhi⟩)]; rfl)
  · exact read halign (by rw [regAt_reserved (.inr ⟨hlo, hhi⟩)]; rfl)
  · have halign : x.addr.toNat % 4 = 0 := by omega
    rw [regAt_digest hw ha] at read faults
    split_ifs with hin
    · exact ⟨fun v hv => read halign (readReg_digest_written hin hv),
        fun hv => faults halign (readReg_digest_unwritten hin hv)⟩
    · exact read halign (readReg_digest_beyond s hin)
  · have halign : x.addr.toNat % 4 = 0 := by omega
    rw [regAt_key ha] at read faults
    split_ifs with hin
    · exact ⟨fun v hv => read halign (readReg_key_written hin hv),
        fun hv => faults halign (readReg_key_unwritten hin hv)⟩
    · exact read halign (readReg_key_beyond s hin)

/-! ### Legal writes -/

/-- The registers a host write other than that of `CMD` leaves as they are, whatever the capacity (R125). -/
def isReadOnly : Reg → Bool
  | .id | .capM | .capK | .capD | .status | .result | .m | .k | .cfgN | .cfgPLo | .cfgPHi | .satCnt | .floorCnt
  | .reserved => true
  | _ => false

theorem writeReg_readOnly (c : Config) (s : State) {r : Reg} (v : Word) (h : isReadOnly r = true) :
    writeReg c s r v = s := by
  cases r with
  | ctrl | cmd | arg0 | n | pLo | pHi | keyLen | digest | key => cases h
  | _ => rfl

/-- The offsets of R21 that are RO or RAZ/WI whatever the capacity. -/
theorem isReadOnly_regAt {a : Offset}
    (h : a.toNat < 0x010 ∨ a = 0x014#11 ∨ a = 0x020#11 ∨ (0x030 ≤ a.toNat ∧ a.toNat < 0x044) ∨
      (0x048 ≤ a.toNat ∧ a.toNat < 0x080) ∨ (0x100 ≤ a.toNat ∧ a.toNat < 0x400)) :
    isReadOnly (regAt a) = true := by
  revert a
  decide +kernel

/-- No write of a register reads or changes the host's script. -/
theorem writeReg_withScript (c : Config) (s : State) (script : List PortEvent) (r : Reg) (v : Word) :
    writeReg c { s with script := script } r v = { writeReg c s r v with script := script } := by
  cases r <;> simp only [writeReg] <;> split_ifs <;> rfl

theorem writeReg_digest {c : Config} (s : State) {w : Nat} (v : Word) (hw : w < c.digestWords) :
    writeReg c s (.digest w) v = { s with digest := putAt s.digest w v } := by
  simp [writeReg, hw]

theorem writeReg_digest_beyond {c : Config} (s : State) {w : Nat} (v : Word) (hw : ¬ w < c.digestWords) :
    writeReg c s (.digest w) v = s := by
  simp [writeReg, hw]

theorem writeReg_key {c : Config} (s : State) {w : Nat} (v : Word) (hw : w < c.keyWords) :
    writeReg c s (.key w) v = { s with key := putAt s.key w v } := by
  simp [writeReg, hw]

theorem writeReg_key_beyond {c : Config} (s : State) {w : Nat} (v : Word) (hw : ¬ w < c.keyWords) :
    writeReg c s (.key w) v = s := by
  simp [writeReg, hw]

/-- R125 for an offset that is not CMD's: the state the register's write leaves, and the response. -/
theorem step_writeReg {s : State} {rest : List PortEvent} {x : Transaction} (hs : s.script = .request x :: rest)
    (hl : isLegal x = true) (hd : x.dir = .write) {t : State} (hcmd : x.addr ≠ cmdOffset)
    (hw : writeReg Config.impl s (regAt x.addr) x.wdata = t) :
    step s = .next { t with script := rest, responses := s.responses ++ [writeDone] } := by
  obtain ⟨_, _, _, _, _, _, _, _, _, _, _, hresponses⟩ := writeReg_fields Config.impl s (regAt x.addr) x.wdata
  rw [step_write hs hl hd hcmd, writeReg_withScript, ← hw, ← hresponses]
  rfl

/-- Settles O9: a legal write is a write of the register that stands at its offset and the response, but for `CMD`, whose
write runs the word. -/
theorem legalWriteHasItsEffect : Obligations.LegalWriteHasItsEffect := by
  intro s rest x hs hd hz halign answered
  have hl : isLegal x = true := (isLegal_iff x).2 ⟨hz, halign⟩
  have write : ∀ {t : State}, x.addr ≠ cmdOffset → writeReg Config.impl s (regAt x.addr) x.wdata = t →
      answered t := step_writeReg hs hl hd
  have write_at : ∀ {a : Offset} {t : State}, a ≠ cmdOffset → writeReg Config.impl s (regAt a) x.wdata = t →
      x.addr = a → answered t := fun hcmd hw ha => write (ha ▸ hcmd) (ha ▸ hw)
  have not_cmd : x.addr.toNat ≠ 0x018 → x.addr ≠ cmdOffset := fun h e => h (by rw [e]; rfl)
  refine ⟨write_at (by decide) rfl, write_at (by decide) rfl, write_at (by decide) rfl, write_at (by decide) rfl,
    write_at (by decide) rfl, write_at (by decide) rfl, fun w hw ha => ?_, fun w _ ha => ?_, fun ha => ?_,
    fun ha => ?_⟩
  · rw [regAt_digest hw ha] at write
    have hcmd := not_cmd (by omega)
    split_ifs with hin
    · exact ⟨putAt s.digest w x.wdata, write hcmd (writeReg_digest s _ hin), lookupAt_putAt_same _ _ _,
        fun v hv => lookupAt_putAt_other _ _ hv⟩
    · exact write hcmd (writeReg_digest_beyond s _ hin)
  · rw [regAt_key ha] at write
    have hcmd := not_cmd (by omega)
    split_ifs with hin
    · exact ⟨putAt s.key w x.wdata, write hcmd (writeReg_key s _ hin), lookupAt_putAt_same _ _ _,
        fun v hv => lookupAt_putAt_other _ _ hv⟩
    · exact write hcmd (writeReg_key_beyond s _ hin)
  · cases hw : decode x.wdata with
    | error e => exact step_command_illegal hs hl hd ha hw
    | ok i =>
      dsimp only
      rw [step_command_ok hs hl hd ha hw]
      cases exec i { s with script := rest } <;> rfl
  · have hro := isReadOnly_regAt ha
    have hcmd : x.addr ≠ cmdOffset := fun e => absurd (e ▸ hro : isReadOnly (regAt cmdOffset) = true) (by decide)
    exact write hcmd (writeReg_readOnly _ s _ hro)

end Sys2Proof.Proofs
end

section
/-! PROOFS. The parameter_derivation block (spec rules R151 to R155): which patterns lie strictly between 0 and 1, and the
derivation of (m, k) as the formulas over the real numbers. -/

namespace Sys2Proof.Proofs

open Sys2Proof.Machine

/-! ### The pattern of p -/

/-- A pattern is its sign, exponent and fraction fields, in this order (R151). -/
theorem pattern_eq_fields (pb : Pattern) :
    pb.toNat = (signBit pb).toNat * 2 ^ 63 + expField pb * 2 ^ 52 + fracField pb ∧ fracField pb < 2 ^ 52 := by
  have hsign : (signBit pb).toNat = pb.toNat / 2 ^ 63 := by
    rw [signBit, BitVec.getLsbD, Nat.toNat_testBit]
    omega
  have hexp : expField pb = pb.toNat / 2 ^ 52 % 2 ^ 11 := by
    simp [expField, BitVec.extractLsb'_toNat, Nat.shiftRight_eq_div_pow]
  have hfrac : fracField pb = pb.toNat % 2 ^ 52 := by
    simp [fracField, BitVec.extractLsb'_toNat]
  omega

/-- The valid inputs as R152 writes them. -/
theorem validInputs_iff (n : Word) (pb : Pattern) :
    validInputs n pb = true ↔ 1 ≤ n.toNat ∧ 1 ≤ pb.toNat ∧ pb.toNat ≤ 0x3FEFFFFFFFFFFFFF := by
  simp [validInputs, and_assoc]

/-- From the exponent field of 1 on, the magnitude is at least 1. -/
theorem one_le_magnitude {pb : Pattern} (h : 0x3FF ≤ expField pb) :
    (1 : ℚ) ≤ significand pb * (2 : ℚ) ^ binaryExponent pb := by
  have hne : expField pb ≠ 0 := by omega
  have hs : 2 ^ 52 ≤ significand pb := by
    rw [significand, if_neg hne]
    exact Nat.le_add_right _ _
  have hb : -52 ≤ binaryExponent pb := by
    rw [binaryExponent, if_neg hne]
    omega
  calc (1 : ℚ) = 2 ^ 52 * (2 : ℚ) ^ (-52 : ℤ) := by norm_num
    _ ≤ significand pb * (2 : ℚ) ^ binaryExponent pb :=
      mul_le_mul (by exact_mod_cast hs) (zpow_le_zpow_right₀ one_le_two hb) (by positivity) (by positivity)

/-- A value strictly between 0 and 1 has a pattern in the range of R152: its sign bit is 0, one of its other fields is
not, and its exponent field is below that of 1. -/
theorem pattern_range_of_value {pb : Pattern} {p : ℚ} (hp : binary64Value pb = some p) (h0 : 0 < p) (h1 : p < 1) :
    1 ≤ pb.toNat ∧ pb.toNat ≤ 0x3FEFFFFFFFFFFFFF := by
  have hmagnitude : 0 ≤ (significand pb : ℚ) * (2 : ℚ) ^ binaryExponent pb := by positivity
  unfold binary64Value at hp
  split_ifs at hp with _ hsign <;> rw [Option.some.injEq] at hp
  · linarith
  · rw [one_mul] at hp
    have hexp : expField pb < 0x3FF := by
      by_contra hc
      linarith [one_le_magnitude (Nat.le_of_not_lt hc)]
    have hsig : significand pb ≠ 0 := fun hz => by
      rw [hz, Nat.cast_zero, zero_mul] at hp
      exact h0.ne hp
    have hfields : 0 < expField pb ∨ 0 < fracField pb := by
      unfold significand at hsig
      split_ifs at hsig <;> omega
    obtain ⟨hpb, hfrac⟩ := pattern_eq_fields pb
    rw [Bool.eq_false_of_not_eq_true hsign, Bool.toNat_false] at hpb
    omega

/-- A valid p as the real number the laws of the derivation speak of. -/
theorem value_eq_real {n : Word} {pb : Pattern} {p : ℚ} (h : validInputs n pb = true)
    (hp : binary64Value pb = some p) : (p : ℝ) = (significand pb : ℝ) * (2 : ℝ) ^ binaryExponent pb := by
  rw [binary64Value_valid h, Option.some.injEq] at hp
  rw [← hp]
  push_cast
  rfl

/-- A valid p lies strictly between 0 and 1. -/
theorem value_mem_Ioo {n : Word} {pb : Pattern} {p : ℚ} (h : validInputs n pb = true) (hp : binary64Value pb = some p) :
    0 < p ∧ p < 1 := by
  have hreal := valid_value_lt_one h
  rw [← value_eq_real h hp] at hreal
  exact_mod_cast hreal

/-- Settles O39: the fields of a pattern decide its order and its value alike. -/
theorem validInputsAreTheOpenUnitInterval : Obligations.ValidInputsAreTheOpenUnitInterval := by
  refine fun n pb => ⟨validInputs_iff n pb, fun hrange => ?_, fun ⟨p, hp, h0, h1⟩ => pattern_range_of_value hp h0 h1⟩
  have hv : validInputs 1#32 pb = true := (validInputs_iff _ _).2 ⟨le_rfl, hrange⟩
  exact ⟨_, binary64Value_valid hv, value_mem_Ioo hv (binary64Value_valid hv)⟩

/-! ### The derivation over the real numbers -/

/-- m_real in the words of R153. -/
theorem slotCountReal_eq {n : Word} {pb : Pattern} {p : ℚ} (h : validInputs n pb = true)
    (hp : binary64Value pb = some p) :
    slotCountReal n.toNat pb = -(n.toNat : ℝ) * Real.log p / Real.log 2 ^ 2 := by
  rw [slotCountReal, ← value_eq_real h hp, neg_mul, mul_neg]

/-- m_real = n c(p), with c(p) = -ln p / (ln 2)^2 (R155). -/
theorem slotCountReal_eq_mul {n : Word} {pb : Pattern} {p : ℚ} (h : validInputs n pb = true)
    (hp : binary64Value pb = some p) :
    slotCountReal n.toNat pb = n.toNat * (-Real.log p / Real.log 2 ^ 2) := by
  rw [slotCountReal, ← value_eq_real h hp, mul_div_assoc]

/-- k is max(1, ceil(k_real)), for every valid input (R153). -/
theorem derive_snd_exact {n : Word} {pb : Pattern} (h : validInputs n pb = true) :
    (derive n pb).2 = max 1 ⌈((derive n pb).1 : ℝ) / n.toNat * Real.log 2⌉₊ :=
  hashCount_exact (valid_pattern h).1 (slotCount_le h).1 ((slotCount_lt h).trans (by norm_num))

/-- Settles O40: the enclosures decide m and k exactly, and m lies between the slot counts of the first one. -/
theorem derivationIsExactRealArithmetic : Obligations.DerivationIsExactRealArithmetic := by
  intro n pb p h hp
  have hm : (derive n pb).1 = max 1 ⌈slotCountReal n.toNat pb⌉₊ := slotCount_exact h
  obtain ⟨hlo, hhi⟩ := slotCount_enclosed two_le_enclosureBits h
  rw [← hm] at hlo hhi
  exact ⟨slotCountReal_eq h hp ▸ hm, derive_snd_exact h, hlo, hhi, slotCountHi_le h⟩

/-! ### The clamps -/

/-- k_real is no integer (R154): an integer j would make the fraction j n / m equal to ln 2, and no fraction of so small a
denominator lies in the enclosure of ln 2. -/
theorem hashCountReal_ne_int {m n : Nat} (hm0 : 1 ≤ m) (hm : m < 2 ^ 46) (hn : 1 ≤ n) (j : ℤ) :
    (m : ℝ) / n * Real.log 2 ≠ j := by
  intro heq
  have hn' : (0 : ℝ) < n := by exact_mod_cast hn
  have hm' : (0 : ℝ) < m := by exact_mod_cast hm0
  have hpos : (0 : ℝ) < j := heq ▸ mul_pos (div_pos hm' hn') (Real.log_pos one_lt_two)
  lift j to ℕ using by exact_mod_cast hpos.le
  have hfrac : ((j * n : ℕ) : ℝ) * 2 ^ enclosureBits = m * (2 ^ enclosureBits * Real.log 2) := by
    push_cast
    rw [Int.cast_natCast] at heq
    rw [← heq]
    field_simp
  obtain ⟨hlo, hhi⟩ := ln2_bounds enclosureBits
  refine no_fraction_near_ln2 (x := j * n) hm ?_ ?_ hm0
  · have := mul_le_mul_of_nonneg_left hlo hm'.le
    rw [← hfrac] at this
    exact_mod_cast this
  · have := mul_le_mul_of_nonneg_left hhi hm'.le
    rw [← hfrac] at this
    exact_mod_cast this

/-- Settles O42: m_real and k_real are positive, so their ceilings are at least 1. -/
theorem clampsNeverAct : Obligations.ClampsNeverAct := by
  intro n pb p h hp m k mReal kReal
  obtain ⟨hm, hk, _⟩ := derivationIsExactRealArithmetic n pb p h hp
  obtain ⟨hn, _⟩ := valid_pattern h
  have hm1 : 1 ≤ m := (slotCount_le h).1
  have hmReal : 0 < mReal := (slotCountReal_pos h).trans_eq (slotCountReal_eq h hp)
  have hkReal : 0 < kReal :=
    mul_pos (div_pos (by exact_mod_cast hm1) (by exact_mod_cast hn)) (Real.log_pos one_lt_two)
  exact ⟨hmReal, hm.trans (max_eq_right (Nat.one_le_ceil_iff.2 hmReal)), hm1, hkReal,
    hashCountReal_ne_int hm1 ((slotCount_lt h).trans (by norm_num)) hn,
    hk.trans (max_eq_right (Nat.one_le_ceil_iff.2 hkReal)), (hashCount_le h).1⟩

/-! ### The bounds -/

/-- The least valid p is 2^-1074 (R155): the significand is at least 1 and the exponent at least -1074. -/
theorem value_ge {n : Word} {pb : Pattern} {p : ℚ} (h : validInputs n pb = true) (hp : binary64Value pb = some p) :
    (2 : ℝ) ^ (-1074 : ℤ) ≤ p := by
  obtain ⟨_, _, _, hs, _⟩ := valid_pattern h
  have hb : -1074 ≤ binaryExponent pb := by
    unfold binaryExponent
    split_ifs <;> omega
  rw [value_eq_real h hp]
  calc (2 : ℝ) ^ (-1074 : ℤ) ≤ 2 ^ binaryExponent pb := zpow_le_zpow_right₀ one_le_two hb
    _ ≤ significand pb * (2 : ℝ) ^ binaryExponent pb :=
      le_mul_of_one_le_left (by positivity) (by exact_mod_cast hs)

/-- -ln p is at most 1074 ln 2 (R155). -/
theorem neg_log_value_le {n : Word} {pb : Pattern} {p : ℚ} (h : validInputs n pb = true)
    (hp : binary64Value pb = some p) : -Real.log (p : ℝ) ≤ 1074 * Real.log 2 := by
  have hlog := Real.log_le_log (by positivity) (value_ge h hp)
  rw [Real.log_zpow] at hlog
  push_cast at hlog
  linarith

/-- 1074 / ln 2 is below 1549.46 (R155). -/
theorem slotsPerElement_lt : 1074 / Real.log 2 < 1549.46 := by
  rw [div_lt_iff₀ (Real.log_pos one_lt_two)]
  linarith [Real.log_two_gt_d9]

/-- c(p) is at most 1074 / ln 2 (R155). -/
theorem slotsPerElement_le {n : Word} {pb : Pattern} {p : ℚ} (h : validInputs n pb = true)
    (hp : binary64Value pb = some p) : -Real.log (p : ℝ) / Real.log 2 ^ 2 ≤ 1074 / Real.log 2 := by
  have hL : 0 < Real.log 2 := Real.log_pos one_lt_two
  calc -Real.log (p : ℝ) / Real.log 2 ^ 2 ≤ 1074 * Real.log 2 / Real.log 2 ^ 2 := by
        gcongr
        exact neg_log_value_le h hp
    _ = 1074 / Real.log 2 := by field_simp

/-- Settles O43: every bound follows from that of -ln p and from m being the ceiling of n c(p). -/
theorem derivedValuesAreBounded : Obligations.DerivedValuesAreBounded := by
  refine ⟨fun n pb p h hp => ?_, by decide +kernel⟩
  intro m k N c
  have hN : 0 < N := Nat.cast_pos.2 (valid_pattern h).1
  have hL : 0 < Real.log 2 := Real.log_pos one_lt_two
  have hmReal : slotCountReal n.toNat pb = N * c := slotCountReal_eq_mul h hp
  have hc : c ≤ 1074 / Real.log 2 := slotsPerElement_le h hp
  obtain ⟨hle, hlt⟩ := slotCount_linear h
  rw [hmReal] at hle hlt
  have hm : (m : ℝ) ≤ 1549.46 * N + 1 := by
    have hnat : ((100 * m : ℕ) : ℝ) ≤ ((154946 * n.toNat + 100 : ℕ) : ℝ) := Nat.cast_le.2 (slotCount_le h).2
    push_cast at hnat
    linarith
  refine ⟨⟨value_ge h hp, neg_log_value_le h hp⟩, ⟨?_, ?_⟩, ⟨hm, slotCount_lt h⟩,
    ⟨?_, ?_, hashCount_le h⟩, (slotCountReal_eq h hp).symm.trans hmReal, hle, hlt⟩
  · rw [mul_div_assoc]
    exact mul_le_mul_of_nonneg_left hc hN.le
  · rw [mul_div_assoc, mul_comm 1549.46]
    exact mul_lt_mul_of_pos_left slotsPerElement_lt hN
  · gcongr
    exact hlt
  · calc (N * c + 1) / N * Real.log 2 = c * Real.log 2 + Real.log 2 / N := by field_simp
      _ ≤ 1074 + Real.log 2 / N := by
        gcongr
        exact (le_div_iff₀ hL).1 hc

end Sys2Proof.Proofs
end

section
/-! PROOFS. CONFIGURE (spec rules R156 to R158): its two failures in their order, and the instance it makes. -/

namespace Sys2Proof.Proofs

open Sys2Proof.Machine

/-- CONFIGURE checks its inputs first (R156, R282). -/
theorem configureAt_invalid (c : Config) {s : State} (hv : validInputs s.n (stagedPattern s) = false) :
    configureAt c s = .next (failed s .invalidParameter) :=
  afterChecks_fail s _ (by simp [configureChecks, firstError_cons, hv])

/-- CONFIGURE of a valid input over capacity (R156, R157). -/
theorem configureAt_capacity {c : Config} {s : State} (hv : validInputs s.n (stagedPattern s) = true)
    (ho : overCapacity c (derive s.n (stagedPattern s)) = true) :
    configureAt c s = .next (failed s .capacity) :=
  afterChecks_fail s _ (by simp [configureChecks, firstError_cons, hv, ho])

theorem overCapacity_iff (c : Config) (mk : Nat × Nat) :
    overCapacity c mk = true ↔ c.mMax < mk.1 ∨ c.kMax < mk.2 := by
  simp [overCapacity]

theorem overCapacity_eq_false_iff (c : Config) (mk : Nat × Nat) :
    overCapacity c mk = false ↔ mk.1 ≤ c.mMax ∧ mk.2 ≤ c.kMax := by
  simp [overCapacity]

/-- Settles O13: the check ladder in its order, and the new instance, whose M and K hold (m, k) whole. -/
theorem configureFollowsItsRule : Obligations.ConfigureFollowsItsRule := by
  refine ⟨decode_encode .configure, fun s => ⟨fun hinvalid => ?_, fun hrange hover => ?_, fun hrange hm hk => ?_⟩⟩
  · exact configureAt_invalid _ (Bool.eq_false_of_not_eq_true fun hv => hinvalid ((validInputs_iff _ _).1 hv))
  · exact configureAt_capacity ((validInputs_iff _ _).2 hrange) ((overCapacity_iff _ _).2 hover)
  · obtain ⟨hm', hk'⟩ := newInstance_toNat s hm hk
    exact ⟨_, configureAt_runs ((validInputs_iff _ _).2 hrange) ((overCapacity_eq_false_iff _ _).2 ⟨hm, hk⟩), hm', hk',
      memRead_memClear, complete_quiet _ _⟩

/-- A counter RAM of zero bytes holds zero counters. -/
theorem counter_of_memRead_zero {t : State} (h : ∀ j, memRead t.cram j = 0x00#8) (i : Nat) : counter t i = 0#4 := by
  simp [counter, h]

/-- Settles O41: CONFIGURE's own rule, with the derivation replaced by the real-number formulas it computes. -/
theorem configureMakesTheExactInstance : Obligations.ConfigureMakesTheExactInstance := by
  intro s p h hp m k
  obtain ⟨hm, hk, _⟩ := derivationIsExactRealArithmetic s.n _ p h hp
  obtain ⟨_, hcapacity, hcompletes⟩ := configureFollowsItsRule.2 s
  have hrange := (validInputs_iff _ _).1 h
  have hm : (derive s.n (s.pHi ++ s.pLo)).1 = m := hm
  rw [hm] at hk
  have hk : (derive s.n (s.pHi ++ s.pLo)).2 = k := hk
  rw [← hm, ← hk]
  refine ⟨hcapacity hrange, fun hmMax hkMax => ?_⟩
  obtain ⟨t, hexec, htm, htk, hclear, ht⟩ := hcompletes hrange hmMax hkMax
  refine ⟨t, hexec, htm, htk, ?_, ?_, ?_, counter_of_memRead_zero hclear⟩ <;> rw [ht]

end Sys2Proof.Proofs
end

section
/-! PROOFS. The counter of a slot as a nibble of its byte, and the laws of inc and dec (spec rules R67, R181, R182, R190). -/

namespace Sys2Proof.Proofs

open Sys2Proof.Machine

/-- The shift and mask of R181 as a division and a remainder. -/
theorem toNat_nibbleOf (b : Byte) (i : Nat) : (nibbleOf b i).toNat = b.toNat / 16 ^ (i % 2) % 16 := by
  have hmask (x : Nat) : x &&& 15 = x % 16 := Nat.and_two_pow_sub_one_eq_mod x 4
  rw [nibbleOf, BitVec.toNat_setWidth, BitVec.toNat_and, BitVec.toNat_ushiftRight, Nat.shiftRight_eq_div_pow,
    nibbleOffset, pow_mul]
  exact (congrArg (· % 2 ^ 4) (hmask _)).trans (Nat.mod_mod _ _)

/-- Settles O33: a counter is its nibble of its byte, and a counter write replaces that nibble alone. -/
theorem countersArePackedNibbles : Obligations.CountersArePackedNibbles := fun s i v =>
  ⟨toNat_nibbleOf _ i, counter_setCounter_same s i v, fun _ hj => counter_setCounter_other s v hj,
    fun _ ha => memRead_setCounter_other s v ha, sameButCram_setCounter s i v⟩

/-- `inc(i)` keeps every other counter. -/
theorem counter_increment_other (s : State) {i j : Nat} (h : j ≠ i) : counter (increment s i).1 j = counter s j := by
  rw [increment_eq, counter_setCounter_other s _ h]

/-- `dec(i, pol)` keeps every other counter. -/
theorem counter_decrement_other (s : State) (pol : Bool) {i j : Nat} (h : j ≠ i) :
    counter (decrement s pol i).1 j = counter s j := by
  rw [decrement_eq, counter_setCounter_other s _ h]

/-- What `dec(i, pol)` after `inc(i)` does to the counter of slot i. -/
theorem counter_decrement_increment (s : State) (pol : Bool) (i : Nat) :
    (counter (decrement (increment s i).1 pol i).1 i).toNat = decValue pol (incValue (counter s i).toNat) := by
  rw [counter_decrement, if_pos rfl, counter_increment, if_pos rfl]

/-- `dec` takes back an `inc` below the saturation, but for the 0 that the floor at 1 raises (R190). -/
theorem decValue_incValue {pol : Bool} {v : Nat} (hv : v ≤ 14) (h : pol = false → 1 ≤ v) :
    decValue pol (incValue v) = v := by
  cases pol with
  | false =>
    have := h rfl
    simp only [decValue, incValue, Bool.false_eq_true, if_false]
    omega
  | true =>
    simp only [decValue, incValue, if_true]
    omega

/-- Settles O34: each clause is the value or the event that `inc`, `dec` or `dec` after `inc` gives. -/
theorem counterPrimitivesObeyTheirLaws : Obligations.CounterPrimitivesObeyTheirLaws := by
  intro s i v
  have hlt : v < 16 := counter_lt s i
  have hinc : (counter (increment s i).1 i).toNat = incValue v := by rw [counter_increment, if_pos rfl]
  have hdec (pol : Bool) : (counter (decrement s pol i).1 i).toNat = decValue pol v := by
    rw [counter_decrement, if_pos rfl]
  have hround (pol : Bool) := counter_decrement_increment s pol i
  refine ⟨by omega, fun j hj => ⟨counter_increment_other s hj, fun pol => counter_decrement_other s pol hj⟩, hinc,
    by rw [increment_eq], ?_, by rw [decrement_eq]; rfl, ?_, by rw [decrement_eq]; simp [v], ?_, ?_, ?_, ?_⟩
  · rw [hdec]
    simp only [decValue, Bool.false_eq_true, if_false]
    split_ifs <;> omega
  · rw [hdec, Nat.max_zero]
    rfl
  · exact fun h1 h14 => BitVec.eq_of_toNat_eq ((hround false).trans (decValue_incValue h14 fun _ => h1))
  · intro h0
    exact BitVec.eq_of_toNat_eq ((hround false).trans (congrArg (fun n => decValue false (incValue n)) h0))
  · exact fun h14 => BitVec.eq_of_toNat_eq ((hround true).trans (decValue_incValue h14 nofun))
  · intro h15 pol
    have htop : decValue pol (incValue 15) = 14 := by cases pol <;> rfl
    exact BitVec.eq_of_toNat_eq ((hround pol).trans ((congrArg (fun n => decValue pol (incValue n)) h15).trans htop))

end Sys2Proof.Proofs
end

section
/-! PROOFS. READ_SLOT, INC_SLOT, DEC_SLOT and READ_BYTE (spec rules R186 to R189). -/

namespace Sys2Proof.Proofs

open Sys2Proof.Machine

/-! ### The completions -/

/-- The completion of a command that only reads: RESULT is the value read, zero-extended. -/
theorem complete_read {w : Nat} {s : State} (hc : s.status.configured = true) (x : BitVec w) :
    complete s x.toNat 0 0 = { s with
      result := x.setWidth 32
      status := { configured := true, err := .noError, sat := false, floor := false } } := by
  rw [complete_quiet, hc, BitVec.ofNat_toNat]

theorem zero_lt_event_iff (p : Prop) [Decidable p] : 0 < (if p then 1 else 0) ↔ p := by
  split_ifs with h <;> simp [h]

/-- A completion with one saturation event, under the condition `p`. -/
theorem complete_saturation {s : State} (hc : s.status.configured = true) (result : Nat) (p : Prop) [Decidable p] :
    complete s result (if p then 1 else 0) 0 = { s with
      result := BitVec.ofNat 32 result
      status := { configured := true, err := .noError, sat := decide p, floor := false }
      satCnt := BitVec.ofNat 32 (min (s.satCnt.toNat + if p then 1 else 0) 0xFFFFFFFF) } := by
  simp only [complete, countEvents_zero, zero_lt_event_iff, hc]
  rfl

/-- A completion with one floor event, under the condition `p`. -/
theorem complete_floor {s : State} (hc : s.status.configured = true) (result : Nat) (p : Prop) [Decidable p] :
    complete s result 0 (if p then 1 else 0) = { s with
      result := BitVec.ofNat 32 result
      status := { configured := true, err := .noError, sat := false, floor := decide p }
      floorCnt := BitVec.ofNat 32 (min (s.floorCnt.toNat + if p then 1 else 0) 0xFFFFFFFF) } := by
  simp only [complete, countEvents_zero, zero_lt_event_iff, hc]
  rfl

/-- A completion after a counter write, but for the counter RAM, is the completion without the write. -/
theorem complete_setCounter (s : State) (i : Nat) (v : Nibble) (result sat floor : Nat) :
    complete (setCounter s i v) result sat floor =
      { complete s result sat floor with cram := (setCounter s i v).cram } := rfl

/-! ### The checks -/

/-- DEC_SLOT checks what INC_SLOT checks (R187, R188). -/
theorem decSlotChecks_eq (s : State) : decSlotChecks s = incSlotChecks s := rfl

section
variable {s : State}

theorem firstError_incSlotChecks_disabled (hd : s.ctrl.diagEn = false) :
    firstError (incSlotChecks s) = some .diagDisabled := by
  simp [incSlotChecks, firstError_cons, hd]

theorem firstError_incSlotChecks_unconfigured (hd : s.ctrl.diagEn = true) (hc : s.status.configured = false) :
    firstError (incSlotChecks s) = some .notConfigured := by
  simp [incSlotChecks, firstError_cons, hd, hc]

theorem firstError_incSlotChecks_range (hd : s.ctrl.diagEn = true) (hc : s.status.configured = true)
    (ha : s.m.toNat ≤ s.arg0.toNat) : firstError (incSlotChecks s) = some .indexRange := by
  simp [incSlotChecks, firstError_cons, hd, hc, argument, ha]

theorem slotsInRange_of_holdsSlots (hs : HoldsSlots s) : slotsInRange Config.impl s = true :=
  (slotsInRange_iff _ _).2 hs.2

end

/-! ### The commands -/

/-- Settles O14: the check ladder in its order, and the completion with the counter read. -/
theorem readSlotFollowsItsRule : Obligations.ReadSlotFollowsItsRule := by
  refine ⟨decode_encode .readSlot, fun s => ⟨fun hc => ?_, fun hc ha => ?_, fun hs ha => ?_⟩⟩
  · exact afterChecks_fail s _ (by simp [readSlotChecks, firstError_cons, hc])
  · exact afterChecks_fail s _ (by simp [readSlotChecks, firstError_cons, hc, argument, ha])
  · exact (readSlotAt_runs hs.1 (slotsInRange_of_holdsSlots hs) ha).trans
      (congrArg Host.Outcome.next (complete_read hs.1 _))

/-- The bound of READ_BYTE, ceil(M/2). -/
theorem ceilDiv_two (a : Nat) : ceilDiv a 2 = (a + 1) / 2 := rfl

/-- Settles O17: the check ladder in its order, and the completion with the byte read. -/
theorem readByteFollowsItsRule : Obligations.ReadByteFollowsItsRule := by
  refine ⟨decode_encode .readByte, fun s => ⟨fun hc => ?_, fun hc ha => ?_, fun hs ha => ?_⟩⟩
  · exact afterChecks_fail s _ (by simp [readByteChecks, firstError_cons, hc])
  · exact afterChecks_fail s _ (by simp [readByteChecks, firstError_cons, hc, argument, ceilDiv_two, ha])
  · exact (readByteAt_runs hs.1 (slotsInRange_of_holdsSlots hs) ha).trans
      (congrArg Host.Outcome.next (complete_read hs.1 _))

/-- INC_SLOT completes with the write of the incremented counter, and with an event when it was at 15. -/
theorem exec_incSlot_runs {s : State} (hd : s.ctrl.diagEn = true) (hs : HoldsSlots s)
    (ha : s.arg0.toNat < s.m.toNat) :
    exec .incSlot s = .next (complete
      (setCounter s s.arg0.toNat (BitVec.ofNat 4 (incValue (counter s s.arg0.toNat).toNat)))
      (incValue (counter s s.arg0.toNat).toNat) (if (counter s s.arg0.toNat).toNat = 15 then 1 else 0) 0) := by
  refine (incSlotAt_runs hd hs.1 (slotsInRange_of_holdsSlots hs) ha).trans ?_
  rw [counter_increment, if_pos rfl, increment_eq]
  rfl

/-- DEC_SLOT completes with the write of the decremented counter, and with an event when it was at its floor or below. -/
theorem exec_decSlot_runs {s : State} (hd : s.ctrl.diagEn = true) (hs : HoldsSlots s)
    (ha : s.arg0.toNat < s.m.toNat) :
    exec .decSlot s = .next (complete
      (setCounter s s.arg0.toNat (BitVec.ofNat 4 (decValue s.ctrl.decFloor0 (counter s s.arg0.toNat).toNat)))
      (decValue s.ctrl.decFloor0 (counter s s.arg0.toNat).toNat) 0
      (if (counter s s.arg0.toNat).toNat ≤ (if s.ctrl.decFloor0 then 0 else 1) then 1 else 0)) := by
  refine (decSlotAt_runs hd hs.1 (slotsInRange_of_holdsSlots hs) ha).trans ?_
  rw [counter_decrement, if_pos rfl, decrement_eq]
  rfl

/-- Settles O15: the check ladder in its order, and the completion after the write of the incremented counter. -/
theorem incSlotFollowsItsRule : Obligations.IncSlotFollowsItsRule := by
  refine ⟨decode_encode .incSlot, fun s => ⟨fun hd => ?_, fun hd hc => ?_, fun hd hc ha => ?_, fun hd hs ha => ?_⟩⟩
  · exact afterChecks_fail s _ (firstError_incSlotChecks_disabled hd)
  · exact afterChecks_fail s _ (firstError_incSlotChecks_unconfigured hd hc)
  · exact afterChecks_fail s _ (firstError_incSlotChecks_range hd hc ha)
  · intro v
    refine ⟨_, exec_incSlot_runs hd hs ha, ?_, fun j hj => counter_setCounter_other s _ hj,
      fun a hj => memRead_setCounter_other s _ hj, ?_⟩
    · exact (congrArg BitVec.toNat (counter_setCounter_same s _ _)).trans (toNat_incValue _)
    · rw [complete_setCounter, complete_saturation hs.1]
      rfl

/-- The decremented value in the words of R188. -/
theorem decValue_eq_max (pol : Bool) (v : Nat) : decValue pol v = max (v - 1) (if pol then 0 else 1) := by
  cases pol <;> simp [decValue]

/-- Settles O16: the check ladder in its order, and the completion after the write of the decremented counter. -/
theorem decSlotFollowsItsRule : Obligations.DecSlotFollowsItsRule := by
  refine ⟨decode_encode .decSlot,
    fun s => ⟨fun hd => ?_, fun hd hc => ?_, fun hd hc ha => ?_, fun hd hs ha => ?_⟩⟩
  · exact afterChecks_fail s _ (decSlotChecks_eq s ▸ firstError_incSlotChecks_disabled hd)
  · exact afterChecks_fail s _ (decSlotChecks_eq s ▸ firstError_incSlotChecks_unconfigured hd hc)
  · exact afterChecks_fail s _ (decSlotChecks_eq s ▸ firstError_incSlotChecks_range hd hc ha)
  · intro v floor
    refine ⟨_, exec_decSlot_runs hd hs ha, ?_, fun j hj => counter_setCounter_other s _ hj,
      fun a hj => memRead_setCounter_other s _ hj, ?_⟩
    · rw [← decValue_eq_max]
      exact (congrArg BitVec.toNat (counter_setCounter_same s _ _)).trans (toNat_decValue _ _)
    · rw [← decValue_eq_max, complete_setCounter, complete_floor hs.1]

end Sys2Proof.Proofs
end

section
/-! PROOFS. HASH_SLOT, MAP and the slot list (spec rules R223 to R227). -/

namespace Sys2Proof.Proofs

open Sys2Proof.Machine

/-! ### The completion of a command without an event -/

/-- With an instance, a completion without an event is the answer that R225 and R226 state. -/
theorem complete_quiet_configured {s : State} (hc : s.status.configured = true) (result : Nat) :
    complete s result 0 0 = { s with
      result := BitVec.ofNat 32 result
      status := { configured := true, err := .noError, sat := false, floor := false } } := by
  rw [complete_quiet, hc]

/-! ### HASH_SLOT -/

/-- HASH_SLOT of a legal seed with a written key completes with the key's slot for that seed. -/
theorem exec_hashSlot_runs {s : State} (hs : HoldsInstance s) (hkey : KeyIsWritten s) (h₁ : 1 ≤ s.arg0.toNat)
    (h₂ : s.arg0.toNat ≤ s.k.toNat) :
    exec .hashSlot s = .next (complete s (slotOf Config.impl s (keyBytes s) s.arg0.toNat) 0 0) :=
  hashSlotAt_runs hs.1 ((instanceInRange_iff _ _).2 hs.2) hkey.1 hkey.2 h₁ h₂

/-- Settles O18: the check ladder in its order, and the completion with the slot of the key. -/
theorem hashSlotFollowsItsRule : Obligations.HashSlotFollowsItsRule := by
  refine ⟨decode_encode .hashSlot,
    fun s => ⟨fun hc => ?_, fun hc hlen => ?_, fun hc hlen hseed => ?_, fun hs hkey h₁ h₂ => ?_⟩⟩
  · exact afterChecks_fail s _ (by simp [hashSlotChecks, firstError_cons, hc])
  · exact afterChecks_fail s _ (by simp [hashSlotChecks, firstError_cons, hc, hlen])
  · have hrange : argument s ≠ 0 → s.k.toNat < argument s := by unfold argument; omega
    exact afterChecks_fail s _ (by simpa [hashSlotChecks, firstError_cons, hc, Nat.not_lt.2 hlen] using hrange)
  · exact (exec_hashSlot_runs hs hkey h₁ h₂).trans (congrArg Host.Outcome.next (complete_quiet_configured hs.1 _))

/-! ### MAP -/

/-- R65: the digest is the sum of its words, each at its place. -/
theorem digestSum_eq_sum (s : State) (count : Nat) :
    digestSum s count = ∑ w ∈ Finset.range count, ((lookupAt s.digest w).getD 0).toNat * 2 ^ (32 * w) := by
  induction count with
  | zero => rfl
  | succ w ih => rw [digestSum, ih, Finset.sum_range_succ]; rfl

/-- MAP with every DIGEST word written completes with the digest modulo M. -/
theorem exec_map_runs {s : State} (hs : HoldsSlots s) (hdigest : DigestIsWritten s) :
    exec .map s = .next (complete s (digestSum s Config.impl.digestWords % s.m.toNat) 0 0) :=
  mapAt_runs hs.1 (slotsInRange_of_holdsSlots hs) hdigest

/-- A table with an unwritten word below `count` has a first one. -/
theorem exists_firstUnwritten {t : List (Nat × Word)} {count : Nat} (h : ¬∀ w < count, lookupAt t w ≠ none) :
    ∃ w, firstUnwritten t count = some w :=
  Option.ne_none_iff_exists'.1 fun hnone => h ((firstUnwritten_eq_none_iff _ _).1 hnone)

/-- MAP faults on the first DIGEST word that is not written (R226, R289 (b)). -/
theorem exec_map_faults {s : State} {w : Nat} (hs : HoldsSlots s)
    (hw : firstUnwritten s.digest Config.impl.digestWords = some w) :
    exec .map s = .fault (.consumedUnwrittenDigest w) :=
  (afterChecks_pass s _ (by simp [mapChecks, firstError_cons, hs.1])).trans
    ((onSlots_pass _ (slotsInRange_of_holdsSlots hs)).trans (by rw [onDigest, hw]))

/-- Settles O19: the one check, the completion with the digest modulo M, and the fault on the first unwritten word. -/
theorem mapFollowsItsRule : Obligations.MapFollowsItsRule := by
  refine ⟨decode_encode .map, fun s => ⟨fun hc => ?_, fun hs hdigest => ?_, fun hs hdigest => ?_⟩⟩
  · exact afterChecks_fail s _ (by simp [mapChecks, firstError_cons, hc])
  · rw [← digestSum_eq_sum]
    exact (exec_map_runs hs hdigest).trans (congrArg Host.Outcome.next (complete_quiet_configured hs.1 _))
  · obtain ⟨w, hw⟩ := exists_firstUnwritten hdigest
    obtain ⟨hlt, hnone, _⟩ := firstUnwritten_eq_some hw
    exact ⟨w, hlt, hnone, exec_map_faults hs hw⟩

/-! ### The laws of the slot list -/

/-- R224: the slot list is in the order of the seeds, which start at 1. -/
theorem slotsOf_getElem? (c : Config) (s : State) (x : List Byte) {j : Nat} (hj : j < s.k.toNat) :
    (slotsOf c s x)[j]? = some (slotOf c s x (j + 1)) := by
  simp [slotsOf, hj]

theorem holdsSlots_of_holdsInstance {s : State} (hs : HoldsInstance s) : HoldsSlots s := by
  obtain ⟨hc, hm, hmMax, _⟩ := hs
  exact ⟨hc, hm, hmMax⟩

/-- MAP of the digest that HASH_SLOT takes modulo M answers as HASH_SLOT does (R227). -/
theorem exec_map_eq_exec_hashSlot {s : State} (hs : HoldsInstance s) (hkey : KeyIsWritten s)
    (hdigest : DigestIsWritten s) (h₁ : 1 ≤ s.arg0.toNat) (h₂ : s.arg0.toNat ≤ s.k.toNat)
    (hsum : digestSum s Config.impl.digestWords =
      Config.impl.digestFn (keyBytes s ++ Config.impl.seedEnc s.arg0.toNat)) :
    exec .map s = exec .hashSlot s := by
  rw [exec_map_runs (holdsSlots_of_holdsInstance hs) hdigest, exec_hashSlot_runs hs hkey h₁ h₂, hsum, slotOf]

/-- A command other than CONFIGURE that runs neither update loop keeps the counters and the debug counters. -/
theorem exec_keeps_counters {i : Instr} {s t : State} (h : exec i s = .next t) (hconfigure : i ≠ .configure)
    (hinc : i ≠ .incSlot ∧ i ≠ .insert) (hdec : i ≠ .decSlot ∧ i ≠ .delete) :
    t.cram = s.cram ∧ t.satCnt = s.satCnt ∧ t.floorCnt = s.floorCnt := by
  rw [exec_eq_execAt] at h
  rcases execAt_next h with ⟨e, rfl⟩ | ⟨hi, _⟩ | ⟨_, S, r, _, hnil, rfl⟩ | ⟨hi, _⟩
  · exact ⟨rfl, rfl, rfl⟩
  · exact absurd hi hconfigure
  · rw [hnil hinc]
    exact ⟨rfl, countEvents_zero _, countEvents_zero _⟩
  · exact absurd hi (not_or.2 hdec)

/-- Settles O36: the list is the slots of the seeds 1 to K, each a remainder modulo M, and both commands complete without
an event. -/
theorem slotsObeyTheirLaws : Obligations.SlotsObeyTheirLaws := by
  refine ⟨fun s x hm => ⟨slotsOf_length _ s x, fun j hj => slotsOf_getElem? _ s x hj, mem_slotsOf_lt hm,
    fun hone i hi => ?_⟩, fun s t x hm hk => slotsOf_congr x hm hk, fun s hs hkey hdigest h₁ h₂ hsum => ?_,
    fun s t h => ?_⟩
  · have := mem_slotsOf_lt hm i hi
    omega
  · rw [← digestSum_eq_sum] at hsum
    have hhash := exec_hashSlot_runs hs hkey h₁ h₂
    exact ⟨_, hhash, (exec_map_eq_exec_hashSlot hs hkey hdigest h₁ h₂ hsum).trans hhash⟩
  · rcases h with hhash | hmap
    · exact exec_keeps_counters hhash nofun ⟨nofun, nofun⟩ ⟨nofun, nofun⟩
    · exact exec_keeps_counters hmap nofun ⟨nofun, nofun⟩ ⟨nofun, nofun⟩

end Sys2Proof.Proofs
end

section
/-! PROOFS. INSERT, DELETE, LOOKUP and the lookup value (spec rules R250 to R253). -/

namespace Sys2Proof.Proofs

open Sys2Proof.Machine

/-! ### The lookup value -/

/-- Settles O37: the least counter of the list, which a counter at 0 is and which no counter above 15 can be. -/
theorem lookupValueIsTheMinimum : Obligations.LookupValueIsTheMinimum := by
  intro s S hS
  obtain ⟨hmem, hle⟩ := lookupValue_spec s hS
  exact ⟨(lookupValue_eq_zero_iff s hS).2, hmem, hle, lookupValue_le s S⟩

/-- Where every counter of the list has the same value, that is the lookup value. -/
theorem lookupValue_eq_of_forall {s : State} {S : List Nat} {v : Nat} (hS : S ≠ [])
    (h : ∀ i ∈ S, (counter s i).toNat = v) : lookupValue s S = v := by
  obtain ⟨⟨i, hi, hv⟩, _⟩ := lookupValue_spec s hS
  rw [hv, h i hi]

/-! ### The completion after counter updates -/

@[simp] theorem counter_complete (s : State) (result sat floor i : Nat) :
    counter (complete s result sat floor) i = counter s i := rfl

/-- With an instance, a completion after counter updates is the answer that R251 and R252 state. -/
theorem complete_updates {s u : State} (h : SameButCram s u) (hc : s.status.configured = true)
    (result sat floor : Nat) :
    complete u result sat floor = { s with
      cram := u.cram
      result := BitVec.ofNat 32 result
      status := { configured := true, err := .noError, sat := decide (0 < sat), floor := decide (0 < floor) }
      satCnt := countEvents s.satCnt sat
      floorCnt := countEvents s.floorCnt floor } := by
  rw [h, ← hc]
  rfl

/-! ### The checks -/

/-- DELETE and LOOKUP check what INSERT checks (R251 to R253). -/
theorem deleteChecks_eq (c : Config) (s : State) : deleteChecks c s = insertChecks c s := rfl

theorem lookupChecks_eq (c : Config) (s : State) : lookupChecks c s = insertChecks c s := rfl

section
variable {c : Config} {s : State}

theorem firstError_insertChecks_unconfigured (hc : s.status.configured = false) :
    firstError (insertChecks c s) = some .notConfigured := by
  simp [insertChecks, firstError_cons, hc]

theorem firstError_insertChecks_keyLength (hc : s.status.configured = true) (hlen : c.keyMax < s.keyLen.toNat) :
    firstError (insertChecks c s) = some .keyLength := by
  simp [insertChecks, firstError_cons, hc, hlen]

theorem insertAt_keyLength (hc : s.status.configured = true) (hlen : c.keyMax < s.keyLen.toNat) :
    insertAt c s = .next (cmdError s .keyLength) :=
  afterChecks_fail s _ (firstError_insertChecks_keyLength hc hlen)

theorem firstError_insertChecks_pass (hc : s.status.configured = true) (hlen : s.keyLen.toNat ≤ c.keyMax) :
    firstError (insertChecks c s) = none := by
  simp [insertChecks, firstError_cons, hc, Nat.not_lt.2 hlen]

end

section
variable {s : State} (hs : HoldsInstance s)
include hs

theorem instanceInRange_of_holdsInstance : instanceInRange Config.impl s = true :=
  (instanceInRange_iff _ _).2 hs.2

theorem slotsOf_ne_nil_of_holdsInstance (x : List Byte) : slotsOf Config.impl s x ≠ [] := by
  obtain ⟨_, _, _, hk, _⟩ := hs
  exact slotsOf_ne_nil x hk

theorem mem_slotsOf_lt_of_holdsInstance (x : List Byte) : ∀ i ∈ slotsOf Config.impl s x, i < s.m.toNat := by
  obtain ⟨_, hm, _⟩ := hs
  exact mem_slotsOf_lt hm

end

/-! ### The commands -/

/-- Settles O20: the check ladder in its order, and the completion after the loop of increments. -/
theorem insertFollowsItsRule : Obligations.InsertFollowsItsRule := by
  refine ⟨decode_encode .insert, fun s => ⟨fun hc => ?_, fun hc hlen => ?_, fun hs hkey => ?_⟩⟩
  · exact afterChecks_fail s _ (firstError_insertChecks_unconfigured hc)
  · exact insertAt_keyLength hc hlen
  · intro S
    have hruns := insertAt_runs hs.1 (instanceInRange_of_holdsInstance hs) hkey.1 hkey.2
    have hevents := incrementAll_events S s (mem_slotsOf_lt_of_holdsInstance hs _)
    rw [slotsOf_length] at hevents
    refine ⟨_, _, hruns, counter_incrementAll S s, hevents, fun a ha => memRead_incrementAll_other S s ha, ?_⟩
    rw [complete_updates (sameButCram_incrementAll S s) hs.1, countEvents_zero]
    rfl

/-- Settles O21: the check ladder in its order, the answer to an absent key, and the completion after the loop of
decrements, where no listed counter is 0. -/
theorem deleteFollowsItsRule : Obligations.DeleteFollowsItsRule := by
  refine ⟨decode_encode .delete, fun s => ?_⟩
  intro S
  refine ⟨fun hc => ?_, fun hc hlen => ?_, fun hs hkey habsent => ?_, fun hs hkey hpresent => ?_⟩
  · exact afterChecks_fail s _ (deleteChecks_eq Config.impl s ▸ firstError_insertChecks_unconfigured hc)
  · exact afterChecks_fail s _ (deleteChecks_eq Config.impl s ▸ firstError_insertChecks_keyLength hc hlen)
  · have hruns := deleteAt_runs hs.1 (instanceInRange_of_holdsInstance hs) hkey.1 hkey.2
    have hzero := (lookupValue_eq_zero_iff s (slotsOf_ne_nil_of_holdsInstance hs _)).2 habsent
    rw [if_pos hzero, complete_quiet_configured hs.1] at hruns
    exact hruns
  · have hruns := deleteAt_runs hs.1 (instanceInRange_of_holdsInstance hs) hkey.1 hkey.2
    have hzero : lookupValue s S ≠ 0 := fun h0 => by
      obtain ⟨i, hi, hi0⟩ := (lookupValue_eq_zero_iff s (slotsOf_ne_nil_of_holdsInstance hs _)).1 h0
      exact hpresent i hi hi0
    have hevents := decrementAll_events s.ctrl.decFloor0 S s (mem_slotsOf_lt_of_holdsInstance hs _) fun _ => hpresent
    rw [if_neg hzero] at hruns
    rw [slotsOf_length] at hevents
    refine ⟨_, _, hruns, fun j => ?_, hevents, fun a ha => memRead_decrementAll_other _ S s ha, ?_⟩
    · refine (counter_decrementAll s.ctrl.decFloor0 S s j).trans ?_
      cases s.ctrl.decFloor0 <;> simp
    · rw [complete_updates (sameButCram_decrementAll _ S s) hs.1, countEvents_zero]
      rfl

/-- Settles O22: the check ladder in its order, and the completion with the lookup value, the least listed counter. -/
theorem lookupFollowsItsRule : Obligations.LookupFollowsItsRule := by
  refine ⟨decode_encode .lookup, fun s => ?_⟩
  intro S
  refine ⟨fun hc => ?_, fun hc hlen => ?_, fun hs hkey => ?_⟩
  · exact afterChecks_fail s _ (lookupChecks_eq Config.impl s ▸ firstError_insertChecks_unconfigured hc)
  · exact afterChecks_fail s _ (lookupChecks_eq Config.impl s ▸ firstError_insertChecks_keyLength hc hlen)
  · obtain ⟨⟨i, hi, hv⟩, hle⟩ := lookupValue_spec s (slotsOf_ne_nil_of_holdsInstance hs (keyBytes s))
    refine ⟨_, ⟨i, hi, hv.symm⟩, hle, ?_⟩
    exact (lookupCommandAt_runs hs.1 (instanceInRange_of_holdsInstance hs) hkey.1 hkey.2).trans
      (congrArg Host.Outcome.next (complete_quiet_configured hs.1 _))

/-! ### The operands after a command -/

theorem keyBytes_congr {s t : State} (hlen : t.keyLen = s.keyLen) (hkey : t.key = s.key) :
    keyBytes t = keyBytes s := by
  have hbyte : keyByte t = keyByte s := funext fun b => by rw [keyByte, keyByte, hkey]
  rw [keyBytes, keyBytes, hlen, hbyte]

theorem slotsOf_of_sameInstance {s t : State} (h : SameInstance s t) (c : Config) (x : List Byte) :
    slotsOf c t x = slotsOf c s x := by
  obtain ⟨_, hm, hk, _⟩ := h
  exact slotsOf_congr x hm hk

theorem holdsInstance_of_sameInstance {s t : State} (h : SameInstance s t) (hs : HoldsInstance s) :
    HoldsInstance t := by
  obtain ⟨hc, hm, hk, _⟩ := h
  rwa [HoldsInstance, hc, hm, hk]

/-- A command other than CONFIGURE keeps the key and its slots, and the policy. -/
theorem exec_keeps_key_slots {i : Instr} {s t : State} (h : exec i s = .next t) (hi : i ≠ .configure)
    (hs : HoldsInstance s) (hkey : KeyIsWritten s) :
    HoldsInstance t ∧ KeyIsWritten t ∧ t.ctrl = s.ctrl ∧
      slotsOf Config.impl t (keyBytes t) = slotsOf Config.impl s (keyBytes s) := by
  rw [exec_eq_execAt] at h
  have hinstance := execAt_sameInstance h hi
  obtain ⟨hctrl, _, _, _, _, hlen, _, hwords, _⟩ := execAt_sameHostFields h
  refine ⟨holdsInstance_of_sameInstance hinstance hs, ?_, hctrl, ?_⟩
  · rwa [KeyIsWritten, hlen, hwords]
  · rw [keyBytes_congr hlen hwords, slotsOf_of_sameInstance hinstance]

/-! ### DELETE after INSERT -/

/-- Settles O50: INSERT leaves each listed counter at 1, so DELETE finds the key and lowers each to the floor. -/
theorem deleteAfterOneInsert : Obligations.DeleteAfterOneInsert := by
  intro s hs hkey hnodup hzero
  obtain ⟨_, hinsert⟩ := insertFollowsItsRule
  obtain ⟨_, _, hinserts⟩ := hinsert s
  obtain ⟨t, _, ht, htCounter, _⟩ := hinserts hs hkey
  obtain ⟨htHolds, htKey, hctrl, hslots⟩ := exec_keeps_key_slots ht nofun hs hkey
  have hone : ∀ i ∈ slotsOf Config.impl s (keyBytes s), (counter t i).toNat = 1 := fun i hi => by
    rw [htCounter, hzero i hi, List.count_eq_one_of_mem hnodup hi]
    rfl
  have hpresent : ∀ i ∈ slotsOf Config.impl s (keyBytes s), counter t i ≠ 0#4 := fun i hi h0 => by
    simpa [h0] using hone i hi
  obtain ⟨_, hdelete⟩ := deleteFollowsItsRule
  obtain ⟨_, _, _, hdeletes⟩ := hdelete t
  obtain ⟨u, _, hu, huCounter, _, _, huState⟩ := hdeletes htHolds htKey (hslots ▸ hpresent)
  obtain ⟨_, _, _, huSlots⟩ := exec_keeps_key_slots hu nofun htHolds htKey
  refine ⟨t, u, ht, hu, huState ▸ rfl, ?_⟩
  rw [huSlots, hslots]
  refine lookupValue_eq_of_forall (slotsOf_ne_nil_of_holdsInstance hs _) fun i hi => ?_
  rw [huCounter, hslots, hone i hi, List.count_eq_one_of_mem hnodup hi, hctrl, if_neg Nat.one_ne_zero]
  exact Nat.zero_max _

end Sys2Proof.Proofs
end

section
/-! PROOFS. The laws of the filter along runs (spec rule R254). -/

namespace Sys2Proof.Proofs

open Sys2Proof.Machine

/-! ### Runs, by induction on their steps -/

/-- Whether the next step runs INSERT of the key `x`, as the number that `insertsOf` adds for it. -/
def insertsNow (x : List Byte) (s : State) : Nat :=
  if nextCommand s = some .insert ∧ keyBytes s = x then 1 else 0

theorem insertsOf_succ {x : List Byte} {k : Nat} {s u : State} (hu : step s = .next u) :
    insertsOf x (k + 1) s = insertsNow x s + insertsOf x k u := by
  rw [insertsOf, hu, insertsNow]

/-- A property of a state and of the number of inserts of `x` so far that every step under `A` keeps holds at the end
of a run under `A`. -/
theorem run_counts {A : State → Prop} {Q : Nat → State → Prop} {x : List Byte}
    (hstep : ∀ n s t, step s = .next t → A s → Q n s → Q (n + insertsNow x s) t) {k n : Nat} {s t : State}
    (hA : alongRun A k s) (hrun : Host.Core.run Sys2Proof.core k s = .next t) (hQ : Q n s) :
    Q (n + insertsOf x k s) t := by
  induction k generalizing n s with
  | zero =>
    rw [run_zero hrun]
    exact hQ
  | succ k ih =>
    obtain ⟨u, hu, hrest⟩ := run_succ hrun
    obtain ⟨hs, hAu⟩ := alongRun_succ hu hA
    rw [insertsOf_succ hu, ← Nat.add_assoc]
    exact ih hAu hrest (hstep n s u hu hs hQ)

/-- A property that every step under `A` keeps holds at the end of a run under `A`. -/
theorem run_keeps {A P : State → Prop} (hstep : ∀ s t, step s = .next t → A s → P s → P t) {k : Nat} {s t : State}
    (hA : alongRun A k s) (hrun : Host.Core.run Sys2Proof.core k s = .next t) (hP : P s) : P t :=
  run_counts (Q := fun _ => P) (x := []) (n := 0) (fun _ => hstep) hA hrun hP

/-! ### The floor at 1 -/

theorem counter_ne_zero_iff (s : State) (i : Nat) : counter s i ≠ 0#4 ↔ 1 ≤ (counter s i).toNat := by
  rw [Nat.one_le_iff_ne_zero, ne_eq, ne_eq, ← BitVec.toNat_inj]
  rfl

/-- Only a decrement under the floor at 0 leaves a counter at 0. -/
theorem execAt_counter_ne_zero {c : Config} {i : Instr} {s t : State} {j : Nat} (h : execAt c i s = .next t)
    (hi : i ≠ .configure) (hpol : i = .delete ∨ i = .decSlot → s.ctrl.decFloor0 = false)
    (hj : counter s j ≠ 0#4) : counter t j ≠ 0#4 := by
  rw [counter_ne_zero_iff] at hj ⊢
  rcases execAt_next h with ⟨e, rfl⟩ | ⟨h, _⟩ | ⟨_, S, r, _, _, rfl⟩ | ⟨hdec, S, r, _, rfl⟩
  · exact hj
  · exact absurd h hi
  · rw [counter_complete, counter_incrementAll]
    omega
  · rw [counter_complete, hpol hdec.symm, counter_decrementAll, if_neg Bool.false_ne_true]
    split_ifs <;> omega

/-- A step under the floor at 1 leaves no counter at 0 that was not there. -/
theorem step_counter_ne_zero {s t : State} {j : Nat} (h : step s = .next t) (hA : FloorsAtOne s)
    (hj : counter s j ≠ 0#4) : counter t j ≠ 0#4 := by
  obtain ⟨hreset, hconfigure, hpol⟩ := hA
  rcases step_next_cases h hreset with ⟨_, _, _, _, _, _, _, _, _, hcram⟩ | ⟨rest, rfl⟩ | ⟨rest, i, u, hi, hu, rfl⟩
  · rwa [counter_congr hcram]
  · exact hj
  · rw [hi] at hconfigure hpol
    exact (execAt_counter_ne_zero hu (fun e => hconfigure (e ▸ rfl))
      (fun hdec => hpol (hdec.imp (congrArg some) (congrArg some))) hj :)

/-- Settles O51: the property is one that every step under the floor at 1 keeps. -/
theorem countersNeverReturnToZero : Obligations.CountersNeverReturnToZero := by
  intro s t k hA hrun i hi
  exact run_keeps (P := fun u => counter u i ≠ 0#4) (fun _ _ => step_counter_ne_zero) hA hrun hi

theorem sameInstance_trans {s t u : State} (h : SameInstance s t) (h' : SameInstance t u) : SameInstance s u := by
  obtain ⟨hc, hm, hk, hn, hlo, hhi⟩ := h
  obtain ⟨hc', hm', hk', hn', hlo', hhi'⟩ := h'
  exact ⟨hc'.trans hc, hm'.trans hm, hk'.trans hk, hn'.trans hn, hlo'.trans hlo, hhi'.trans hhi⟩

theorem run_sameInstance {A : State → Prop}
    (hA : ∀ s, A s → nextIsReset s = false ∧ nextCommand s ≠ some .configure) {k : Nat} {s t : State}
    (hs : alongRun A k s) (hrun : Host.Core.run Sys2Proof.core k s = .next t) : SameInstance s t := by
  refine run_keeps (P := SameInstance s) (fun u v hu huA hsu => ?_) hs hrun (by simp [SameInstance])
  obtain ⟨hreset, hconfigure⟩ := hA u huA
  exact sameInstance_trans hsu (step_sameInstance hu hconfigure hreset)

/-! ### What INSERT leaves -/

/-- An INSERT that leaves no error has passed its checks. -/
theorem insertChecks_of_noError {c : Config} {s t : State} (h : insertAt c s = .next t)
    (herr : t.status.err = .noError) : firstError (insertChecks c s) = none := by
  rcases insertAt_next h with ⟨e, he, rfl⟩ | ⟨hpass, _⟩
  · have hcode := mem_of_firstError (he.trans (congrArg some herr))
    simp [insertChecks] at hcode
  · exact hpass

/-- What an INSERT that passes its checks does to every counter. -/
theorem counter_insertAt {c : Config} {s t : State} (h : insertAt c s = .next t)
    (hpass : firstError (insertChecks c s) = none) (j : Nat) :
    (counter t j).toNat = min ((counter s j).toNat + (slotsOf c s (keyBytes s)).count j) 15 := by
  rcases insertAt_next h with ⟨e, he, _⟩ | ⟨_, _, _, rfl⟩
  · cases hpass.symm.trans he
  · rw [counter_complete, counter_incrementAll]

/-- An INSERT that passes its checks has an instance with at least one hash function. -/
theorem slotsOf_ne_nil_of_insertAt {c : Config} {s t : State} (h : insertAt c s = .next t)
    (hpass : firstError (insertChecks c s) = none) (x : List Byte) : slotsOf c s x ≠ [] := by
  rcases insertAt_next h with ⟨e, he, _⟩ | ⟨_, hrange, _⟩
  · cases hpass.symm.trans he
  · obtain ⟨_, _, hk, _⟩ := (instanceInRange_iff c s).1 hrange
    exact slotsOf_ne_nil x hk

/-- Settles O47: INSERT leaves every counter of its key at 1 at least, and none of them returns to 0. -/
theorem insertedKeyIsFound : Obligations.InsertedKeyIsFound := by
  intro s t u k ht herr hA hrun
  have hpass := insertChecks_of_noError ht herr
  have hslots : slotsOf Config.impl u (keyBytes s) = slotsOf Config.impl s (keyBytes s) := by
    have hrunInstance := run_sameInstance (fun _ ⟨hreset, hconfigure, _⟩ => ⟨hreset, hconfigure⟩) hA hrun
    have hinsertInstance := execAt_sameInstance (i := .insert) ((exec_eq_execAt .insert s).symm.trans ht) nofun
    exact slotsOf_of_sameInstance (sameInstance_trans hinsertInstance hrunInstance) _ _
  rw [hslots, le_lookupValue_iff u (slotsOf_ne_nil_of_insertAt ht hpass _)]
  intro i hi
  have hraised : counter t i ≠ 0#4 := by
    have hcount := List.count_pos_iff.2 hi
    rw [counter_ne_zero_iff, counter_insertAt ht hpass]
    omega
  exact (counter_ne_zero_iff u i).1 (countersNeverReturnToZero t u k hA hrun i hraised)

/-! ### Steps that only insert -/

/-- The slot list that the next step increments: the one of the key, if the step runs INSERT of a legal key. -/
def insertedSlots (s : State) : List Nat :=
  if nextCommand s = some .insert ∧ s.keyLen.toNat ≤ Config.impl.keyMax then slotsOf Config.impl s (keyBytes s) else []

/-- A step that runs INSERT, with an instance, raises each counter as the incremented list says. -/
theorem step_insert_counter {s t : State} (h : step s = .next t) (hs : HoldsInstance s)
    (hi : nextCommand s = some .insert) (j : Nat) :
    (counter t j).toNat = min ((counter s j).toNat + (insertedSlots s).count j) 15 := by
  obtain ⟨rest, hstep⟩ := step_of_nextCommand hi
  obtain ⟨u, hu, rfl⟩ := afterCommand_next (hstep ▸ h)
  by_cases hlen : s.keyLen.toNat ≤ Config.impl.keyMax
  · rw [insertedSlots, if_pos ⟨hi, hlen⟩]
    exact (counter_insertAt hu (firstError_insertChecks_pass hs.1 hlen) j :)
  · have hlt := counter_lt s j
    cases (insertAt_keyLength (s := { s with script := rest }) hs.1 (Nat.not_le.1 hlen)).symm.trans hu
    rw [insertedSlots, if_neg fun hn => hlen hn.2, List.count_nil, Nat.add_zero, min_eq_left (by omega)]
    rfl

/-- A step that runs neither an update loop nor CONFIGURE, and no reset, keeps the counters. -/
theorem step_keeps_counters {s t : State} (h : step s = .next t) (hA : OnlyInserts s)
    (hi : nextCommand s ≠ some .insert) (j : Nat) : counter t j = counter s j := by
  obtain ⟨hreset, hconfigure, hdelete, hincSlot, hdecSlot⟩ := hA
  rcases step_next_cases h hreset with ⟨_, _, _, _, _, _, _, _, _, hcram⟩ | ⟨rest, rfl⟩ | ⟨rest, i, u, hcmd, hu, rfl⟩
  · exact counter_congr hcram j
  · rfl
  · simp only [hcmd, ne_eq, Option.some.injEq] at hconfigure hdelete hincSlot hdecSlot hi
    rw [← exec_eq_execAt] at hu
    obtain ⟨hcram, _⟩ := exec_keeps_counters hu hconfigure ⟨hincSlot, hi⟩ ⟨hdecSlot, hdelete⟩
    exact (counter_congr hcram j :)

/-- A step that only inserts raises each counter by the number of times its slot stands in the incremented list. -/
theorem step_counter_of_onlyInserts {s t : State} (h : step s = .next t) (hs : HoldsInstance s)
    (hA : OnlyInserts s) (j : Nat) :
    (counter t j).toNat = min ((counter s j).toNat + (insertedSlots s).count j) 15 := by
  by_cases hi : nextCommand s = some .insert
  · exact step_insert_counter h hs hi j
  · have hlt := counter_lt s j
    rw [step_keeps_counters h hA hi, insertedSlots, if_neg fun hn => hi hn.1, List.count_nil]
    omega

/-- A step that inserts `x` increments the slots of `x`. -/
theorem insertedSlots_eq {x : List Byte} {s : State} (hx : x.length ≤ Config.impl.keyMax)
    (hcmd : nextCommand s = some .insert) (hkey : keyBytes s = x) : insertedSlots s = slotsOf Config.impl s x := by
  subst hkey
  exact if_pos ⟨hcmd, keyBytes_length s ▸ hx⟩

theorem step_sameInstance_of_onlyInserts {s u v : State} (h : SameInstance s u) (hv : step u = .next v)
    (hA : OnlyInserts u) : SameInstance s v := by
  obtain ⟨hreset, hconfigure, _⟩ := hA
  exact sameInstance_trans h (step_sameInstance hv hconfigure hreset)

/-! ### LOOKUP after inserts -/

/-- After `n` inserts of `x` since `s`: the instance is that of `s`, and the counters of `x` are `n`
or more, up to 15. -/
def CountsAtLeast (x : List Byte) (s : State) (n : Nat) (u : State) : Prop :=
  SameInstance s u ∧ ∀ i ∈ slotsOf Config.impl s x, min n 15 ≤ (counter u i).toNat

/-- After `n` inserts of `x` since `s` and no other increment of its slots: the instance is that of `s`, and the
counters of `x` are `n` times their number of occurrences, up to 15. -/
def CountsExactly (x : List Byte) (s : State) (n : Nat) (u : State) : Prop :=
  SameInstance s u ∧ ∀ i ∈ slotsOf Config.impl s x,
    (counter u i).toNat = min (n * (slotsOf Config.impl s x).count i) 15

/-- The next step only inserts, and if it inserts another key than `x`, then one whose slots are none of `x`. -/
def MissesSlots (x : List Byte) (u : State) : Prop :=
  OnlyInserts u ∧ (nextCommand u = some .insert → keyBytes u = x ∨
    ∀ i ∈ slotsOf Config.impl u (keyBytes u), i ∉ slotsOf Config.impl u x)

theorem not_mem_insertedSlots {x : List Byte} {u : State} {i : Nat} (hA : MissesSlots x u)
    (hinsert : ¬(nextCommand u = some .insert ∧ keyBytes u = x)) (hi : i ∈ slotsOf Config.impl u x) :
    i ∉ insertedSlots u := by
  unfold insertedSlots
  obtain ⟨_, hother⟩ := hA
  split_ifs with hlegal
  · obtain ⟨hcmd, _⟩ := hlegal
    rcases hother hcmd with hkey | hmiss
    · exact absurd ⟨hcmd, hkey⟩ hinsert
    · exact fun hmem => hmiss i hmem hi
  · exact List.not_mem_nil

section
variable {x : List Byte} {s : State} (hs : HoldsInstance s) (hx : x.length ≤ Config.impl.keyMax)
include hs hx

theorem step_countsAtLeast (n : Nat) (u v : State) (hv : step u = .next v) (hA : OnlyInserts u)
    (h : CountsAtLeast x s n u) : CountsAtLeast x s (n + insertsNow x u) v := by
  obtain ⟨hinstance, hle⟩ := h
  refine ⟨step_sameInstance_of_onlyInserts hinstance hv hA, fun i hi => ?_⟩
  have hcounter := step_counter_of_onlyInserts hv (holdsInstance_of_sameInstance hinstance hs) hA i
  have := hle i hi
  unfold insertsNow
  split_ifs with hinsert
  · obtain ⟨hcmd, hkey⟩ := hinsert
    rw [insertedSlots_eq hx hcmd hkey, slotsOf_of_sameInstance hinstance] at hcounter
    have hcount := List.count_pos_iff.2 hi
    omega
  · omega

theorem step_countsExactly (n : Nat) (u v : State) (hv : step u = .next v) (hA : MissesSlots x u)
    (h : CountsExactly x s n u) : CountsExactly x s (n + insertsNow x u) v := by
  obtain ⟨hinstance, heq⟩ := h
  refine ⟨step_sameInstance_of_onlyInserts hinstance hv hA.1, fun i hi => ?_⟩
  have hcounter := step_counter_of_onlyInserts hv (holdsInstance_of_sameInstance hinstance hs) hA.1 i
  have hslots := slotsOf_of_sameInstance hinstance Config.impl x
  rw [hcounter, heq i hi]
  unfold insertsNow
  split_ifs with hinsert
  · obtain ⟨hcmd, hkey⟩ := hinsert
    rw [insertedSlots_eq hx hcmd hkey, hslots, Nat.succ_mul]
    omega
  · rw [List.count_eq_zero_of_not_mem (not_mem_insertedSlots hA hinsert (hslots ▸ hi)), Nat.add_zero, Nat.add_zero]
    omega

end

/-- Settles O48: each counter of `x` rises with every insert of `x`, up to 15, and never falls. -/
theorem lookupCountsInserts : Obligations.LookupCountsInserts := by
  intro x s t k hs hx hA hrun
  have hstart : CountsAtLeast x s 0 s := ⟨by simp [SameInstance], fun i _ => Nat.zero_le _⟩
  obtain ⟨hinstance, hle⟩ := run_counts (step_countsAtLeast hs hx) hA hrun hstart
  rw [Nat.zero_add] at hle
  rw [slotsOf_of_sameInstance hinstance]
  exact (le_lookupValue_iff t (slotsOf_ne_nil_of_holdsInstance hs x) _).2 hle

/-- Settles O49: only the inserts of `x` raise its counters, the least of which is that of a slot that occurs once. -/
theorem lookupIsExactWithoutCollisions : Obligations.LookupIsExactWithoutCollisions := by
  intro x s t k hs hx hzero honce hA hrun hle
  have hstart : CountsExactly x s 0 s := ⟨by simp [SameInstance], fun i hi => by simp [hzero i hi]⟩
  obtain ⟨hinstance, heq⟩ := run_counts (step_countsExactly hs hx) hA hrun hstart
  rw [Nat.zero_add] at heq
  rw [slotsOf_of_sameInstance hinstance]
  have hne := slotsOf_ne_nil_of_holdsInstance hs x
  obtain ⟨i, hi⟩ := honce
  have hmem : i ∈ slotsOf Config.impl s x := List.count_pos_iff.1 (hi ▸ Nat.one_pos)
  refine le_antisymm ?_ ((le_lookupValue_iff t hne _).2 fun j hj => ?_)
  · obtain ⟨_, hleast⟩ := lookupValue_spec t hne
    refine (hleast i hmem).trans ?_
    rw [heq i hmem, hi, Nat.mul_one]
    exact min_le_left _ _
  · rw [heq j hj]
    exact le_min (Nat.le_mul_of_pos_right _ (List.count_pos_iff.2 hj)) hle

end Sys2Proof.Proofs
end

section
/-! PROOFS. The failure of a command and the faults of the model (spec rules R281, R283, R289). -/

namespace Sys2Proof.Proofs

open Sys2Proof.Machine

/-! ### The failure of a command -/

/-- Settles O6: such a word decodes to no command, so the `CMD` write is the failure and its answer. -/
theorem illegalWordFails : Obligations.IllegalWordFails := by
  intro s rest w hs hw
  have hill : wordWellFormed w = false := by
    rwa [← Bool.not_eq_true, wordWellFormed_iff, not_and_or, not_le]
  obtain ⟨e, he⟩ := (decode_eq_error_iff w).2 hill
  exact step_command_illegal hs (isLegal_of_cmdOffset rfl rfl) rfl rfl he

/-- Only a failure leaves an error code: a completion clears ERR. -/
theorem execAt_failed {c : Config} {i : Instr} {s t : State} (h : execAt c i s = .next t)
    (he : t.status.err ≠ .noError) : t = failed s t.status.err := by
  rcases execAt_next h with ⟨e, rfl⟩ | ⟨_, _, rfl⟩ | ⟨_, S, r, _, _, rfl⟩ | ⟨_, S, r, _, rfl⟩
  · rfl
  · exact absurd rfl he
  · exact absurd rfl he
  · exact absurd rfl he

/-- Running a command word, legal or not, leaves an error code only as a failure (R281, R283). -/
theorem runCommand_failed {w : Word} {s t : State} (h : runCommand exec w s = .next t)
    (he : t.status.err ≠ .noError) : t = failed s t.status.err := by
  unfold runCommand at h
  split at h
  · cases h
    rfl
  · exact execAt_failed (exec_eq_execAt _ s ▸ h) he

/-- Settles O24: the failure of the word that runs, and then the answer to its `CMD` write. -/
theorem failedCommandChangesOnlyStatus : Obligations.FailedCommandChangesOnlyStatus := by
  refine ⟨fun i s t h he => execAt_failed (exec_eq_execAt i s ▸ h) he, fun s t rest w hs h he => ?_⟩
  rw [step_command hs (isLegal_of_cmdOffset rfl rfl) rfl rfl] at h
  obtain ⟨u, hu, rfl⟩ := afterCommand_next h
  exact congrArg (respond · writeDone) (runCommand_failed hu he)

/-! ### The faults on unwritten words -/

/-- The word reported is the one that is unwritten while all before it are written. -/
theorem firstUnwritten_of_first {t : List (Nat × Word)} {count w : Nat} (hw : w < count)
    (hnone : lookupAt t w = none) (hbefore : ∀ v < w, lookupAt t v ≠ none) : firstUnwritten t count = some w := by
  obtain ⟨v, hv⟩ := exists_firstUnwritten fun hall => hall w hw hnone
  obtain ⟨_, hvnone, hvbefore⟩ := firstUnwritten_eq_some hv
  have hvw : v = w :=
    le_antisymm (not_lt.1 fun hlt => hvbefore w hlt hnone) (not_lt.1 fun hlt => hbefore v hlt hvnone)
  rw [hv, hvw]

/-- A command that consumes the key and passes its checks faults on the first KEY word that is not written (R222,
R289 (b)). -/
theorem keyCommand_faults {c : Config} {s : State} {l : List (Bool × ErrCode)} {body : List Byte → Result} {w : Nat}
    (hl : firstError l = none) (hi : instanceInRange c s = true)
    (hw : firstUnwritten s.key (keyWordsUsed s) = some w) :
    afterChecks l s (onInstance c s (onKey s body)) = .fault (.consumedUnwrittenKey w) :=
  (afterChecks_pass s _ hl).trans ((onInstance_pass _ hi).trans (by rw [onKey, hw]))

theorem firstError_hashSlotChecks_pass {c : Config} {s : State} (hc : s.status.configured = true)
    (hlen : s.keyLen.toNat ≤ c.keyMax) (h₁ : 1 ≤ s.arg0.toNat) (h₂ : s.arg0.toNat ≤ s.k.toNat) :
    firstError (hashSlotChecks c s) = none := by
  simp [hashSlotChecks, firstError_cons, hc, argument, Nat.not_lt.2 hlen, Nat.not_lt.2 h₁, Nat.not_lt.2 h₂]

theorem digestWords_le (c : Config) : c.digestWords ≤ 32 := by
  have := c.digestWordsExtra.isLt
  unfold Config.digestWords
  omega

/-- Settles O23: the read of such a word, the commands that consume the key, and MAP. -/
theorem unwrittenWordsFault : Obligations.UnwrittenWordsFault := by
  refine ⟨fun s rest x w hs hd hz => ⟨fun ha hw hnone => ?_, fun ha hw hnone => ?_⟩,
    fun s w hs hlen hw hnone hbefore => ?_, fun s w hs hw hnone hbefore => ?_⟩
  · have hl : isLegal x = true := (isLegal_iff x).2 ⟨hz, by omega⟩
    exact step_read_error hs hl hd (regAt_key ha ▸ readReg_key_unwritten hw hnone)
  · have hl : isLegal x = true := (isLegal_iff x).2 ⟨hz, by omega⟩
    have hreg := regAt_digest (hw.trans_le (digestWords_le _)) ha
    exact step_read_error hs hl hd (hreg ▸ readReg_digest_unwritten hw hnone)
  · have hfirst := firstUnwritten_of_first ((keyWordsUsed_lt_iff s w).2 hw) hnone hbefore
    have hi := instanceInRange_of_holdsInstance hs
    have hchecks := firstError_insertChecks_pass hs.1 hlen
    exact ⟨keyCommand_faults hchecks hi hfirst,
      keyCommand_faults (deleteChecks_eq Config.impl s ▸ hchecks) hi hfirst,
      keyCommand_faults (lookupChecks_eq Config.impl s ▸ hchecks) hi hfirst,
      fun h₁ h₂ => keyCommand_faults (firstError_hashSlotChecks_pass hs.1 hlen h₁ h₂) hi hfirst⟩
  · exact exec_map_faults hs (firstUnwritten_of_first hw hnone hbefore)

/-! ### No other faults -/

/-- The outcome is a next state, or a fault that names a word not written in `s` (R289). -/
def FaultsOnlyOnUnwritten (s : State) (o : Result) : Prop :=
  (∃ t, o = .next t) ∨
  (∃ w, lookupAt s.key w = none ∧ (o = .fault (.readUnwrittenKey w) ∨ o = .fault (.consumedUnwrittenKey w))) ∨
  ∃ w, lookupAt s.digest w = none ∧
    (o = .fault (.readUnwrittenDigest w) ∨ o = .fault (.consumedUnwrittenDigest w))

section
variable {c : Config} {s : State}

theorem faultsOnlyOnUnwritten_next (t : State) : FaultsOnlyOnUnwritten s (.next t) := .inl ⟨t, rfl⟩

/-- A command that checks CONFIGURED goes past its checks with an instance alone. -/
theorem faultsOnlyOnUnwritten_afterChecks {l : List (Bool × ErrCode)} {body : Result}
    (hmem : (!s.status.configured, ErrCode.notConfigured) ∈ l)
    (hbody : s.status.configured = true → FaultsOnlyOnUnwritten s body) :
    FaultsOnlyOnUnwritten s (afterChecks l s body) := by
  cases hf : firstError l with
  | some e =>
    rw [afterChecks_fail s body hf]
    exact faultsOnlyOnUnwritten_next _
  | none =>
    rw [afterChecks_pass s body hf]
    exact hbody (by simpa using firstError_eq_none_iff.1 hf _ hmem)

theorem faultsOnlyOnUnwritten_onSlots {body : Result} (hi : instanceInRange c s = true)
    (hbody : FaultsOnlyOnUnwritten s body) : FaultsOnlyOnUnwritten s (onSlots c s body) := by
  rwa [onSlots_pass body (slotsInRange_of_instanceInRange hi)]

theorem faultsOnlyOnUnwritten_onKey {body : List Byte → Result}
    (hbody : FaultsOnlyOnUnwritten s (body (keyBytes s))) : FaultsOnlyOnUnwritten s (onKey s body) := by
  unfold onKey
  split
  · rename_i w hw
    obtain ⟨_, hnone, _⟩ := firstUnwritten_eq_some hw
    exact .inr (.inl ⟨w, hnone, .inr rfl⟩)
  · exact hbody

theorem faultsOnlyOnUnwritten_onDigest {body : Nat → Result}
    (hbody : FaultsOnlyOnUnwritten s (body (digestSum s c.digestWords))) :
    FaultsOnlyOnUnwritten s (onDigest c s body) := by
  unfold onDigest
  split
  · rename_i w hw
    obtain ⟨_, hnone, _⟩ := firstUnwritten_eq_some hw
    exact .inr (.inr ⟨w, hnone, .inr rfl⟩)
  · exact hbody

/-- A read of a register faults on an unwritten word alone (R289 (a)). -/
theorem faultsOnlyOnUnwritten_readReg {r : Reg} {f : Fault} (h : readReg c s r = .error f) :
    FaultsOnlyOnUnwritten s (.fault f) := by
  cases r with
  | digest w =>
    simp only [readReg] at h
    split_ifs at h with _ hw
    cases h
    exact .inr (.inr ⟨w, (isWritten_eq_false_iff _ _).1 (Bool.eq_false_iff.2 hw), .inl rfl⟩)
  | key w =>
    simp only [readReg] at h
    split_ifs at h with _ hw
    cases h
    exact .inr (.inl ⟨w, (isWritten_eq_false_iff _ _).1 (Bool.eq_false_iff.2 hw), .inl rfl⟩)
  | _ => cases h

theorem faultsOnlyOnUnwritten_afterCommand {o : Result} (h : FaultsOnlyOnUnwritten s o) :
    FaultsOnlyOnUnwritten s (afterCommand o) := by
  rcases h with ⟨t, rfl⟩ | ⟨w, hw, rfl | rfl⟩ | ⟨w, hw, rfl | rfl⟩
  · exact faultsOnlyOnUnwritten_next _
  · exact .inr (.inl ⟨w, hw, .inl rfl⟩)
  · exact .inr (.inl ⟨w, hw, .inr rfl⟩)
  · exact .inr (.inr ⟨w, hw, .inl rfl⟩)
  · exact .inr (.inr ⟨w, hw, .inr rfl⟩)

variable (hrange : s.status.configured = true → instanceInRange c s = true)
include hrange

/-- A command that consumes the key: past its checks, its instance is in range. -/
theorem faultsOnlyOnUnwritten_keyCommand {l : List (Bool × ErrCode)} {body : List Byte → Result}
    (hmem : (!s.status.configured, ErrCode.notConfigured) ∈ l)
    (hbody : FaultsOnlyOnUnwritten s (body (keyBytes s))) :
    FaultsOnlyOnUnwritten s (afterChecks l s (onInstance c s (onKey s body))) :=
  faultsOnlyOnUnwritten_afterChecks hmem fun hc => by
    rw [onInstance_pass _ (hrange hc)]
    exact faultsOnlyOnUnwritten_onKey hbody

/-- R289 (b) for every configuration: a command whose instance, if there is one, is in range. -/
theorem faultsOnlyOnUnwritten_execAt (i : Instr) : FaultsOnlyOnUnwritten s (execAt c i s) := by
  cases i with
  | nop => exact faultsOnlyOnUnwritten_next _
  | configure => exact .inl (configureAt_total c s)
  | readSlot =>
    exact faultsOnlyOnUnwritten_afterChecks (by simp [readSlotChecks]) fun hc =>
      faultsOnlyOnUnwritten_onSlots (hrange hc) (faultsOnlyOnUnwritten_next _)
  | incSlot =>
    exact faultsOnlyOnUnwritten_afterChecks (by simp [incSlotChecks]) fun hc =>
      faultsOnlyOnUnwritten_onSlots (hrange hc) (faultsOnlyOnUnwritten_next _)
  | decSlot =>
    exact faultsOnlyOnUnwritten_afterChecks (by simp [decSlotChecks]) fun hc =>
      faultsOnlyOnUnwritten_onSlots (hrange hc) (faultsOnlyOnUnwritten_next _)
  | readByte =>
    exact faultsOnlyOnUnwritten_afterChecks (by simp [readByteChecks]) fun hc =>
      faultsOnlyOnUnwritten_onSlots (hrange hc) (faultsOnlyOnUnwritten_next _)
  | map =>
    exact faultsOnlyOnUnwritten_afterChecks (by simp [mapChecks]) fun hc =>
      faultsOnlyOnUnwritten_onSlots (hrange hc) (faultsOnlyOnUnwritten_onDigest (faultsOnlyOnUnwritten_next _))
  | hashSlot =>
    exact faultsOnlyOnUnwritten_keyCommand hrange (by simp [hashSlotChecks]) (faultsOnlyOnUnwritten_next _)
  | insert =>
    exact faultsOnlyOnUnwritten_keyCommand hrange (by simp [insertChecks]) (faultsOnlyOnUnwritten_next _)
  | delete =>
    refine faultsOnlyOnUnwritten_keyCommand hrange (by simp [deleteChecks]) ?_
    split_ifs
    · exact faultsOnlyOnUnwritten_next _
    · exact faultsOnlyOnUnwritten_next _
  | lookup =>
    exact faultsOnlyOnUnwritten_keyCommand hrange (by simp [lookupChecks]) (faultsOnlyOnUnwritten_next _)

end

theorem faultsOnlyOnUnwritten_runCommand {s : State}
    (hrange : s.status.configured = true → instanceInRange Config.impl s = true) (w : Word) :
    FaultsOnlyOnUnwritten s (runCommand exec w s) := by
  unfold runCommand
  split
  · exact faultsOnlyOnUnwritten_next _
  · rw [exec_eq_execAt]
    exact faultsOnlyOnUnwritten_execAt hrange _

/-- R289 for a transaction, by its kind: bus error, read, command or write of a register. -/
theorem faultsOnlyOnUnwritten_request {s : State} {rest : List PortEvent} {x : Transaction}
    (hrange : s.status.configured = true → instanceInRange Config.impl s = true)
    (hs : s.script = .request x :: rest) : FaultsOnlyOnUnwritten s (step s) := by
  cases hl : isLegal x with
  | false => exact .inl ⟨_, step_busError hs hl⟩
  | true =>
    cases hd : x.dir with
    | read =>
      cases hr : readReg Config.impl s (regAt x.addr) with
      | ok v => exact .inl ⟨_, step_read_ok hs hl hd hr⟩
      | error f =>
        rw [step_read_error hs hl hd hr]
        exact faultsOnlyOnUnwritten_readReg hr
    | write =>
      by_cases ha : x.addr = cmdOffset
      · have hcommand := faultsOnlyOnUnwritten_runCommand (s := { s with script := rest }) hrange x.wdata
        rw [step_command hs hl hd ha]
        exact faultsOnlyOnUnwritten_afterCommand hcommand
      · exact .inl ⟨_, step_write hs hl hd ha⟩

theorem step_reset {s : State} {a : Option Transaction} {rest : List PortEvent} (hs : s.script = .reset a :: rest) :
    step s = .next (afterReset { s with script := rest }) := by
  simp [step, stepWith, hs, perform]

/-- Settles O46: the invariant has the instance in range, which leaves a transaction the faults on unwritten words; an
idle step and a reset have none. -/
theorem stepsFaultOnlyOnUnwrittenWords : Obligations.StepsFaultOnlyOnUnwrittenWords := by
  intro s h
  change FaultsOnlyOnUnwritten s (step s)
  cases hs : s.script with
  | nil => exact .inl ⟨_, step_idle hs⟩
  | cons e rest =>
    cases e with
    | reset a => exact .inl ⟨_, step_reset hs⟩
    | request x =>
      exact faultsOnlyOnUnwritten_request (fun hc => (instanceInRange_iff _ _).2 (h.inRange hc)) hs

end Sys2Proof.Proofs
end

section
/-! PROOFS. Reset, and the failures before the first CONFIGURE (spec rules R282, R320, R321, R324). -/

namespace Sys2Proof.Proofs

open Sys2Proof.Machine

/-- Settles O11: a reset event is always performed, whatever it abandons, and leaves the reset values with the rest of the
script and the responses so far (R320, R321). -/
theorem resetStepGivesResetValues : Obligations.ResetStepGivesResetValues :=
  fun _ _ _ hs => ⟨_, step_reset hs⟩

/-- Settles O29: R324 on the hardware at hand. -/
theorem beforeConfigureCommandsFail : Obligations.BeforeConfigureCommandsFail := by
  intro s i hs hn hc
  rw [exec_eq_execAt]
  exact execAt_unconfigured Config.impl hs hn hc

end Sys2Proof.Proofs
end
